-- ==== Sys2Proof/Word.lean ====
section
/-! DEFINITION. The word types of the block: bytes, 32-bit register words (R9) and packed bit strings (R10). -/

namespace Sys2Proof

/-- A symbol, a byte of IBUF or OBUF, an opcode byte (00_scope R9, R14). -/
abbrev Byte := BitVec 8

/-- A 32-bit register or a command word (00_scope R9, 30_encoding R120). -/
abbrev Word := BitVec 32

/-- A finite bit string `c_0 c_1 … c_(L-1)`, first bit first (00_scope R10). -/
abbrev BitString := List Bool

end Sys2Proof
end

