-- ==== Sys2Proof/Config.lean ====
section
/-! DEFINITION. Parameters and constants of the block (00_scope R7, R8) and the free draws the spec leaves open
(93_implementation_defined U3, U4, U6). -/

namespace Sys2Proof

/-- The implementation parameters of 00_scope R7 that the block itself has, and the platform's base address of its window
(20_memory R97). They are fixed for one block: the state carries them and no step changes them. -/
structure Params where
  /-- `IBUF_SIZE`: bytes of IBUF. -/
  ibufSize : Nat
  /-- `OBUF_SIZE`: bytes of OBUF. -/
  obufSize : Nat
  /-- `HAS_COUNTER`: whether COUNT exists (R5). -/
  hasCounter : Bool
  /-- `WINDOW_BASE`: where the platform puts the window in the host's address space (20_memory R97), any address. -/
  windowBase : Nat
  deriving DecidableEq, Repr

/-- The defaults of 00_scope R7. WINDOW_BASE is open and has none (20_memory R97): 0 here is a DESIGN CHOICE (log 12). -/
def Params.default : Params := { ibufSize := 65536, obufSize := 65536, hasCounter := true, windowBase := 0 }

/-- The legal values of 00_scope R7. -/
abbrev Params.Legal (p : Params) : Prop :=
  (1 ≤ p.ibufSize ∧ p.ibufSize < 2 ^ 31) ∧ (1 ≤ p.obufSize ∧ p.obufSize < 2 ^ 32)

namespace Config

/-- `NSYM` (R8): a symbol is one byte value. -/
def nsym : Nat := 256

/-- `MAX_NODES` (R8). -/
def maxNodes : Nat := 511

/-- `MAX_CODE_LEN` (R8). -/
def maxCodeLen : Nat := 255

/-- One more than `FREQ_MAX` (R8): the first frequency BUILD rejects (41_tree_builder R171). -/
def freqLimit : Nat := 2 ^ 31

/-- `ID_VALUE` (R8, 10_state R23). -/
def idValue : Word := 0x48544231

/-- `TS_BYTES` (R7): bytes of a container's `table_size`. -/
def tsBytes : Nat := 8

/-- `FREQ_BYTES` (R7): bytes of a container's `frequency`. -/
def freqBytes : Nat := 4

/-- `PADF_BYTES` (R7): bytes of a container's `padding_bits`. -/
def padfBytes : Nat := 4

/-- The free 32-bit draw number `n` (U3: a register read while BUSY; the frequency half of an FTAB entry nothing has
written). Nothing constrains it. -/
opaque freeWord : Nat → BitVec 32

/-- The free byte at address `a` of draw number `n` (U4: OBUF after a DECODE that failed in its walk; the symbol half of
an FTAB entry nothing has written). Nothing constrains it. -/
opaque freeByte : Nat → Nat → BitVec 8

/-- The free number of host accesses between the acceptance numbered `n` and the engine step (20_memory R90, U6): any
finite number. -/
opaque freeDelay : Nat → Nat

end Config
end Sys2Proof
end

