-- ==== Sys2Proof/Syntax.lean ====
section
/-! DEFINITION. The commands of HTB-CMD version 1 (00_scope R2, 30_encoding R124), one constructor per row of the opcode
table. A command has no operand fields (30_encoding R122). -/

namespace Sys2Proof

/-- A command. ILLEGAL (45_control R263) is no row of the table: it is what the decoder's rejection of a word executes as. -/
inductive Instr where
  /-- NOP, 45_control R260. -/
  | nop
  /-- COUNT, 40_frequency_counter R150. -/
  | count
  /-- BUILD, 41_tree_builder R170. -/
  | build
  /-- GENCODES, 42_code_table R190. -/
  | genCodes
  /-- PACK, 43_packer R210. -/
  | pack
  /-- DECODE, 44_decoder R230. -/
  | decode
  /-- SOFT_RESET, 45_control R261. -/
  | softReset
  deriving DecidableEq, Repr

end Sys2Proof
end

