-- ==== Sys2Proof/WellFormed.lean ====
section
/-! DEFINITION. Which commands exist on a block with given parameters (30_encoding R124, column "present"). -/

namespace Sys2Proof

/-- The command exists: COUNT only when HAS_COUNTER = 1 (30_encoding R126), the others always (R124). -/
def Instr.wf (p : Params) : Instr → Bool
  | .nop => true
  | .count => p.hasCounter
  | .build => true
  | .genCodes => true
  | .pack => true
  | .decode => true
  | .softReset => true

end Sys2Proof
end

