-- ==== Sys2Proof/Decode.lean ====
section
/-! DEFINITION. Decoding a command word (30_encoding R120 to R128) and its encoder. -/

namespace Sys2Proof

/-- Why a word names no command; it then executes as ILLEGAL (45_control R263). -/
inductive IllegalWord where
  /-- A bit of [31:8] is set (30_encoding R127). -/
  | reservedBits
  /-- OPCODE is 0x06 to 0x0E or 0x10 to 0xFF (30_encoding R128). -/
  | reservedOpcode
  /-- OPCODE is 0x01 and HAS_COUNTER = 0 (30_encoding R126). -/
  | noCounter
  deriving DecidableEq, Repr

/-- `w[7:0]`, the OPCODE field (30_encoding R121). -/
def opcodeOf (w : Word) : Byte := w.extractLsb' 0 8

/-- `w[31:8]`, the RSVD field (30_encoding R121). -/
def reservedOf (w : Word) : BitVec 24 := w.extractLsb' 8 24

/-- The opcode map of 30_encoding R124, for a block with a counter. -/
def opcodeMap (op : Byte) : Option Instr :=
  match op.toNat with
  | 0x00 => some .nop
  | 0x01 => some .count
  | 0x02 => some .build
  | 0x03 => some .genCodes
  | 0x04 => some .pack
  | 0x05 => some .decode
  | 0x0F => some .softReset
  | _ => none

/-- Decoding (30_encoding R125): the reserved field first, then the opcode, then whether the command exists (R126). -/
def decode (p : Params) (w : Word) : Except IllegalWord Instr :=
  if reservedOf w ≠ 0 then .error .reservedBits
  else match opcodeMap (opcodeOf w) with
    | none => .error .reservedOpcode
    | some i => if i.wf p then .ok i else .error .noCounter

/-- `OPCODE(MNEMONIC)` (30_encoding R124, R130). -/
def opcodeByte : Instr → Byte
  | .nop => 0x00
  | .count => 0x01
  | .build => 0x02
  | .genCodes => 0x03
  | .pack => 0x04
  | .decode => 0x05
  | .softReset => 0x0F

/-- The word of a command in format C32: RSVD = 0, OPCODE in [7:0] (30_encoding R121, R130). -/
def encode (i : Instr) : Word := (opcodeByte i).setWidth 32

/-- The host's question about one row of the opcode table: the command this decoder reads from the word `w`, on a block
with the default parameters. A command is exactly one 32-bit word (30_encoding R120), so a longer number is no command. -/
def decodeTableWord (_nbits w : Nat) : Option Instr :=
  if w < 2 ^ 32 then (decode Params.default (BitVec.ofNat 32 w)).toOption else none

end Sys2Proof
end

