-- ==== Sys2Proof/Machine/State.lean ====
section
/-! DEFINITION. The architectural state (10_state), the host's pending accesses (20_memory R90, R93) and the reset state
(70_reset_and_hazards R320). State is plain data. -/

namespace Sys2Proof.Machine

/-- The command errors of 60_exceptions R281, codes 0x01 to 0x0C. Code 0x00 (NONE) is the absence of an error. -/
inductive CmdError where
  | emptyInput
  | badTable
  | noTree
  | noCodes
  | uncodedSymbol
  | badPadding
  | emptyStream
  | truncatedCode
  | descendPastLeaf
  | badLength
  | outOverflow
  | illegalCmd
  deriving DecidableEq, Repr

/-- Why the machine stops with a fault. These are faults of the MODEL, not command errors (60_exceptions R280). -/
inductive Fault where
  /-- A command or the host read the IBUF byte at this address, which nothing has written since reset
  (93_implementation_defined U1). Raised by COUNT, PACK, DECODE and reads of IBUF_DATA. Safe. -/
  | unwrittenIbuf (address : Nat)
  /-- The host read the OBUF byte at this address, which nothing has written since reset (U1). Raised by reads of
  OBUF_DATA. Safe. -/
  | unwrittenObuf (address : Nat)
  /-- BUILD or the host read this FTAB entry, which nothing has written since reset (U1). Raised by BUILD and reads of
  FT_SYM and FT_FREQ. Safe. -/
  | unwrittenFtab (index : Nat)
  /-- GENCODES, DECODE or a NODE_* read met an arena that no BUILD makes: index 511, or a path longer than 255. No run
  from reset reaches it (41_tree_builder R176, 42_code_table R197, 44_decoder R240). Raised by those three. Safe. -/
  | arenaCorrupt
  deriving DecidableEq, Repr

/-- Why the model gives no meaning. -/
inductive Refusal where
  /-- An instruction without a meaning yet; no arm of this model uses it. Safe. -/
  | notModelled (mnemonic : String)
  /-- A host access that is not a 32-bit access at a multiple of 4 (20_memory R83, U2: a model refuses such an access by
  name). Raised by the host's turn. Safe. -/
  | accessNotAdmitted
  deriving DecidableEq, Repr

/-- A byte memory: (address, byte) pairs, addresses strictly rising. An address not listed holds no value: nothing has
written it since reset (U1). -/
abbrev Memory := List Host.Cell

/-- An FTAB entry (10_state R44). -/
structure FtabEntry where
  sym : Byte
  freq : Word
  deriving DecidableEq, Repr

/-- A node of the arena (10_state R45). A leaf uses `sym` and `freq`, an internal node `freq`, `left` and `right`. -/
structure Node where
  leaf : Bool
  sym : Byte
  freq : BitVec 40
  left : BitVec 9
  right : BitVec 9
  deriving DecidableEq, Repr

/-- A CTAB entry (10_state R46): `code_i` is bit `i` of `code`, and `code_0` is nearest the root. -/
structure CodeEntry where
  len : Byte
  code : BitVec 255
  deriving DecidableEq, Repr

/-- A bus transaction (30_encoding R129): a 32-bit read or write at a 12-bit byte offset of the window. -/
inductive BusTxn where
  | read (offset : BitVec 12)
  | write (offset : BitVec 12) (data : Word)
  deriving DecidableEq, Repr

/-- What the host, or the platform behind it, does next. -/
inductive HostOp where
  /-- One transaction (30_encoding R129). -/
  | access (t : BusTxn)
  /-- An access that is not 32 bits wide (20_memory R83). -/
  | wrongWidth (offset : BitVec 12) (bits : Nat)
  /-- `wait` (30_encoding R131): read STATUS until bit [0] of the result is 0. -/
  | wait
  /-- The counted reads of `readout` and `readft` (30_encoding R131): read the register at `count`, giving m; make the
  accesses `setup`; then m times read the registers of `body`. -/
  | countedReads (count : BitVec 12) (setup : List BusTxn) (body : List (BitVec 12))
  /-- The platform asserts hardware reset (70_reset_and_hazards R320 to R322). -/
  | hardwareReset
  deriving DecidableEq, Repr

/-- The state of the block, the host's queue and log, and the model's own counters. -/
structure State where
  /-- The parameters of 00_scope R7; no step changes them. -/
  params : Params
  /-- CTRL.IRQ_EN, R27. -/
  irqEn : Bool
  /-- STATUS.BUSY, R28. -/
  busy : Bool
  /-- STATUS.DONE, R28. -/
  done : Bool
  /-- STATUS.DROPPED, R28. -/
  dropped : Bool
  /-- STATUS.TREE_VALID, R28. -/
  treeValid : Bool
  /-- STATUS.CTAB_VALID, R28. -/
  ctabValid : Bool
  /-- STATUS.SINGLE_LEAF, R28. -/
  singleLeaf : Bool
  /-- STATUS.LAST_OP, R28. -/
  lastOp : Byte
  /-- ERR.ERR_CODE, R29; `none` is code 0x00. -/
  errCode : Option CmdError
  /-- ERR.ERR_OP, R29. -/
  errOp : Byte
  /-- IN_LEN, R31. -/
  inLen : Word
  /-- PAD_IN, R32. -/
  padIn : Word
  /-- OUT_LEN, R33. -/
  outLen : Word
  /-- PAD_OUT[2:0], R34. -/
  padOut : BitVec 3
  /-- IBUF_PTR, R35. -/
  ibufPtr : Word
  /-- OBUF_PTR, R37. -/
  obufPtr : Word
  /-- FT_COUNT[8:0], R39. -/
  ftCount : BitVec 9
  /-- FT_INDEX[7:0], R40. -/
  ftIndex : BitVec 8
  /-- CT_SYM[7:0], R48. -/
  ctSym : BitVec 8
  /-- CT_WORDSEL[2:0], R50. -/
  ctWordsel : BitVec 3
  /-- ROOT[8:0], R52. -/
  root : BitVec 9
  /-- NODE_COUNT[9:0], R53. -/
  nodeCount : BitVec 10
  /-- NODE_SEL[8:0], R54. -/
  nodeSel : BitVec 9
  /-- PENDING, R57. -/
  pending : Word
  /-- IBUF, R59. -/
  ibuf : Memory
  /-- OBUF, R59. -/
  obuf : Memory
  /-- FTAB, R44; `none` is an entry nothing has written since reset (U1's written bit is 0). -/
  ftab : Vector (Option FtabEntry) 256
  /-- NODE, R45. -/
  node : Vector Node 511
  /-- CTAB, R46. -/
  ctab : Vector CodeEntry 256
  /-- The model's own: how many free draws were taken. -/
  draws : Nat
  /-- The model's own: host accesses still let through before the engine step (R90, U6); meaningful while BUSY = 1. -/
  engineWait : Nat
  /-- What the host does next, first operation first (R93). -/
  hostQueue : List HostOp
  /-- The values the host's reads returned, oldest first (70_reset_and_hazards R341). -/
  hostReads : List Word
  deriving DecidableEq, Repr

/-- A NODE entry with every field 0. DESIGN CHOICE for the unobservable contents at reset (log 3). -/
def Node.zero : Node := { leaf := false, sym := 0, freq := 0, left := 0, right := 0 }

/-- A CTAB entry of a symbol without a code (R46), code all zero (42_code_table R192). -/
def CodeEntry.empty : CodeEntry := { len := 0, code := 0 }

/-- Hardware reset of a block with parameters `p` (70_reset_and_hazards R320, R321). IBUF, OBUF and FTAB hold nothing
written (U1); NODE and CTAB are unobservable (U7). -/
def State.resetWith (p : Params) : State where
  params := p
  irqEn := false
  busy := false
  done := false
  dropped := false
  treeValid := false
  ctabValid := false
  singleLeaf := false
  lastOp := 0
  errCode := .none
  errOp := 0
  inLen := 0
  padIn := 0
  outLen := 0
  padOut := 0
  ibufPtr := 0
  obufPtr := 0
  ftCount := 0
  ftIndex := 0
  ctSym := 0
  ctWordsel := 0
  root := 0
  nodeCount := 0
  nodeSel := 0
  pending := 0
  ibuf := []
  obuf := []
  ftab := Vector.replicate 256 .none
  node := Vector.replicate 511 Node.zero
  ctab := Vector.replicate 256 CodeEntry.empty
  draws := 0
  engineWait := 0
  hostQueue := []
  hostReads := []

/-- The block with the default parameters right after hardware reset (R320). -/
def State.reset : State := State.resetWith Params.default

end Sys2Proof.Machine
end

