-- ==== Sys2Proof/Machine/Ops.lean ====
section
/-! DEFINITION. The shared operations: byte memories (20_memory R81, R82), bit strings and packed bytes (00_scope R10),
the tables, the end of a command with and without an error (60_exceptions R284, R285), and the acceptance of a command
(10_state R26). -/

namespace Sys2Proof.Machine

/-! ### Byte memories -/

/-- The byte at address `x`, if something wrote it since reset (R81, U1). -/
def Memory.read : Memory → Nat → Option Byte
  | [], _ => none
  | (a, v) :: m, x => if x = a then some v else Memory.read m x

/-- Store `v` at address `x` (R82). The list stays in rising order of address. -/
def Memory.write : Memory → Nat → Byte → Memory
  | [], x, v => [(x, v)]
  | (a, b) :: m, x, v =>
    if x < a then (x, v) :: (a, b) :: m
    else if x = a then (x, v) :: m
    else (a, b) :: Memory.write m x v

/-- Store consecutive bytes from address `x` on (43_packer R217). -/
def Memory.writeBytes : Memory → Nat → List Byte → Memory
  | m, _, [] => m
  | m, x, v :: vs => Memory.writeBytes (Memory.write m x v) (x + 1) vs

/-- The memory whose `n` bytes from address `x` on are the free bytes of draw `d`, all counting as written (U4). -/
def Memory.drawn (d : Nat) : Nat → Nat → Memory
  | _, 0 => []
  | x, n + 1 => (x, Config.freeByte d x) :: Memory.drawn d (x + 1) n

/-- The canonical form: addresses strictly rising. An unlisted address holds no value, so no entry can equal what an
unlisted address reads as. -/
abbrev Memory.wf (m : Memory) : Prop := (m.map Prod.fst).Pairwise (· < ·)

/-- Every listed address exists in a buffer of `size` bytes (R80). -/
def Memory.within (m : Memory) (size : Nat) : Prop := ∀ c ∈ m, c.1 < size

/-! ### Bit strings and bytes -/

/-- The number whose binary digits are `bits`, first bit most significant. -/
def bitsValue (bits : BitString) : Nat := bits.foldl (fun acc b => 2 * acc + b.toNat) 0

/-- The byte of eight bits packed MSB-first (00_scope R10, 43_packer R214). -/
def packByte (bits : BitString) : Byte := BitVec.ofNat 8 (bitsValue bits)

/-- The bits of a byte from its MSB on: position `j` is bit `7 - j` (44_decoder R234). -/
def byteBits (b : Byte) : BitString := (List.range 8).map fun j => b.getLsbD (7 - j)

/-- Byte `k` of the result holds bits `8k` to `8k + 7` of `bits` (43_packer R214). -/
def packBytes : Nat → BitString → List Byte
  | 0, _ => []
  | m + 1, bits => packByte (bits.take 8) :: packBytes m (bits.drop 8)

/-- The code of a CTAB entry: `code_0 .. code_(len-1)` (10_state R46). -/
def CodeEntry.bits (e : CodeEntry) : BitString := (List.range e.len.toNat).map fun i => e.code.getLsbD i

/-- The CTAB entry of the code `p`: its length, and code bits that are 0 from the length on (42_code_table R192). -/
def CodeEntry.ofBits (p : BitString) : CodeEntry :=
  { len := BitVec.ofNat 8 p.length, code := (BitVec.ofBoolListLE p).setWidth 255 }

/-! ### Tables -/

/-- `CTAB[s]` (10_state R46). -/
def ctabAt (t : Vector CodeEntry 256) (s : Byte) : CodeEntry := t[s.toNat]'s.isLt

/-- `CTAB[s] <- e`. -/
def ctabSet (t : Vector CodeEntry 256) (s : Byte) (e : CodeEntry) : Vector CodeEntry 256 := t.set s.toNat e s.isLt

/-- The table whose first entries are those of `l` and whose others are those of `t`. -/
def overwrite {α : Type} {n : Nat} (t : Vector α n) (l : List α) : Vector α n :=
  ⟨((l ++ t.toList.drop l.length).take n).toArray, by simp; omega⟩

/-! ### The end of a command -/

/-- How a command's pseudocode stops early: `raise CmdError(code)` (00_scope R12), or a fault of the model. -/
inductive Stop where
  | cmdError (c : CmdError)
  | fault (f : Fault)
  deriving DecidableEq, Repr

/-- `if c then raise CmdError(code)` (00_scope R12). -/
def raiseIf (c : Prop) [Decidable c] (code : CmdError) : Except Stop Unit :=
  if c then .error (.cmdError code) else .ok ()

/-- A table or buffer access inside a command: its model fault stops the command. -/
def orFault {α : Type} : Except Fault α → Except Stop α
  | .ok a => .ok a
  | .error f => .error (.fault f)

/-- `complete()` (60_exceptions R284). -/
def complete (s : State) : State := { s with busy := false, done := true }

/-- `raise CmdError(code)` (60_exceptions R285), the part every command has: the error code, the opcode byte of PENDING,
and the end of the step. The part one command adds is applied by its meaning. -/
def raiseCmdError (c : CmdError) (s : State) : State :=
  { s with errCode := some c, errOp := opcodeOf s.pending, busy := false, done := true }

/-- A write of CLEAR (10_state R30): how the host acknowledges completion, an error (60_exceptions R288) or a dropped
write. There is no return-from-error operation (R288). -/
def clearStatus (w : Word) (s : State) : State :=
  { s with
    done := s.done && !w.getLsbD 0
    errCode := if w.getLsbD 1 then none else s.errCode
    errOp := if w.getLsbD 1 then 0 else s.errOp
    dropped := s.dropped && !w.getLsbD 2 }

/-- The end of a command whose pseudocode ran on `s` and gave `r`. A failed command keeps `s`, the state at acceptance,
but for the error record and `onError`, what R285 adds for that command. -/
def finishCommand (onError : CmdError → State → State) (s : State) (r : Except Stop State) :
    Host.Outcome State Fault Refusal :=
  match r with
  | .ok t => .next (complete t)
  | .error (.cmdError c) => .next (onError c (raiseCmdError c s))
  | .error (.fault f) => .fault f

/-- `onError` of a command for which R285 adds nothing (COUNT, GENCODES, ILLEGAL). -/
def addNothing (_ : CmdError) (s : State) : State := s

/-! ### Acceptance -/

/-- What a CMD write of `w` does when it is accepted (10_state R26). -/
def latchCommand (w : Word) (s : State) : State :=
  { s with pending := w, lastOp := opcodeOf w, done := false, errCode := none, errOp := 0, busy := true }

/-- Acceptance (R26), with the free number of host accesses before the engine step (20_memory R90, U6). -/
def acceptCommand (w : Word) (s : State) : State :=
  { latchCommand w s with engineWait := Config.freeDelay s.draws, draws := s.draws + 1 }

/-- The command word the engine executes (10_state R57). -/
def fetchCommand (s : State) : Word := s.pending

end Sys2Proof.Machine
end

