-- ==== Sys2Proof/Machine/Flags.lean ====
section
/-! DEFINITION. The flags (10_state R28, R60): what invalidates them, how STATUS, ERR, CTRL and CAP read, and irq. -/

namespace Sys2Proof.Machine

/-- `invalidate_tree()` (10_state R47). -/
def invalidateTree (s : State) : State :=
  { s with treeValid := false, ctabValid := false, singleLeaf := false, root := 0, nodeCount := 0 }

/-- The error codes (60_exceptions R281). -/
def CmdError.code : CmdError → Byte
  | .emptyInput => 0x01
  | .badTable => 0x02
  | .noTree => 0x03
  | .noCodes => 0x04
  | .uncodedSymbol => 0x05
  | .badPadding => 0x06
  | .emptyStream => 0x07
  | .truncatedCode => 0x08
  | .descendPastLeaf => 0x09
  | .badLength => 0x0A
  | .outOverflow => 0x0B
  | .illegalCmd => 0x0C

/-- ERR.ERR_CODE as a byte (10_state R29). -/
def errCodeByte (s : State) : Byte := (s.errCode.map CmdError.code).getD 0

/-- The error codes a DECODE raises during its walk (60_exceptions R285). -/
def CmdError.duringWalk : CmdError → Bool
  | .outOverflow => true
  | .truncatedCode => true
  | .descendPastLeaf => true
  | .emptyInput => false
  | .badTable => false
  | .noTree => false
  | .noCodes => false
  | .uncodedSymbol => false
  | .badPadding => false
  | .emptyStream => false
  | .badLength => false
  | .illegalCmd => false

/-- One flag at bit `i` of a register word. -/
def flagAt (b : Bool) (i : Nat) : Word := if b then BitVec.twoPow 32 i else 0

/-- STATUS (10_state R28). ERROR (bit 2) is not stored: it is 1 exactly when ERR_CODE is not 0. -/
def statusWord (s : State) : Word :=
  flagAt s.busy 0 ||| flagAt s.done 1 ||| flagAt (errCodeByte s != 0) 2 ||| flagAt s.dropped 3 |||
    flagAt s.treeValid 4 ||| flagAt s.ctabValid 5 ||| flagAt s.singleLeaf 6 ||| (s.lastOp.setWidth 32 <<< 8)

/-- ERR (10_state R29). -/
def errWord (s : State) : Word := (errCodeByte s).setWidth 32 ||| (s.errOp.setWidth 32 <<< 8)

/-- CTRL (10_state R27). -/
def ctrlWord (s : State) : Word := flagAt s.irqEn 0

/-- CAP (10_state R24). -/
def capWord (p : Params) : Word :=
  flagAt p.hasCounter 0 ||| (BitVec.ofNat 32 Config.maxCodeLen <<< 8) ||| (BitVec.ofNat 32 Config.nsym <<< 16)

/-- The output `irq` (60_exceptions R290). -/
def irq (s : State) : Bool := s.irqEn && s.done

end Sys2Proof.Machine
end

