-- ==== Sys2Proof/Machine/Operands.lean ====
section
/-! DEFINITION. The operands of commands (30_encoding R122): IN_LEN and the bytes of IBUF, the entries of FTAB, the nodes
of the arena. -/

namespace Sys2Proof.Machine

/-- `if IN_LEN > IBUF_SIZE then raise CmdError(BAD_LENGTH)` (40_frequency_counter R151, 43_packer R211, 44_decoder R232). -/
def checkInLen (s : State) : Except Stop Unit :=
  raiseIf (s.inLen.toNat > s.params.ibufSize) .badLength

/-- `MemRead(IBUF, a, 1)` (20_memory R81). -/
def readIbuf (s : State) (a : Nat) : Except Fault Byte :=
  match s.ibuf.read a with
  | some b => .ok b
  | none => .error (.unwrittenIbuf a)

/-- `MemRead(IBUF, a, 1)` for `n` addresses from `a` on, in order. -/
def readIbufBytes (s : State) : Nat → Nat → Except Fault (List Byte)
  | _, 0 => .ok []
  | a, n + 1 => do
    let b ← readIbuf s a
    let bs ← readIbufBytes s (a + 1) n
    .ok (b :: bs)

/-- `FTAB[i]` (10_state R44). -/
def readFtab (s : State) (i : Nat) : Except Fault FtabEntry :=
  match s.ftab[i]?.join with
  | some e => .ok e
  | none => .error (.unwrittenFtab i)

/-- `NODE[k]` (10_state R45). -/
def readNode (s : State) (k : BitVec 9) : Except Fault Node :=
  if h : k.toNat < 511 then .ok (s.node[k.toNat]'h) else .error .arenaCorrupt

end Sys2Proof.Machine
end

