-- ==== Sys2Proof/Machine/Build.lean ====
section
/-! DEFINITION. The tree builder: BUILD (41_tree_builder R170 to R184). -/

namespace Sys2Proof.Machine

/-- `key(k) = (NODE[k].freq, k)` of a node in LIVE (R175). -/
structure Key where
  freq : BitVec 40
  index : Nat
  deriving DecidableEq, Repr

/-- Lower frequency first, and between equal frequencies the lower arena index first (R175). -/
def Key.before (a b : Key) : Bool := a.freq < b.freq || (a.freq == b.freq && a.index < b.index)

/-- The working state of BUILD (R173): the arena entries made so far, and LIVE by the keys of its members. `next` is the
number of entries made. -/
structure Forest where
  nodes : List Node
  live : List Key
  deriving DecidableEq, Repr

/-- The member of LIVE with the lowest key, and the others (R174). -/
def takeMin : List Key → Option (Key × List Key)
  | [] => none
  | k :: ks =>
    match takeMin ks with
    | none => some (k, [])
    | some (m, rest) => if k.before m then some (k, ks) else some (m, k :: rest)

/-- The leaf of a table entry (R173). -/
def leafNode (e : FtabEntry) : Node := { leaf := true, sym := e.sym, freq := e.freq.setWidth 40, left := 0, right := 0 }

/-- The internal node over `a`, removed first, and `b`, removed second (R174, R177). -/
def internalNode (a b : Key) : Node :=
  { leaf := false, sym := 0, freq := a.freq + b.freq, left := BitVec.ofNat 9 a.index, right := BitVec.ofNat 9 b.index }

/-- Seeding (R173): one leaf per entry, at the entry's table index. -/
def seed (entries : List FtabEntry) : Forest :=
  { nodes := entries.map leafNode
    live := entries.mapIdx fun i e => { freq := e.freq.setWidth 40, index := i } }

/-- One pass of the merge loop (R174); nothing when LIVE has at most one member. -/
def mergePass (f : Forest) : Forest :=
  match takeMin f.live with
  | none => f
  | some (a, rest) =>
    match takeMin rest with
    | none => f
    | some (b, others) =>
      { nodes := f.nodes ++ [internalNode a b]
        live := others ++ [{ freq := a.freq + b.freq, index := f.nodes.length }] }

/-- `n` passes of the merge loop. -/
def mergePasses : Nat → Forest → Forest
  | 0, f => f
  | n + 1, f => mergePasses n (mergePass f)

/-- The whole construction (R173, R174). A table of n entries takes n - 1 passes (R176). -/
def buildForest (entries : List FtabEntry) : Forest := mergePasses (entries.length - 1) (seed entries)

/-- `root <- the single element of LIVE` (R174). -/
def rootIndex (f : Forest) : Nat := (f.live.map Key.index).headD 0

/-- The entries `FTAB[i .. i+n-1]` with the frequency check of R171, in index order. -/
def readEntries (s : State) : Nat → Nat → Except Stop (List FtabEntry)
  | _, 0 => .ok []
  | i, n + 1 => do
    let e ← orFault (readFtab s i)
    raiseIf (e.freq.toNat = 0 ∨ e.freq.toNat ≥ Config.freqLimit) .badTable
    let es ← readEntries s (i + 1) n
    .ok (e :: es)

/-- The checks of BUILD, in order (R171), and the table they pass. -/
def checkedTable (s : State) : Except Stop (List FtabEntry) := do
  let n := s.ftCount.toNat
  raiseIf (n = 0) .emptyInput
  raiseIf (n > Config.nsym) .badTable
  let entries ← readEntries s 0 n
  raiseIf (¬ (entries.map FtabEntry.sym).Nodup) .badTable
  .ok entries

/-- The results of BUILD for a table that passed the checks (R183). -/
def installTree (entries : List FtabEntry) (s : State) : State :=
  let f := buildForest entries
  { s with
    node := overwrite s.node f.nodes
    root := BitVec.ofNat 9 (rootIndex f)
    nodeCount := BitVec.ofNat 10 (2 * entries.length - 1)
    treeValid := true
    singleLeaf := entries.length == 1
    ctabValid := false }

/-- The pseudocode of BUILD (R171, R173, R174, R183). -/
def buildBody (s : State) : Except Stop State := do
  let entries ← checkedTable s
  .ok (installTree entries s)

/-- What R285 adds for BUILD: `invalidate_tree()` (R172). -/
def buildFailed (_ : CmdError) (s : State) : State := invalidateTree s

/-- BUILD (R170). -/
def execBuild (s : State) : Host.Outcome State Fault Refusal := finishCommand buildFailed s (buildBody s)

end Sys2Proof.Machine
end

