-- ==== Sys2Proof/Machine/Control.lean ====
section
/-! DEFINITION. The control commands NOP and SOFT_RESET and the outcome ILLEGAL (45_control R260 to R263). -/

namespace Sys2Proof.Machine

/-- NOP (R260): `complete()`. -/
def execNop (s : State) : Host.Outcome State Fault Refusal := finishCommand addNothing s (.ok s)

/-- The pseudocode of SOFT_RESET before `complete()` (R262). The buffers, the tables, PENDING, LAST_OP and ERR stay. -/
def softReset (s : State) : State :=
  invalidateTree
    { s with
      irqEn := false
      inLen := 0
      padIn := 0
      outLen := 0
      padOut := 0
      ibufPtr := 0
      obufPtr := 0
      ftCount := 0
      ftIndex := 0
      ctSym := 0
      ctWordsel := 0
      nodeSel := 0
      dropped := false }

/-- SOFT_RESET (R261). -/
def execSoftReset (s : State) : Host.Outcome State Fault Refusal := finishCommand addNothing s (.ok (softReset s))

/-- ILLEGAL (45_control R263): the outcome of a word that names no command. -/
def execIllegal (s : State) : Host.Outcome State Fault Refusal :=
  finishCommand addNothing s (.error (.cmdError .illegalCmd))

end Sys2Proof.Machine
end

