-- ==== Sys2Proof/Machine/Count.lean ====
section
/-! DEFINITION. The frequency counter: COUNT (40_frequency_counter R150 to R156). -/

namespace Sys2Proof.Machine

/-- The entry of symbol `s` for the input `bytes`, if it occurs: its count is its number of occurrences (R150, R152). -/
def countEntry (bytes : List Byte) (s : Nat) : Option FtabEntry :=
  let sym : Byte := BitVec.ofNat 8 s
  let cnt := bytes.count sym
  if cnt > 0 then some { sym := sym, freq := BitVec.ofNat 32 cnt } else none

/-- The entries COUNT writes: the symbols that occur, in ascending order (R152, R154). -/
def countEntries (bytes : List Byte) : List FtabEntry := (List.range Config.nsym).filterMap (countEntry bytes)

/-- The whole FTAB after COUNT: the entries, then (0, 0) up to index 255 (R152). -/
def countTable (bytes : List Byte) : Vector (Option FtabEntry) 256 :=
  overwrite (Vector.replicate 256 (some { sym := 0, freq := 0 })) ((countEntries bytes).map some)

/-- The pseudocode of COUNT (R151, R152). -/
def countBody (s : State) : Except Stop State := do
  checkInLen s
  let bytes ← orFault (readIbufBytes s 0 s.inLen.toNat)
  .ok (invalidateTree
    { s with
      ftab := countTable bytes
      ftCount := BitVec.ofNat 9 (countEntries bytes).length
      ftIndex := 0 })

/-- COUNT (R150). Without a counter it executes as ILLEGAL (30_encoding R126). -/
def execCount (s : State) : Host.Outcome State Fault Refusal :=
  if s.params.hasCounter then finishCommand addNothing s (countBody s) else execIllegal s

end Sys2Proof.Machine
end

