-- ==== Sys2Proof/Machine/DecodeStream.lean ====
section
/-! DEFINITION. The tree decoder: the command DECODE (44_decoder R230 to R244). -/

namespace Sys2Proof.Machine

/-- The working state of DECODE (R233): the cursor, the number `k` of bytes emitted, and those bytes, last one first. -/
structure Walk where
  cursor : BitVec 9
  count : Nat
  emitted : List Byte
  deriving DecidableEq, Repr

/-- `emit(s)` (R237). -/
def emit (s : State) (sym : Byte) (w : Walk) : Except Stop Walk := do
  raiseIf (w.count = s.params.obufSize) .outOverflow
  .ok { w with count := w.count + 1, emitted := sym :: w.emitted }

/-- `step(bit)` when the tree has more than one leaf (R235). -/
def stepMulti (s : State) (w : Walk) (bit : Bool) : Except Stop Walk := do
  let n ← orFault (readNode s w.cursor)
  raiseIf (n.leaf = true) .descendPastLeaf
  let cursor := if bit then n.right else n.left
  let m ← orFault (readNode s cursor)
  if m.leaf then emit s m.sym { w with cursor := s.root } else .ok { w with cursor := cursor }

/-- `step(bit)` when the tree is a single leaf (R236). -/
def stepSingle (s : State) (w : Walk) : Except Stop Walk := do
  let n ← orFault (readNode s s.root)
  emit s n.sym w

/-- `step(bit)` (R235, R236). -/
def stepBit (s : State) (w : Walk) (bit : Bool) : Except Stop Walk :=
  if s.singleLeaf then stepSingle s w else stepMulti s w bit

/-- The data bits of a byte: all 8, or the first `8 - p` of the last byte (R234). -/
def dataBits (last : Bool) (p : Nat) (b : Byte) : BitString := (byteBits b).take (if last then 8 - p else 8)

/-- The walk over the `n` bytes of IBUF from address `i` on, the last of which is the last of the input (R234). -/
def walkBytes (s : State) (p : Nat) : Nat → Nat → Walk → Except Stop Walk
  | _, 0, w => .ok w
  | i, n + 1, w => do
    let b ← orFault (readIbuf s i)
    let w' ← (dataBits (n == 0) p b).foldlM (stepBit s) w
    walkBytes s p (i + 1) n w'

/-- The checks of DECODE, in order (R231, R232). -/
def decodeChecks (s : State) : Except Stop Unit := do
  raiseIf (s.treeValid = false) .noTree
  raiseIf (s.padIn.toNat > 7) .badPadding
  checkInLen s
  raiseIf (s.inLen.toNat = 0 ∧ s.singleLeaf = false) .emptyStream

/-- The start of the walk (R233). -/
def startWalk (s : State) : Walk := { cursor := s.root, count := 0, emitted := [] }

/-- The pseudocode of DECODE (R231 to R238). -/
def decodeBody (s : State) : Except Stop State := do
  decodeChecks s
  let w ← walkBytes s s.padIn.toNat 0 s.inLen.toNat (startWalk s)
  raiseIf (s.singleLeaf = false ∧ w.cursor ≠ s.root) .truncatedCode
  .ok { s with obuf := s.obuf.writeBytes 0 w.emitted.reverse, outLen := BitVec.ofNat 32 w.count }

/-- What R285 adds for DECODE: `OUT_LEN <- 0`, and after an error raised during the walk every byte of OBUF is a fresh
draw that counts as written (U4). -/
def decodeFailed (c : CmdError) (s : State) : State :=
  if c.duringWalk then
    { s with outLen := 0, obuf := Memory.drawn s.draws 0 s.params.obufSize, draws := s.draws + 1 }
  else { s with outLen := 0 }

/-- DECODE (R230). -/
def execDecode (s : State) : Host.Outcome State Fault Refusal := finishCommand decodeFailed s (decodeBody s)

end Sys2Proof.Machine
end

