-- ==== Sys2Proof/Machine/GenCodes.lean ====
section
/-! DEFINITION. The code table generator: GENCODES (42_code_table R190 to R200). -/

namespace Sys2Proof.Machine

/-- `visit(k, p)` (R192): the code assignments below node `k`, whose path is `p`, left subtree first. `depth` is how much
longer a path may get before it exceeds `MAX_CODE_LEN` (00_scope R8). -/
def visit (s : State) : Nat → BitVec 9 → BitString → Except Stop (List (Byte × BitString))
  | depth, k, p => do
    let n ← orFault (readNode s k)
    if n.leaf then .ok [(n.sym, p)]
    else match depth with
      | 0 => .error (.fault .arenaCorrupt)
      | d + 1 => do
        let l ← visit s d n.left (p ++ [false])
        let r ← visit s d n.right (p ++ [true])
        .ok (l ++ r)

/-- The code assignments of the current tree (R192, R194): a root that is a leaf gets the code "0". -/
def codeAssignments (s : State) : Except Stop (List (Byte × BitString)) := do
  let n ← orFault (readNode s s.root)
  if n.leaf then .ok [(n.sym, [false])] else visit s Config.maxCodeLen s.root []

/-- CTAB after the assignments, made in order on a table with no codes (R192). -/
def codeTable (assignments : List (Byte × BitString)) : Vector CodeEntry 256 :=
  assignments.foldl (fun t a => ctabSet t a.1 (CodeEntry.ofBits a.2)) (Vector.replicate 256 CodeEntry.empty)

/-- The pseudocode of GENCODES (R191, R192, R195). -/
def genCodesBody (s : State) : Except Stop State := do
  raiseIf (s.treeValid = false) .noTree
  let assignments ← codeAssignments s
  .ok { s with ctab := codeTable assignments, ctabValid := true }

/-- GENCODES (R190). -/
def execGenCodes (s : State) : Host.Outcome State Fault Refusal := finishCommand addNothing s (genCodesBody s)

end Sys2Proof.Machine
end

