-- ==== Sys2Proof/Machine/Pack.lean ====
section
/-! DEFINITION. The bit packer: PACK (43_packer R210 to R220). -/

namespace Sys2Proof.Machine

/-- The codes of the `n` input bytes from address `a` on, in order; the first byte without a code raises
UNCODED_SYMBOL (R212, R213). -/
def inputCodes (s : State) : Nat → Nat → Except Stop (List BitString)
  | _, 0 => .ok []
  | a, n + 1 => do
    let b ← orFault (readIbuf s a)
    raiseIf ((ctabAt s.ctab b).len = 0) .uncodedSymbol
    let cs ← inputCodes s (a + 1) n
    .ok ((ctabAt s.ctab b).bits :: cs)

/-- The padding-bit count of a sequence of `n` bits (R214, R215). -/
def padCount (n : Nat) : Nat := (8 - n % 8) % 8

/-- The sequence padded at its end with zero bits to whole bytes (R214). -/
def padded (bits : BitString) : BitString := bits ++ List.replicate (padCount bits.length) false

/-- The packed bytes of a bit sequence (R214). -/
def packedBytes (bits : BitString) : List Byte := packBytes ((padded bits).length / 8) (padded bits)

/-- The pseudocode of PACK (R211 to R217). -/
def packBody (s : State) : Except Stop State := do
  raiseIf (s.ctabValid = false) .noCodes
  checkInLen s
  let codes ← inputCodes s 0 s.inLen.toNat
  let bytes := packedBytes codes.flatten
  raiseIf (bytes.length > s.params.obufSize) .outOverflow
  .ok { s with
    obuf := s.obuf.writeBytes 0 bytes
    outLen := BitVec.ofNat 32 bytes.length
    padOut := BitVec.ofNat 3 (padCount codes.flatten.length) }

/-- What R285 adds for PACK: `OUT_LEN <- 0 ; PAD_OUT <- 0`. -/
def packFailed (_ : CmdError) (s : State) : State := { s with outLen := 0, padOut := 0 }

/-- PACK (R210). -/
def execPack (s : State) : Host.Outcome State Fault Refusal := finishCommand packFailed s (packBody s)

end Sys2Proof.Machine
end

