-- ==== Sys2Proof/Machine/Dispatch.lean ====
section
/-! DEFINITION. One arm per command. -/

namespace Sys2Proof.Machine

def exec (i : Instr) (s : State) : Host.Outcome State Fault Refusal :=
  match i with
  | .nop => Sys2Proof.Machine.execNop s
  | .count => Sys2Proof.Machine.execCount s
  | .build => Sys2Proof.Machine.execBuild s
  | .genCodes => Sys2Proof.Machine.execGenCodes s
  | .pack => Sys2Proof.Machine.execPack s
  | .decode => Sys2Proof.Machine.execDecode s
  | .softReset => Sys2Proof.Machine.execSoftReset s

end Sys2Proof.Machine
end

