-- ==== Sys2Proof/Machine/Engine.lean ====
section
/-! DEFINITION. The engine step (20_memory R90). -/

namespace Sys2Proof.Machine

/-- The engine executes the command in PENDING by the rule for its opcode; a word that names no command executes as
ILLEGAL (30_encoding R125). -/
def engineStep (s : State) : Host.Outcome State Fault Refusal :=
  match decode s.params (fetchCommand s) with
  | .ok i => exec i s
  | .error _ => execIllegal s

end Sys2Proof.Machine
end

