-- ==== Sys2Proof/Machine/Registers.lean ====
section
/-! DEFINITION. The register window (10_state R22 to R56): the map of offsets, and what a read or a write of each register
does while the engine is idle (20_memory R86 to R88). -/

namespace Sys2Proof.Machine

/-- The mapped registers (10_state R22). -/
inductive Reg where
  | id
  | cap
  | ibufSize
  | obufSize
  | ctrl
  | cmd
  | status
  | err
  | clear
  | inLen
  | padIn
  | outLen
  | padOut
  | ibufPtr
  | ibufData
  | obufPtr
  | obufData
  | ftCount
  | ftIndex
  | ftSym
  | ftFreq
  | ctSym
  | ctLen
  | ctWordsel
  | ctBits
  | root
  | nodeCount
  | nodeSel
  | nodeInfo
  | nodeFreqLo
  | nodeFreqHi
  deriving DecidableEq, Repr

/-- `offset(REG)` (10_state R22). -/
def Reg.offset : Reg → BitVec 12
  | .id => 0x000
  | .cap => 0x004
  | .ibufSize => 0x008
  | .obufSize => 0x00C
  | .ctrl => 0x010
  | .cmd => 0x014
  | .status => 0x018
  | .err => 0x01C
  | .clear => 0x020
  | .inLen => 0x024
  | .padIn => 0x028
  | .outLen => 0x02C
  | .padOut => 0x030
  | .ibufPtr => 0x034
  | .ibufData => 0x038
  | .obufPtr => 0x03C
  | .obufData => 0x040
  | .ftCount => 0x044
  | .ftIndex => 0x048
  | .ftSym => 0x04C
  | .ftFreq => 0x050
  | .ctSym => 0x054
  | .ctLen => 0x058
  | .ctWordsel => 0x05C
  | .ctBits => 0x060
  | .root => 0x064
  | .nodeCount => 0x068
  | .nodeSel => 0x06C
  | .nodeInfo => 0x070
  | .nodeFreqLo => 0x074
  | .nodeFreqHi => 0x078

/-- The mapped registers in order of offset. -/
def allRegs : List Reg :=
  [.id, .cap, .ibufSize, .obufSize, .ctrl, .cmd, .status, .err, .clear, .inLen, .padIn, .outLen, .padOut, .ibufPtr,
    .ibufData, .obufPtr, .obufData, .ftCount, .ftIndex, .ftSym, .ftFreq, .ctSym, .ctLen, .ctWordsel, .ctBits, .root,
    .nodeCount, .nodeSel, .nodeInfo, .nodeFreqLo, .nodeFreqHi]

/-- The register at a byte offset; `none` is an offset that is unmapped or no multiple of 4 (10_state R22, 20_memory R86). -/
def regAt (offset : BitVec 12) : Option Reg := allRegs.find? fun r => r.offset == offset

/-- The host's address of an offset of the window, which lies at WINDOW_BASE (20_memory R97). -/
def windowAddress (p : Params) (offset : BitVec 12) : Nat := p.windowBase + offset.toNat

/-- The offset a host address reaches: the window is the 4096 bytes from WINDOW_BASE on (10_state R22, 20_memory R97).
`none` is an address outside the block. -/
def windowOffset (p : Params) (address : Nat) : Option (BitVec 12) :=
  if p.windowBase ≤ address ∧ address < p.windowBase + 4096 then some (BitVec.ofNat 12 (address - p.windowBase)) else none

/-- A 32-bit access at this offset is admitted: a multiple of 4 (20_memory R83). -/
def aligned (offset : BitVec 12) : Bool := offset.extractLsb' 0 2 == 0

/-- The registers whose read returns a value while BUSY = 1 (20_memory R91). -/
def Reg.readableWhileBusy : Reg → Bool
  | .id | .cap | .ibufSize | .obufSize | .ctrl | .status | .err | .cmd | .clear => true
  | .inLen | .padIn | .outLen | .padOut | .ibufPtr | .ibufData | .obufPtr | .obufData | .ftCount | .ftIndex | .ftSym
  | .ftFreq | .ctSym | .ctLen | .ctWordsel | .ctBits | .root | .nodeCount | .nodeSel | .nodeInfo | .nodeFreqLo
  | .nodeFreqHi => false

/-! ### Read-back values -/

/-- CT_LEN (10_state R49). -/
def ctLenWord (s : State) : Word := if s.ctabValid then (ctabAt s.ctab s.ctSym).len.setWidth 32 else 0

/-- Bit `31 - j` of CT_BITS is code bit `32 * CT_WORDSEL + j`, where the code has one (10_state R51). -/
def ctBitsWord (s : State) : Word :=
  let e := ctabAt s.ctab s.ctSym
  BitVec.ofNat 32 (bitsValue ((List.range 32).map fun j =>
    let i := 32 * s.ctWordsel.toNat + j
    s.ctabValid && decide (i < e.len.toNat) && e.code.getLsbD i))

/-- The node the NODE_* registers read, if it is one of the current tree (10_state R55, R56). -/
def selectedNode (s : State) : Except Fault (Option Node) :=
  if s.treeValid && decide (s.nodeSel.toNat < s.nodeCount.toNat) then (readNode s s.nodeSel).map some else .ok none

/-- NODE_INFO of a node (10_state R55). -/
def nodeInfoWord : Option Node → Word
  | none => 0
  | some n =>
    flagAt true 31 ||| flagAt n.leaf 30 |||
      (if n.leaf then n.sym.setWidth 32 else n.left.setWidth 32 ||| (n.right.setWidth 32 <<< 9))

/-- NODE_FREQ_LO of a node (10_state R56). -/
def nodeFreqLoWord : Option Node → Word
  | none => 0
  | some n => n.freq.extractLsb' 0 32

/-- NODE_FREQ_HI of a node (10_state R56). -/
def nodeFreqHiWord : Option Node → Word
  | none => 0
  | some n => (n.freq.extractLsb' 32 8).setWidth 32

/-! ### Reads -/

/-- The value a read of IBUF_DATA returns: 0 beyond the buffer (10_state R36). -/
def ibufDataValue (s : State) : Except Fault Word :=
  if s.ibufPtr.toNat < s.params.ibufSize then (readIbuf s s.ibufPtr.toNat).map (BitVec.setWidth 32) else .ok 0

/-- A read of IBUF_DATA (10_state R36). -/
def readIbufData (s : State) : Except Fault (Word × State) :=
  (ibufDataValue s).map fun v => (v, { s with ibufPtr := s.ibufPtr + 1 })

/-- `MemRead(OBUF, a, 1)` for the host (10_state R38). -/
def readObuf (s : State) (a : Nat) : Except Fault Byte :=
  match s.obuf.read a with
  | some b => .ok b
  | none => .error (.unwrittenObuf a)

/-- The value a read of OBUF_DATA returns: 0 beyond the buffer (10_state R38). -/
def obufDataValue (s : State) : Except Fault Word :=
  if s.obufPtr.toNat < s.params.obufSize then (readObuf s s.obufPtr.toNat).map (BitVec.setWidth 32) else .ok 0

/-- A read of OBUF_DATA (10_state R38). -/
def readObufData (s : State) : Except Fault (Word × State) :=
  (obufDataValue s).map fun v => (v, { s with obufPtr := s.obufPtr + 1 })

/-- A read of FT_FREQ (10_state R42). -/
def readFtFreq (s : State) : Except Fault (Word × State) :=
  (readFtab s s.ftIndex.toNat).map fun e => (e.freq, { s with ftIndex := s.ftIndex + 1 })

/-- A host read of a mapped register while BUSY = 0: the value and the state after it. WO registers read 0 (20_memory R87). -/
def readReg (r : Reg) (s : State) : Except Fault (Word × State) :=
  match r with
  | .id => .ok (Config.idValue, s)
  | .cap => .ok (capWord s.params, s)
  | .ibufSize => .ok (BitVec.ofNat 32 s.params.ibufSize, s)
  | .obufSize => .ok (BitVec.ofNat 32 s.params.obufSize, s)
  | .ctrl => .ok (ctrlWord s, s)
  | .cmd => .ok (0, s)
  | .status => .ok (statusWord s, s)
  | .err => .ok (errWord s, s)
  | .clear => .ok (0, s)
  | .inLen => .ok (s.inLen, s)
  | .padIn => .ok (s.padIn, s)
  | .outLen => .ok (s.outLen, s)
  | .padOut => .ok (s.padOut.setWidth 32, s)
  | .ibufPtr => .ok (s.ibufPtr, s)
  | .ibufData => readIbufData s
  | .obufPtr => .ok (s.obufPtr, s)
  | .obufData => readObufData s
  | .ftCount => .ok (s.ftCount.setWidth 32, s)
  | .ftIndex => .ok (s.ftIndex.setWidth 32, s)
  | .ftSym => (readFtab s s.ftIndex.toNat).map fun e => (e.sym.setWidth 32, s)
  | .ftFreq => readFtFreq s
  | .ctSym => .ok (s.ctSym.setWidth 32, s)
  | .ctLen => .ok (ctLenWord s, s)
  | .ctWordsel => .ok (s.ctWordsel.setWidth 32, s)
  | .ctBits => .ok (ctBitsWord s, s)
  | .root => .ok (s.root.setWidth 32, s)
  | .nodeCount => .ok (s.nodeCount.setWidth 32, s)
  | .nodeSel => .ok (s.nodeSel.setWidth 32, s)
  | .nodeInfo => (selectedNode s).map fun n => (nodeInfoWord n, s)
  | .nodeFreqLo => (selectedNode s).map fun n => (nodeFreqLoWord n, s)
  | .nodeFreqHi => (selectedNode s).map fun n => (nodeFreqHiWord n, s)

/-! ### Writes -/

/-- A write of IBUF_DATA (10_state R36): a write beyond the buffer is dropped, and the pointer still advances. -/
def writeIbufData (w : Word) (s : State) : State :=
  { s with
    ibuf := if s.ibufPtr.toNat < s.params.ibufSize then s.ibuf.write s.ibufPtr.toNat (w.extractLsb' 0 8) else s.ibuf
    ibufPtr := s.ibufPtr + 1 }

/-- Store an entry at FT_INDEX. -/
def ftabSet (e : FtabEntry) (s : State) : State := { s with ftab := s.ftab.set s.ftIndex.toNat (some e) s.ftIndex.isLt }

/-- A write of FT_SYM (10_state R41). The first write of an entry since reset makes the entry written (U1); its frequency
then holds what the RAM held, a free word (log 2). -/
def writeFtSym (w : Word) (s : State) : State :=
  invalidateTree <|
    match s.ftab[s.ftIndex.toNat]'s.ftIndex.isLt with
    | some e => ftabSet { e with sym := w.extractLsb' 0 8 } s
    | none => ftabSet { sym := w.extractLsb' 0 8, freq := Config.freeWord s.draws } { s with draws := s.draws + 1 }

/-- A write of FT_FREQ (10_state R42). The first write of an entry since reset makes the entry written (U1); its symbol
then holds what the RAM held, a free byte (log 2). -/
def writeFtFreq (w : Word) (s : State) : State :=
  let t :=
    match s.ftab[s.ftIndex.toNat]'s.ftIndex.isLt with
    | some e => ftabSet { e with freq := w } s
    | none => ftabSet { sym := Config.freeByte s.draws s.ftIndex.toNat, freq := w } { s with draws := s.draws + 1 }
  invalidateTree { t with ftIndex := s.ftIndex + 1 }

/-- A host write of a mapped register while BUSY = 0. Writes of RO registers are ignored, and reserved fields store
nothing (20_memory R87). -/
def writeReg (r : Reg) (w : Word) (s : State) : State :=
  match r with
  | .id => s
  | .cap => s
  | .ibufSize => s
  | .obufSize => s
  | .ctrl => { s with irqEn := w.getLsbD 0 }
  | .cmd => acceptCommand w s
  | .status => s
  | .err => s
  | .clear => clearStatus w s
  | .inLen => { s with inLen := w }
  | .padIn => { s with padIn := w }
  | .outLen => s
  | .padOut => s
  | .ibufPtr => { s with ibufPtr := w }
  | .ibufData => writeIbufData w s
  | .obufPtr => { s with obufPtr := w }
  | .obufData => s
  | .ftCount => invalidateTree { s with ftCount := w.extractLsb' 0 9 }
  | .ftIndex => { s with ftIndex := w.extractLsb' 0 8 }
  | .ftSym => writeFtSym w s
  | .ftFreq => writeFtFreq w s
  | .ctSym => { s with ctSym := w.extractLsb' 0 8 }
  | .ctLen => s
  | .ctWordsel => { s with ctWordsel := w.extractLsb' 0 3 }
  | .ctBits => s
  | .root => s
  | .nodeCount => s
  | .nodeSel => { s with nodeSel := w.extractLsb' 0 9 }
  | .nodeInfo => s
  | .nodeFreqLo => s
  | .nodeFreqHi => s

end Sys2Proof.Machine
end

