-- ==== Sys2Proof/Machine/HostBus.lean ====
section
/-! DEFINITION. The host agent: its accesses, idle and while BUSY (20_memory R83 to R93), the operations it queues
(30_encoding R129 to R131), hardware reset (70_reset_and_hazards R320 to R322), and whose turn it is (20_memory R90). -/

namespace Sys2Proof.Machine

/-- A host read at an admitted offset: the value and the state after it. Unmapped offsets read 0 (R86). While BUSY = 1 a
register outside the list of R91 returns a free draw, and no read has a side effect (U3). -/
def readOffset (offset : BitVec 12) (s : State) : Except Fault (Word × State) :=
  match regAt offset with
  | none => .ok (0, s)
  | some r =>
    if s.busy && !r.readableWhileBusy then .ok (Config.freeWord s.draws, { s with draws := s.draws + 1 })
    else readReg r s

/-- A host write at an admitted offset. A write of a mapped register while BUSY = 1 is dropped and sets DROPPED (R92); a
write of an unmapped offset does nothing (R86). -/
def writeOffset (offset : BitVec 12) (w : Word) (s : State) : State :=
  match regAt offset with
  | none => s
  | some r => if s.busy then { s with dropped := true } else writeReg r w s

/-- Record the value a read returned to the host (70_reset_and_hazards R341). -/
def returnToHost (v : Word) (s : State) : State := { s with hostReads := s.hostReads ++ [v] }

/-- One 32-bit read of the host: the value returned is recorded and handed to `k`, which says what the host then does. A
misaligned read is not admitted (R83). -/
def hostRead (offset : BitVec 12) (k : Word → State → State) (s : State) : Host.Outcome State Fault Refusal :=
  if aligned offset then
    match readOffset offset s with
    | .ok (v, t) => .next (k v (returnToHost v t))
    | .error f => .fault f
  else .refused .accessNotAdmitted

/-- One 32-bit write of the host. A misaligned write is not admitted (R83). -/
def hostWrite (offset : BitVec 12) (w : Word) (s : State) : Host.Outcome State Fault Refusal :=
  if aligned offset then .next (writeOffset offset w s) else .refused .accessNotAdmitted

/-- The host does nothing further with a read's value. -/
def keepGoing (_ : Word) (s : State) : State := s

/-- Put operations at the head of the host's queue. -/
def pushOps (ops : List HostOp) (s : State) : State := { s with hostQueue := ops ++ s.hostQueue }

/-- `wait` (30_encoding R131): read STATUS again while bit [0] of the last result is 1. -/
def pollAgain (v : Word) (s : State) : State := if v.getLsbD 0 then pushOps [.wait] s else s

/-- The accesses of a counted read once the count `m` is known (30_encoding R131, `readout` and `readft`). -/
def countedOps (setup : List BusTxn) (body : List (BitVec 12)) (m : Word) : List HostOp :=
  setup.map HostOp.access ++ (List.replicate m.toNat (body.map fun o => HostOp.access (.read o))).flatten

/-- Hardware reset (R320 to R322): the reset state of the same block. The host's queue and log are the host's own, and the
free draws go on from where they were. -/
def hardwareReset (s : State) : State :=
  { State.resetWith s.params with draws := s.draws, hostQueue := s.hostQueue, hostReads := s.hostReads }

/-- The host performs one operation, already taken off its queue. -/
def hostOp (op : HostOp) (s : State) : Host.Outcome State Fault Refusal :=
  match op with
  | .access (.read offset) => hostRead offset keepGoing s
  | .access (.write offset w) => hostWrite offset w s
  | .wrongWidth _ _ => .refused .accessNotAdmitted
  | .wait => hostRead Reg.status.offset pollAgain s
  | .countedReads count setup body => hostRead count (fun m => pushOps (countedOps setup body m)) s
  | .hardwareReset => .next (hardwareReset s)

/-- Take the first operation off the queue. An access made while BUSY = 1 is one of those let through before the engine
step (R90). -/
def takeOp (rest : List HostOp) (s : State) : State := { s with hostQueue := rest, engineWait := s.engineWait - 1 }

/-- The host's turn. A host with nothing to do leaves the block idle, and all state survives (60_exceptions R305). -/
def hostTurn (s : State) : Host.Outcome State Fault Refusal :=
  match s.hostQueue with
  | [] => .next s
  | op :: rest => hostOp op (takeOp rest s)

/-- The engine moves next: a command is pending, and the host accesses drawn at acceptance are over, or the host makes no
access any more (R90: the step is taken after finitely many host accesses, weak fairness). -/
def engineTurn (s : State) : Bool := s.busy && (s.engineWait == 0 || s.hostQueue.isEmpty)

end Sys2Proof.Machine
end

