-- ==== Sys2Proof/Machine/Step.lean ====
section
/-! DEFINITION. One step of the machine: the engine's step or one access of the host (20_memory R90, R93). -/

namespace Sys2Proof.Machine

/-- One step: the interleaving of host accesses and engine steps (R93). -/
def step (s : State) : Host.Outcome State Fault Refusal :=
  if engineTurn s then engineStep s else hostTurn s

/-- `s` with the command word `w` accepted and the engine about to execute it: a CMD write of `w` (10_state R26) with no
host access before the engine step. The block fetches nothing (20_memory R95), so this stands for the host's CMD write
(log 9). -/
def State.withFetchWord (s : State) (_nbits w : Nat) : State :=
  { latchCommand (BitVec.ofNat 32 w) s with engineWait := 0 }

end Sys2Proof.Machine
end

