-- ==== Sys2Proof/Machine/Program.lean ====
section
/-! DEFINITION. The host program syntax (30_encoding R129 to R131): a program is the list of operations the host queues. -/

namespace Sys2Proof.Machine

/-- The encoding of a transaction (30_encoding R129): whether it is a write, its offset, and its data, 0 for a read. -/
def BusTxn.encoding : BusTxn → Bool × BitVec 12 × Word
  | .read offset => (false, offset, 0)
  | .write offset w => (true, offset, w)

/-- What a 32-bit access of the host at an address of its own address space asks of the block, by WINDOW_BASE (20_memory
R97): a write of the data, a read where there is none, and nothing when the address lies outside the window. -/
def accessAt (p : Params) (address : Nat) (data : Option Word) : List HostOp :=
  match windowOffset p address, data with
  | none, _ => []
  | some offset, none => [.access (.read offset)]
  | some offset, some w => [.access (.write offset w)]

/-- The assembler statements `wr` and `rd` (30_encoding R130). -/
def wr (r : Reg) (v : Word) : HostOp := .access (.write r.offset v)

@[inherit_doc wr]
def rd (r : Reg) : HostOp := .access (.read r.offset)

/-- `cmd MNEMONIC` (30_encoding R130). -/
def cmdOp (i : Instr) : HostOp := wr .cmd (encode i)

/-- `run MNEMONIC` (30_encoding R131). -/
def runOps (i : Instr) : List HostOp := [cmdOp i, .wait]

/-- The IN_LEN of an input of `m` bytes. A number that does not fit the register is written as the largest that does, which
is above every IBUF_SIZE, so the command raises BAD_LENGTH as for every `m` above IBUF_SIZE (20_memory R104, log 13). -/
def inLenWord (m : Nat) : Word := BitVec.ofNat 32 (min m (2 ^ 32 - 1))

/-- `loadin b_0 .. b_(m-1)` (30_encoding R131). -/
def loadinOps (bytes : List Byte) : List HostOp :=
  wr .ibufPtr 0 :: bytes.map (fun b => wr .ibufData (b.setWidth 32)) ++ [wr .inLen (inLenWord bytes.length)]

/-- `readout -> b` (30_encoding R131). -/
def readoutOps : List HostOp := [wr .obufPtr 0, .countedReads Reg.outLen.offset [] [Reg.obufData.offset]]

/-- `loadft (s_0,f_0) .. (s_(n-1),f_(n-1))` (30_encoding R131). DESIGN CHOICE (log 14): a number of entries that does not fit
the 32 bits of the write is written modulo 2^32. -/
def loadftOps (entries : List FtabEntry) : List HostOp :=
  wr .ftCount (BitVec.ofNat 32 entries.length) :: wr .ftIndex 0 ::
    entries.flatMap fun e => [wr .ftSym (e.sym.setWidth 32), wr .ftFreq e.freq]

/-- `readft -> t` (30_encoding R131). -/
def readftOps : List HostOp :=
  [.countedReads Reg.ftCount.offset [.write Reg.ftIndex.offset 0] [Reg.ftSym.offset, Reg.ftFreq.offset]]

/-- `encode b` (30_encoding R131). -/
def encodeOps (bytes : List Byte) : List HostOp :=
  loadinOps bytes ++ runOps .count ++ runOps .build ++ runOps .genCodes ++ runOps .pack

/-- `decode (t, p, k)` (30_encoding R131). -/
def decodeOps (entries : List FtabEntry) (padding : Word) (packed : List Byte) : List HostOp :=
  loadftOps entries ++ [wr .padIn padding] ++ loadinOps packed ++ runOps .build ++ runOps .decode

end Sys2Proof.Machine
end

