-- ==== Sys2Proof/Machine/Container.lean ====
section
/-! DEFINITION. The container format (20_memory R100 to R108), which the host builds and parses; the block never sees one. -/

namespace Sys2Proof.Machine

/-- The contents of a container (R100): the table entries in table order, the padding field as the 32-bit pattern the
host loads (R102), and the packed bytes. Its `table_size` is the number of entries. -/
structure Container where
  entries : List FtabEntry
  padding : Word
  packed : List Byte
  deriving DecidableEq, Repr

/-- The host-level DecodeErrors of its parser (R104, R105). No block register records them. -/
inductive ContainerError where
  | truncated
  | tableTooLarge
  deriving DecidableEq, Repr

/-- The `n` bytes of a little-endian field (R101): the byte at the lowest offset holds bits [7:0]. -/
def leBytes : Nat → Nat → List Byte
  | 0, _ => []
  | n + 1, v => BitVec.ofNat 8 v :: leBytes n (v / 256)

/-- The number in a little-endian field (R101). -/
def leValue : List Byte → Nat
  | [] => 0
  | b :: bs => b.toNat + 256 * leValue bs

/-- One entry: its symbol byte followed by its frequency (R100). -/
def entryBytes (e : FtabEntry) : List Byte := e.sym :: leBytes Config.freqBytes e.freq.toNat

/-- The bytes of a container (R100, R101). DESIGN CHOICE (log 14): a number of entries that does not fit the 8 bytes of
`table_size` is written modulo 2^64. -/
def Container.serialize (c : Container) : List Byte :=
  leBytes Config.tsBytes c.entries.length ++ c.entries.flatMap entryBytes ++
    leBytes Config.padfBytes c.padding.toNat ++ c.packed

/-- The first `n` entries of the table bytes `bs` (R104). -/
def parseEntries : Nat → List Byte → List FtabEntry
  | 0, _ => []
  | _ + 1, [] => []
  | n + 1, sym :: bs =>
    { sym := sym, freq := BitVec.ofNat 32 (leValue (bs.take Config.freqBytes)) } ::
      parseEntries n (bs.drop Config.freqBytes)

/-- Parsing (R104). -/
def parseContainer (bytes : List Byte) : Except ContainerError Container :=
  if bytes.length < Config.tsBytes then .error .truncated
  else
    let n := leValue (bytes.take Config.tsBytes)
    if n > Config.nsym then .error .tableTooLarge
    else
      let tableEnd := Config.tsBytes + (1 + Config.freqBytes) * n
      if bytes.length < tableEnd + Config.padfBytes then .error .truncated
      else .ok
        { entries := parseEntries n (bytes.drop Config.tsBytes)
          padding := BitVec.ofNat 32 (leValue ((bytes.drop tableEnd).take Config.padfBytes))
          packed := bytes.drop (tableEnd + Config.padfBytes) }

/-- Loading a parsed container into the block (R104). -/
def Container.loadOps (c : Container) : List HostOp :=
  loadftOps c.entries ++ [wr .padIn c.padding] ++ loadinOps c.packed

/-- `FTAB[i .. i+n-1]`. -/
def tableEntries (s : State) : Nat → Nat → Except Fault (List FtabEntry)
  | _, 0 => .ok []
  | i, n + 1 => do
    let e ← readFtab s i
    let es ← tableEntries s (i + 1) n
    .ok (e :: es)

/-- `OBUF[a .. a+n-1]`. -/
def outputBytes (s : State) : Nat → Nat → Except Fault (List Byte)
  | _, 0 => .ok []
  | a, n + 1 => do
    let b ← readObuf s a
    let bs ← outputBytes s (a + 1) n
    .ok (b :: bs)

/-- The accesses by which the host reads what a container holds after a successful PACK (R103): OBUF[0 .. OUT_LEN-1] via
OBUF_PTR and OBUF_DATA, PAD_OUT, then FT_COUNT and the entries via FT_INDEX, FT_SYM and FT_FREQ, in the order of program P1 of
95_test_vectors. -/
def readContainerOps : List HostOp := readoutOps ++ [rd .padOut] ++ readftOps

/-- The entries of the values that FT_SYM and FT_FREQ returned in turn. -/
def entriesOfReads : List Word → List FtabEntry
  | [] => []
  | [_] => []
  | sym :: freq :: values => { sym := sym.extractLsb' 0 8, freq := freq } :: entriesOfReads values

/-- The container the host builds (R103) from the values that the reads of `readContainerOps` returned, in order; `none` where
they are no such values. -/
def containerOfReads : List Word → Option Container
  | [] => none
  | outLen :: values =>
    match values.drop outLen.toNat with
    | padOut :: ftCount :: table =>
      if table.length = 2 * ftCount.toNat then
        some
          { entries := entriesOfReads table
            padding := (padOut.extractLsb' 0 3).setWidth 32
            packed := (values.take outLen.toNat).map fun v => v.extractLsb' 0 8 }
      else none
    | _ => none

/-- The fields of R103 as the block holds them: what the container built by the reads of `readContainerOps` is. -/
def containerOf (s : State) : Except Fault Container := do
  let entries ← tableEntries s 0 s.ftCount.toNat
  let packed ← outputBytes s 0 s.outLen.toNat
  .ok { entries := entries, padding := s.padOut.setWidth 32, packed := packed }

end Sys2Proof.Machine
end

