-- ==== Sys2Proof/Safety.lean ====
section
/-! DEFINITION. The terms the claims use: the invariant of the machine, the tree a host can read back, the order of
construction BUILD follows, and what a safe run is. -/

namespace Sys2Proof.Machine

/-! ### The invariant -/

/-- The arena, ROOT, NODE_COUNT and SINGLE_LEAF are what BUILD makes of `entries`, and FTAB holds that table now and it
passes the checks (10_state R43, 41_tree_builder R180, R183). -/
structure TreeOf (s : State) (entries : List FtabEntry) : Prop where
  table : checkedTable s = .ok entries
  nodes : overwrite s.node (buildForest entries).nodes = s.node
  root : s.root = BitVec.ofNat 9 (rootIndex (buildForest entries))
  nodeCount : s.nodeCount = BitVec.ofNat 10 (2 * entries.length - 1)
  singleLeaf : s.singleLeaf = (entries.length == 1)

/-- STATUS.TREE_VALID = 1 says that the tree is the one of the table FTAB holds. -/
def TreeCoherent (s : State) : Prop := ∃ entries, TreeOf s entries

/-- STATUS.CTAB_VALID = 1 says that CTAB holds the codes of the current tree (42_code_table R192, R195). -/
def CodesCoherent (s : State) : Prop := ∃ a, codeAssignments s = .ok a ∧ s.ctab = codeTable a

/-- The invariant every step keeps. -/
structure Inv (s : State) : Prop where
  /-- The parameters are legal (00_scope R7). -/
  params : s.params.Legal
  /-- IBUF is in canonical form, and only addresses below IBUF_SIZE exist (20_memory R80). -/
  ibuf : s.ibuf.wf ∧ s.ibuf.within s.params.ibufSize
  /-- OBUF is in canonical form, and only addresses below OBUF_SIZE exist (20_memory R80). -/
  obuf : s.obuf.wf ∧ s.obuf.within s.params.obufSize
  /-- While a command is pending, DONE and ERR are clear and LAST_OP is its opcode byte (10_state R26, R28). -/
  accepted : s.busy = true → s.done = false ∧ s.errCode = none ∧ s.lastOp = opcodeOf s.pending
  /-- ERR_OP is 0 when ERR_CODE = 0 (10_state R29). -/
  errOp : s.errCode = none → s.errOp = 0
  /-- Without a tree there are no codes, no SINGLE_LEAF, and ROOT and NODE_COUNT read 0 (10_state R47). -/
  noTree : s.treeValid = false → s.ctabValid = false ∧ s.singleLeaf = false ∧ s.root = 0 ∧ s.nodeCount = 0
  /-- The tree is the table's. -/
  tree : s.treeValid = true → TreeCoherent s
  /-- The codes are the tree's. -/
  codes : s.ctabValid = true → CodesCoherent s

/-! ### The tree -/

/-- The contents of arena entry `k` (indices 0 to 510 exist, 10_state R45). -/
def nodeAt (s : State) (k : Nat) : Node := s.node[k]?.getD Node.zero

/-- The entries of FTAB in use: entry `i` of the table, for `i` below FT_COUNT, was written and is `entries[i]` (10_state R44). -/
def HoldsTable (s : State) (entries : List FtabEntry) : Prop :=
  s.ftCount.toNat = entries.length ∧ ∀ i (h : i < entries.length), s.ftab[i]?.join = some entries[i]

/-- A table BUILD accepts (41_tree_builder R171): 1 to 256 entries, frequencies 1 to 2^31 - 1, no symbol twice. -/
def GoodTable (entries : List FtabEntry) : Prop :=
  1 ≤ entries.length ∧ entries.length ≤ 256 ∧ (∀ e ∈ entries, 1 ≤ e.freq.toNat ∧ e.freq.toNat < 2 ^ 31) ∧
    (entries.map FtabEntry.sym).Nodup

/-- Node `j` is in LIVE when internal node `k` of a tree over `n` leaves is made (R173, R174): it was made before, and no
earlier pass removed it. -/
def LiveAt (nodes : Nat → Node) (n k j : Nat) : Prop :=
  j < k ∧ ∀ i, n ≤ i → i < k → (nodes i).left.toNat ≠ j ∧ (nodes i).right.toNat ≠ j

/-- `key(i) < key(j)`: (frequency, arena index), compared lexicographically (R175). -/
def KeyBefore (nodes : Nat → Node) (i j : Nat) : Prop :=
  (nodes i).freq.toNat < (nodes j).freq.toNat ∨ ((nodes i).freq.toNat = (nodes j).freq.toNat ∧ i < j)

/-- The arena of the table (R173 to R175): the leaves in table order, then each internal node over the two members of LIVE
with the lowest keys, the lowest on the left, with the sum of their frequencies (exact, R178). -/
structure HuffmanArena (nodes : Nat → Node) (entries : List FtabEntry) : Prop where
  /-- Seeding (R173). -/
  leaves : ∀ i (h : i < entries.length),
    (nodes i).leaf = true ∧ (nodes i).sym = entries[i].sym ∧ (nodes i).freq.toNat = entries[i].freq.toNat ∧
      (nodes i).left = 0 ∧ (nodes i).right = 0
  /-- Internal nodes carry no symbol, and their frequency is the sum of their children's (R174, R178). -/
  sums : ∀ k, entries.length ≤ k → k < 2 * entries.length - 1 →
    (nodes k).leaf = false ∧ (nodes k).sym = 0 ∧
      (nodes k).freq.toNat = (nodes (nodes k).left.toNat).freq.toNat + (nodes (nodes k).right.toNat).freq.toNat
  /-- The first removed is the argmin of LIVE (R174). -/
  first : ∀ k, entries.length ≤ k → k < 2 * entries.length - 1 →
    LiveAt nodes entries.length k (nodes k).left.toNat ∧
      ∀ j, LiveAt nodes entries.length k j → j ≠ (nodes k).left.toNat → KeyBefore nodes (nodes k).left.toNat j
  /-- The second removed is the argmin of what remains (R174). -/
  second : ∀ k, entries.length ≤ k → k < 2 * entries.length - 1 →
    LiveAt nodes entries.length k (nodes k).right.toNat ∧ (nodes k).right ≠ (nodes k).left ∧
      ∀ j, LiveAt nodes entries.length k j → j ≠ (nodes k).left.toNat → j ≠ (nodes k).right.toNat →
        KeyBefore nodes (nodes k).right.toNat j

/-- The child of an internal node on a bit: left on a 0, right on a 1 (44_decoder R235). -/
def childOn (n : Node) (bit : Bool) : BitVec 9 := if bit then n.right else n.left

/-- The symbol of the leaf at which the path `p` from node `k` ends, if it ends at a leaf and meets none before
(42_code_table R192, R196 (c)). -/
def leafAlong (s : State) : BitVec 9 → BitString → Option Byte
  | k, [] => s.node[k.toNat]?.bind fun n => if n.leaf then some n.sym else none
  | k, b :: p => s.node[k.toNat]?.bind fun n => if n.leaf then none else leafAlong s (childOn n b) p

/-- The node at which the path `p` from node `k` ends, if every node on it, the last one too, is internal. -/
def internalAlong (s : State) : BitVec 9 → BitString → Option (BitVec 9)
  | k, [] => s.node[k.toNat]?.bind fun n => if n.leaf then none else some k
  | k, b :: p => s.node[k.toNat]?.bind fun n => if n.leaf then none else internalAlong s (childOn n b) p

/-! ### Buffers and codes -/

/-- IBUF holds the bytes `bytes` from address 0 on, all written, and IN_LEN is their number (20_memory R81). -/
def HoldsInput (s : State) (bytes : List Byte) : Prop :=
  s.inLen.toNat = bytes.length ∧ ∀ a (h : a < bytes.length), s.ibuf.read a = some bytes[a]

/-- The code of symbol `b` in CTAB (10_state R46). -/
def codeOf (s : State) (b : Byte) : BitString := (ctabAt s.ctab b).bits

/-- The data bits of the packed input `bytes` with `p` pad bits (44_decoder R234): all bits in stream order but the last `p`. -/
def streamBits (p : Nat) (bytes : List Byte) : BitString :=
  (bytes.flatMap byteBits).take (8 * bytes.length - p)

/-- A stale tree and code table, as 10_state R47 writes it. -/
def staleTree (s : State) : State :=
  { s with treeValid := false, ctabValid := false, singleLeaf := false, root := 0, nodeCount := 0 }

/-- The state R285 gives every failed command, before what it adds for BUILD, PACK and DECODE. -/
def failedWith (c : CmdError) (s : State) : State :=
  { s with errCode := some c, errOp := s.pending.extractLsb' 0 8, busy := false, done := true }

/-- The host moves next: nothing is pending, or host accesses are left before the engine step (20_memory R90). -/
def HostMoves (s : State) : Prop := s.busy = false ∨ s.engineWait ≠ 0

/-- The engine moves next (20_memory R90). -/
def EngineMoves (s : State) : Prop := s.busy = true ∧ (s.engineWait = 0 ∨ s.hostQueue = [])

/-- `s` after the host made the first access of its queue, before what that access does. -/
def afterAccess (rest : List HostOp) (s : State) : State :=
  { s with hostQueue := rest, engineWait := s.engineWait - 1 }

/-- The fields of a register that are not reserved (10_state R23 to R56): reserved bits read 0 and store nothing
(20_memory R87). For CLEAR and IBUF_DATA these are the bits a write looks at. -/
def fieldMask : Reg → Word
  | .cap => 0xFFFFFF01
  | .ctrl => 0x00000001
  | .cmd => 0x000000FF
  | .status => 0x0000FF7F
  | .err => 0x0000FFFF
  | .clear => 0x00000007
  | .padOut => 0x00000007
  | .ibufData => 0x000000FF
  | .obufData => 0x000000FF
  | .ftCount => 0x000001FF
  | .ftIndex => 0x000000FF
  | .ftSym => 0x000000FF
  | .ctSym => 0x000000FF
  | .ctLen => 0x000000FF
  | .ctWordsel => 0x00000007
  | .root => 0x000001FF
  | .nodeCount => 0x000003FF
  | .nodeSel => 0x000001FF
  | .nodeInfo => 0xC003FFFF
  | .nodeFreqHi => 0x000000FF
  | .id | .ibufSize | .obufSize | .inLen | .padIn | .outLen | .ibufPtr | .obufPtr | .ftFreq | .ctBits | .nodeFreqLo =>
    0xFFFFFFFF

/-- The read-only registers (10_state R22). -/
def readOnly : Reg → Bool
  | .id | .cap | .ibufSize | .obufSize | .status | .err | .outLen | .padOut | .obufData | .ctLen | .ctBits | .root
  | .nodeCount | .nodeInfo | .nodeFreqLo | .nodeFreqHi => true
  | .ctrl | .cmd | .clear | .inLen | .padIn | .ibufPtr | .ibufData | .obufPtr | .ftCount | .ftIndex | .ftSym | .ftFreq
  | .ctSym | .ctWordsel | .nodeSel => false

/-! ### Safe runs -/

/-- A run from `s` is safe when no number of steps ends in a fault. Refused accesses end a run without a fault. -/
def SafeRun (s : State) : Prop := ∀ k f, core.run k s ≠ .fault f

end Sys2Proof.Machine
end

