-- ==== Sys2Proof/Certificates/Slice0/Obligations.lean ====
section
/-! DEFINITION. The statements about this machine. Each docstring names the rules of spec/ it formalises. -/

open Sys2Proof Sys2Proof.Machine

/-! ### Encoding (30_encoding) -/

/-- 30_encoding R124, R125: the words of the seven commands, and that a word decodes to a command exactly when it is that
command's word and the command exists on the block; otherwise it is rejected (ILLEGAL), by the reserved field first, then by
the opcode map, then by HAS_COUNTER. -/
def Obligations.DecoderReadsExactlyTheOpcodeMap : Prop :=
  (encode .nop = 0x00000000 ∧ encode .count = 0x00000001 ∧ encode .build = 0x00000002 ∧ encode .genCodes = 0x00000003 ∧
    encode .pack = 0x00000004 ∧ encode .decode = 0x00000005 ∧ encode .softReset = 0x0000000F) ∧
  ∀ (p : Params) (w : Word),
    (∀ i, decode p w = .ok i ↔ (i = .count → p.hasCounter = true) ∧ w = encode i) ∧
    (decode p w = .error .reservedBits ↔ w.extractLsb' 8 24 ≠ 0) ∧
    (decode p w = .error .noCounter ↔ w = 0x00000001 ∧ p.hasCounter = false) ∧
    (decode p w = .error .reservedOpcode ↔ w.extractLsb' 8 24 = 0 ∧
      ((0x06 ≤ (w.extractLsb' 0 8).toNat ∧ (w.extractLsb' 0 8).toNat ≤ 0x0E) ∨ 0x10 ≤ (w.extractLsb' 0 8).toNat))

/-- 30_encoding R124: the words of the opcode table, as the host asks about them. -/
def Obligations.TableWordsDecode : Prop :=
  decodeTableWord 32 0x00000000 = some .nop ∧ decodeTableWord 32 0x00000001 = some .count ∧
  decodeTableWord 32 0x00000002 = some .build ∧ decodeTableWord 32 0x00000003 = some .genCodes ∧
  decodeTableWord 32 0x00000004 = some .pack ∧ decodeTableWord 32 0x00000005 = some .decode ∧
  decodeTableWord 32 0x0000000F = some .softReset ∧ decodeTableWord 32 0x00000107 = none

/-! ### The engine step (20_memory R90) -/

/-- 20_memory R90, 30_encoding R125: when the engine moves and PENDING is the word of a command that exists on the block,
the step is that command's, with nothing added around it. -/
def Obligations.StepRunsTheDecodedCommand : Prop :=
  ∀ (s : State) (i : Instr), EngineMoves s → decode s.params s.pending = .ok i → step s = exec i s

/-- The model's `withFetchWord` (log 9) is the acceptance of a command word (10_state R26) with the engine next, so the next
step runs that command. -/
def Obligations.FetchWordRunsTheCommand : Prop :=
  ∀ (s : State) (i : Instr), i.wf s.params = true →
    s.withFetchWord 32 (encode i).toNat =
      { s with pending := encode i, lastOp := opcodeByte i, done := false, errCode := none, errOp := 0, busy := true,
               engineWait := 0 } ∧
    step (s.withFetchWord 32 (encode i).toNat) = exec i (s.withFetchWord 32 (encode i).toNat)

/-- 45_control R263: every word that names no command ends its step with ILLEGAL_CMD, and nothing else changes. -/
def Obligations.IllegalWordsRaiseIllegalCmd : Prop :=
  ∀ s : State, EngineMoves s →
    (s.pending.extractLsb' 8 24 ≠ 0 ∨
      (0x06 ≤ (s.pending.extractLsb' 0 8).toNat ∧ (s.pending.extractLsb' 0 8).toNat ≤ 0x0E) ∨
      0x10 ≤ (s.pending.extractLsb' 0 8).toNat ∨
      ((s.pending.extractLsb' 0 8).toNat = 0x01 ∧ s.params.hasCounter = false)) →
    step s = .next (failedWith .illegalCmd s)

/-- 60_exceptions R284, R285: every command that ends leaves BUSY = 0 and DONE = 1, keeps ERR or records one error with its
opcode byte, and leaves PENDING, LAST_OP, the parameters and the host's own state alone. DROPPED changes by SOFT_RESET only. -/
def Obligations.EveryCommandEndsItsStep : Prop :=
  ∀ (i : Instr) (s t : State), exec i s = .next t →
    t.busy = false ∧ t.done = true ∧
    ((t.errCode = s.errCode ∧ t.errOp = s.errOp) ∨ ∃ c, t.errCode = some c ∧ t.errOp = s.pending.extractLsb' 0 8) ∧
    t.pending = s.pending ∧ t.lastOp = s.lastOp ∧ t.params = s.params ∧ t.engineWait = s.engineWait ∧
    t.hostQueue = s.hostQueue ∧ t.hostReads = s.hostReads ∧ (i ≠ .softReset → t.dropped = s.dropped)

/-- 20_memory R90, 70_reset_and_hazards R340: a pending command's step comes. After at most as many further steps as host
accesses were drawn (`engineWait`, the model's form of that free number, log 5), plus one, the block is idle, unless the run has stopped by a fault or a refused access. -/
def Obligations.EngineStepComes : Prop :=
  ∀ s : State, s.busy = true →
    ∃ k, k ≤ s.engineWait + 1 ∧
      ((∃ t, core.run k s = .next t ∧ t.busy = false) ∨ (∃ f, core.run k s = .fault f) ∨ ∃ q, core.run k s = .refused q)

/-! ### Reset (70_reset_and_hazards) and the invariant -/

/-- 70_reset_and_hazards R320: every register at its reset value, irq low. That the unspecified contents of IBUF, OBUF and
FTAB are contents nothing has written is the model's reading of 93_implementation_defined U1 (log 1), and that State.reset is
a block with the default sizes and a counter (00_scope R7) is the model's choice (log 12). -/
def Obligations.ResetValues : Prop :=
  (∀ (p : Params) (s : State), s = State.resetWith p →
    readReg .id s = .ok (0x48544231, s) ∧
    (capWord p).getLsbD 0 = p.hasCounter ∧ (capWord p).extractLsb' 1 7 = 0 ∧ (capWord p).extractLsb' 8 8 = 0xFF ∧
    (capWord p).extractLsb' 16 16 = 0x0100 ∧ readReg .cap s = .ok (capWord p, s) ∧
    readReg .ibufSize s = .ok (BitVec.ofNat 32 p.ibufSize, s) ∧
    readReg .obufSize s = .ok (BitVec.ofNat 32 p.obufSize, s) ∧
    readReg .ctrl s = .ok (0, s) ∧ readReg .status s = .ok (0, s) ∧ readReg .err s = .ok (0, s) ∧
    s.inLen = 0 ∧ s.padIn = 0 ∧ s.outLen = 0 ∧ s.padOut = 0 ∧ s.ibufPtr = 0 ∧ s.obufPtr = 0 ∧
    s.ftCount = 0 ∧ s.ftIndex = 0 ∧ s.ctSym = 0 ∧ s.ctWordsel = 0 ∧ s.root = 0 ∧ s.nodeCount = 0 ∧ s.nodeSel = 0 ∧
    s.pending = 0 ∧ (∀ a, s.ibuf.read a = none ∧ s.obuf.read a = none) ∧
    (∀ i (h : i < 256), s.ftab[i] = none) ∧ irq s = false) ∧
  ∃ base, State.reset = State.resetWith { ibufSize := 65536, obufSize := 65536, hasCounter := true, windowBase := base }

/-- 70_reset_and_hazards R322: a hardware reset, whether or not a command is pending, gives the reset state of the same
block. The host's queue and log, and the count of free draws, are the model's own and stay (log 10). -/
def Obligations.HardwareResetAbandonsTheCommand : Prop :=
  ∀ (s : State) (rest : List HostOp), HostMoves s → s.hostQueue = .hardwareReset :: rest →
    step s = .next { State.resetWith s.params with draws := s.draws, hostQueue := rest, hostReads := s.hostReads }

/-- The invariant holds after hardware reset of every legal block. -/
def Obligations.ResetStateIsCoherent : Prop := (∀ p : Params, p.Legal → Inv (State.resetWith p)) ∧ Inv State.reset

/-- Every step keeps the invariant: memories canonical and inside their buffers, an accepted command with DONE and ERR
clear, TREE_VALID = 1 only over the table's own tree, and CTAB_VALID = 1 only over that tree's own codes. -/
def Obligations.EveryStepKeepsTheStateCoherent : Prop :=
  ∀ s t : State, Inv s → step s = .next t → Inv t

/-- 10_state R23 to R25: what the hardwired registers read in every state, and that they read the same after every step. -/
def Obligations.HardwiredRegistersNeverChange : Prop :=
  (∀ s : State, readReg .id s = .ok (0x48544231, s) ∧ readReg .cap s = .ok (capWord s.params, s) ∧
    readReg .ibufSize s = .ok (BitVec.ofNat 32 s.params.ibufSize, s) ∧
    readReg .obufSize s = .ok (BitVec.ofNat 32 s.params.obufSize, s)) ∧
  ∀ s t : State, step s = .next t →
    t.params = s.params ∧
    ∀ r ∈ [Reg.id, Reg.cap, Reg.ibufSize, Reg.obufSize], ∃ v, readReg r s = .ok (v, s) ∧ readReg r t = .ok (v, t)

/-! ### The register window (10_state, 20_memory) -/

/-- 10_state R26: a CMD write while idle is accepted; a CMD write while BUSY = 1 is dropped; a read of CMD returns 0. How many
host accesses fall before the engine step is free (`n`, log 5); the queue and the counts are the model's own (log 4 to 6). -/
def Obligations.CmdWriteIsAccepted : Prop :=
  ∀ (s : State) (w : Word) (rest : List HostOp), s.hostQueue = .access (.write 0x014 w) :: rest →
    (s.busy = false →
      ∃ n d, step s = .next { s with pending := w, lastOp := w.extractLsb' 0 8, done := false, errCode := none, errOp := 0,
                                     busy := true, engineWait := n, draws := d, hostQueue := rest }) ∧
    (s.busy = true → s.engineWait ≠ 0 → step s = .next { afterAccess rest s with dropped := true }) ∧
    readReg .cmd s = .ok (0, s)

/-- 20_memory R92: a write of any mapped register while BUSY = 1 changes nothing of the block but DROPPED (`afterAccess`: the
access leaves the queue and is counted, log 5, log 6). -/
def Obligations.BusyWritesAreDropped : Prop :=
  ∀ (s : State) (r : Reg) (w : Word) (rest : List HostOp), s.busy = true → s.engineWait ≠ 0 →
    s.hostQueue = .access (.write r.offset w) :: rest →
    step s = .next { afterAccess rest s with dropped := true }

/-- 20_memory R91: while BUSY = 1 the status registers return their values (ERR 0), CMD, CLEAR and unmapped offsets 0, and
every other register a free draw (log 4), and no read changes the block. -/
def Obligations.BusyReads : Prop :=
  ∀ (s : State) (o : BitVec 12) (rest : List HostOp), s.busy = true → s.engineWait ≠ 0 → o.toNat % 4 = 0 →
    s.hostQueue = .access (.read o) :: rest →
    (∀ r ∈ [Reg.id, Reg.cap, Reg.ibufSize, Reg.obufSize, Reg.ctrl, Reg.status, Reg.err], o = r.offset →
      ∃ v, readReg r s = .ok (v, s) ∧ (Inv s → r = .err → v = 0) ∧
        step s = .next { afterAccess rest s with hostReads := s.hostReads ++ [v] }) ∧
    (o = Reg.cmd.offset ∨ o = Reg.clear.offset ∨ 0x07C ≤ o.toNat →
      step s = .next { afterAccess rest s with hostReads := s.hostReads ++ [0] }) ∧
    (0x024 ≤ o.toNat → o.toNat ≤ 0x078 →
      ∃ v, step s = .next { afterAccess rest s with hostReads := s.hostReads ++ [v], draws := s.draws + 1 })

/-- 20_memory R86: an unmapped offset reads 0 and ignores writes, which do not set DROPPED even while BUSY = 1. The queue and
the log of reads are the model's own (log 6). -/
def Obligations.UnmappedOffsetsReadZero : Prop :=
  ∀ (s : State) (o : BitVec 12) (w : Word) (rest : List HostOp), HostMoves s → o.toNat % 4 = 0 → 0x07C ≤ o.toNat →
    (s.hostQueue = .access (.read o) :: rest →
      step s = .next { afterAccess rest s with hostReads := s.hostReads ++ [0] }) ∧
    (s.hostQueue = .access (.write o w) :: rest → step s = .next (afterAccess rest s))

/-- 20_memory R83: an access that is not a 32-bit access at a multiple of 4 is refused by name (93_implementation_defined U2,
log 11). -/
def Obligations.NarrowAndMisalignedAccessesAreRefused : Prop :=
  ∀ (s : State) (op : HostOp) (rest : List HostOp), HostMoves s → s.hostQueue = op :: rest →
    ((∃ o, op = .access (.read o) ∧ o.toNat % 4 ≠ 0) ∨ (∃ o w, op = .access (.write o w) ∧ o.toNat % 4 ≠ 0) ∨
      ∃ o b, op = .wrongWidth o b) →
    step s = .refused .accessNotAdmitted

/-- 10_state R22, 20_memory R83, R93, R97: the offset of every mapped register; a host address within the 4096 bytes from
WINDOW_BASE on is an access at its distance from there, and any other address is none of the block's; an admitted read of a
mapped register while the block is idle is the register's read, its value returned to the host; an admitted write is the
register's write. -/
def Obligations.IdleAccessesReachTheRegister : Prop :=
  (∀ x ∈ ([(.id, 0x000), (.cap, 0x004), (.ibufSize, 0x008), (.obufSize, 0x00C), (.ctrl, 0x010), (.cmd, 0x014),
      (.status, 0x018), (.err, 0x01C), (.clear, 0x020), (.inLen, 0x024), (.padIn, 0x028), (.outLen, 0x02C), (.padOut, 0x030),
      (.ibufPtr, 0x034), (.ibufData, 0x038), (.obufPtr, 0x03C), (.obufData, 0x040), (.ftCount, 0x044), (.ftIndex, 0x048),
      (.ftSym, 0x04C), (.ftFreq, 0x050), (.ctSym, 0x054), (.ctLen, 0x058), (.ctWordsel, 0x05C), (.ctBits, 0x060),
      (.root, 0x064), (.nodeCount, 0x068), (.nodeSel, 0x06C), (.nodeInfo, 0x070), (.nodeFreqLo, 0x074),
      (.nodeFreqHi, 0x078)] : List (Reg × BitVec 12)), x.1.offset = x.2) ∧
  (∀ (p : Params) (o : BitVec 12) (w : Word),
    accessAt p (p.windowBase + o.toNat) none = [.access (.read o)] ∧
    accessAt p (p.windowBase + o.toNat) (some w) = [.access (.write o w)]) ∧
  (∀ (p : Params) (a : Nat) (d : Option Word), a < p.windowBase ∨ p.windowBase + 4096 ≤ a → accessAt p a d = []) ∧
  ∀ (s : State) (r : Reg) (rest : List HostOp), s.busy = false →
    (∀ v t, s.hostQueue = .access (.read r.offset) :: rest → readReg r (afterAccess rest s) = .ok (v, t) →
      step s = .next { t with hostReads := s.hostReads ++ [v] }) ∧
    (∀ w, s.hostQueue = .access (.write r.offset w) :: rest → step s = .next (writeReg r w (afterAccess rest s)))

/-- 10_state R27, R31 to R35, R37, R39, R40, R48, R50, R52 to R54: what an idle write of the plain registers stores (one of
FT_COUNT also makes the tree stale, R47), and what reads of them and of OUT_LEN, PAD_OUT, ROOT and NODE_COUNT return. -/
def Obligations.PlainRegistersStoreAndRead : Prop :=
  ∀ (s : State) (w : Word),
    writeReg .ctrl w s = { s with irqEn := w.getLsbD 0 } ∧
    writeReg .inLen w s = { s with inLen := w } ∧
    writeReg .padIn w s = { s with padIn := w } ∧
    writeReg .ibufPtr w s = { s with ibufPtr := w } ∧
    writeReg .obufPtr w s = { s with obufPtr := w } ∧
    writeReg .ftCount w s = staleTree { s with ftCount := w.extractLsb' 0 9 } ∧
    writeReg .ftIndex w s = { s with ftIndex := w.extractLsb' 0 8 } ∧
    writeReg .ctSym w s = { s with ctSym := w.extractLsb' 0 8 } ∧
    writeReg .ctWordsel w s = { s with ctWordsel := w.extractLsb' 0 3 } ∧
    writeReg .nodeSel w s = { s with nodeSel := w.extractLsb' 0 9 } ∧
    readReg .ctrl s = .ok (if s.irqEn then 1 else 0, s) ∧
    readReg .inLen s = .ok (s.inLen, s) ∧
    readReg .padIn s = .ok (s.padIn, s) ∧
    readReg .ibufPtr s = .ok (s.ibufPtr, s) ∧
    readReg .obufPtr s = .ok (s.obufPtr, s) ∧
    readReg .ftCount s = .ok (s.ftCount.setWidth 32, s) ∧
    readReg .ftIndex s = .ok (s.ftIndex.setWidth 32, s) ∧
    readReg .ctSym s = .ok (s.ctSym.setWidth 32, s) ∧
    readReg .ctWordsel s = .ok (s.ctWordsel.setWidth 32, s) ∧
    readReg .nodeSel s = .ok (s.nodeSel.setWidth 32, s) ∧
    readReg .outLen s = .ok (s.outLen, s) ∧
    readReg .padOut s = .ok (s.padOut.setWidth 32, s) ∧
    readReg .root s = .ok (s.root.setWidth 32, s) ∧
    readReg .nodeCount s = .ok (s.nodeCount.setWidth 32, s)

/-- 20_memory R88: the accesses with side effects are exactly the three reads and the writes listed there. -/
def Obligations.AccessesWithSideEffects : Prop :=
  (∀ (r : Reg) (s t : State) (v : Word), readReg r s = .ok (v, t) →
    (r ≠ .ibufData → r ≠ .obufData → r ≠ .ftFreq → t = s) ∧
    (r = .ibufData → t = { s with ibufPtr := s.ibufPtr + 1 }) ∧
    (r = .obufData → t = { s with obufPtr := s.obufPtr + 1 }) ∧
    (r = .ftFreq → t = { s with ftIndex := s.ftIndex + 1 })) ∧
  (∀ (r : Reg) (w : Word) (s : State), readOnly r = true → writeReg r w s = s)

/-- 20_memory R87: reserved fields read 0 and store nothing, writes of read-only registers are ignored, and CMD and CLEAR
read 0. CMD is the exception: its reserved bits reach the decoder and make the word illegal. -/
def Obligations.ReservedFields : Prop :=
  (∀ (r : Reg) (s t : State) (v : Word), readReg r s = .ok (v, t) → v &&& ~~~ fieldMask r = 0) ∧
  (∀ (r : Reg) (w : Word) (s : State), r ≠ .cmd → writeReg r (w &&& fieldMask r) s = writeReg r w s) ∧
  (∀ (r : Reg) (w : Word) (s : State), readOnly r = true → writeReg r w s = s) ∧
  (∀ s : State, readReg .cmd s = .ok (0, s) ∧ readReg .clear s = .ok (0, s)) ∧
  ∀ (w : Word) (s : State), (writeReg .cmd w s).pending = w ∧
    (w.extractLsb' 8 24 ≠ 0 → decode s.params w = .error .reservedBits)

/-- 10_state R28, R29: what a host read of STATUS and of ERR returns, field by field. 60_exceptions R281: the code of each
error. -/
def Obligations.StatusAndErrFields : Prop :=
  ∀ s : State,
    readReg .status s = .ok (statusWord s, s) ∧ readReg .err s = .ok (errWord s, s) ∧
    (statusWord s).getLsbD 0 = s.busy ∧ (statusWord s).getLsbD 1 = s.done ∧
    (statusWord s).getLsbD 2 = s.errCode.isSome ∧ (statusWord s).getLsbD 3 = s.dropped ∧
    (statusWord s).getLsbD 4 = s.treeValid ∧ (statusWord s).getLsbD 5 = s.ctabValid ∧
    (statusWord s).getLsbD 6 = s.singleLeaf ∧ (statusWord s).getLsbD 7 = false ∧
    (statusWord s).extractLsb' 8 8 = s.lastOp ∧ (statusWord s).extractLsb' 16 16 = 0 ∧
    (errWord s).extractLsb' 0 8 = errCodeByte s ∧ (errWord s).extractLsb' 8 8 = s.errOp ∧
    (errWord s).extractLsb' 16 16 = 0 ∧ (errCodeByte s).toNat ≤ 0x0C ∧ (errCodeByte s = 0 ↔ s.errCode = none) ∧
    (∀ x ∈ ([(.emptyInput, 0x01), (.badTable, 0x02), (.noTree, 0x03), (.noCodes, 0x04), (.uncodedSymbol, 0x05),
        (.badPadding, 0x06), (.emptyStream, 0x07), (.truncatedCode, 0x08), (.descendPastLeaf, 0x09), (.badLength, 0x0A),
        (.outOverflow, 0x0B), (.illegalCmd, 0x0C)] : List (CmdError × Byte)), s.errCode = some x.1 → errCodeByte s = x.2) ∧
    (Inv s → errCodeByte s = 0 → (errWord s).extractLsb' 8 8 = 0)

/-- 10_state R30: a write of CLEAR while idle. -/
def Obligations.ClearAcknowledges : Prop :=
  ∀ (s : State) (w : Word),
    writeReg .clear w s =
      { s with
        done := if w.getLsbD 0 then false else s.done
        errCode := if w.getLsbD 1 then none else s.errCode
        errOp := if w.getLsbD 1 then 0 else s.errOp
        dropped := if w.getLsbD 2 then false else s.dropped } ∧
    writeReg .clear (w &&& 7) s = writeReg .clear w s ∧ readReg .clear s = .ok (0, s)

/-- 10_state R36: IBUF_DATA. The pointer counts modulo 2^32, and accesses beyond the buffer read 0 or are dropped. -/
def Obligations.IbufDataPort : Prop :=
  ∀ (s : State) (w : Word),
    (s.ibufPtr.toNat < s.params.ibufSize →
      (∃ m, writeReg .ibufData w s = { s with ibuf := m, ibufPtr := s.ibufPtr + 1 } ∧
        m.read s.ibufPtr.toNat = some (w.extractLsb' 0 8) ∧ ∀ a, a ≠ s.ibufPtr.toNat → m.read a = s.ibuf.read a) ∧
      ∀ b, s.ibuf.read s.ibufPtr.toNat = some b →
        readReg .ibufData s = .ok (b.setWidth 32, { s with ibufPtr := s.ibufPtr + 1 })) ∧
    (s.params.ibufSize ≤ s.ibufPtr.toNat →
      writeReg .ibufData w s = { s with ibufPtr := s.ibufPtr + 1 } ∧
      readReg .ibufData s = .ok (0, { s with ibufPtr := s.ibufPtr + 1 })) ∧
    (s.ibufPtr + 1).toNat = (s.ibufPtr.toNat + 1) % 2 ^ 32

/-- 10_state R38: OBUF_DATA. A write has no effect, and the pointer does not advance. -/
def Obligations.ObufDataPort : Prop :=
  ∀ (s : State) (w : Word),
    (s.obufPtr.toNat < s.params.obufSize → ∀ b, s.obuf.read s.obufPtr.toNat = some b →
      readReg .obufData s = .ok (b.setWidth 32, { s with obufPtr := s.obufPtr + 1 })) ∧
    (s.params.obufSize ≤ s.obufPtr.toNat → readReg .obufData s = .ok (0, { s with obufPtr := s.obufPtr + 1 })) ∧
    writeReg .obufData w s = s ∧ (s.obufPtr + 1).toNat = (s.obufPtr.toNat + 1) % 2 ^ 32

/-- 10_state R41, R42, R47: FT_SYM and FT_FREQ reach entry FT_INDEX; a write changes one half of it, leaves the other half
of a written entry and every other entry alone, and makes the tree and the codes stale. That the first write of one half
makes the whole entry written, its other half free, is the model's choice (log 2, with 93_implementation_defined U1). -/
def Obligations.FtabPorts : Prop :=
  ∀ (s : State) (w : Word),
    (∃ e f d, writeReg .ftSym w s =
        { s with ftab := f, draws := d, treeValid := false, ctabValid := false, singleLeaf := false, root := 0, nodeCount := 0 } ∧
      f[s.ftIndex.toNat]? = some (some e) ∧ e.sym = w.extractLsb' 0 8 ∧
      (∀ e0, s.ftab[s.ftIndex.toNat]? = some (some e0) → e.freq = e0.freq) ∧
      ∀ j, j ≠ s.ftIndex.toNat → f[j]? = s.ftab[j]?) ∧
    (∃ e f d, writeReg .ftFreq w s =
        { s with ftab := f, draws := d, ftIndex := s.ftIndex + 1, treeValid := false, ctabValid := false,
                 singleLeaf := false, root := 0, nodeCount := 0 } ∧
      f[s.ftIndex.toNat]? = some (some e) ∧ e.freq = w ∧
      (∀ e0, s.ftab[s.ftIndex.toNat]? = some (some e0) → e.sym = e0.sym) ∧
      ∀ j, j ≠ s.ftIndex.toNat → f[j]? = s.ftab[j]?) ∧
    (∀ e, s.ftab[s.ftIndex.toNat]? = some (some e) →
      readReg .ftSym s = .ok (e.sym.setWidth 32, s) ∧
      readReg .ftFreq s = .ok (e.freq, { s with ftIndex := s.ftIndex + 1 })) ∧
    (s.ftIndex + 1).toNat = (s.ftIndex.toNat + 1) % 256

/-- The model's faults of 93_implementation_defined U1, which 10_state R44, R59 and 20_memory R81 call for (log 1): a host
read of what nothing has written since reset stops with a fault, and so do BUILD at its first unwritten entry, PACK at its
first unwritten byte and DECODE at the first unwritten byte its walk reaches, when no check before it fails. COUNT's stop is
Obligations.CountFaultsOnUnwrittenInput. -/
def Obligations.UnwrittenReadsFault : Prop :=
  ∀ s : State,
    (s.ibufPtr.toNat < s.params.ibufSize → s.ibuf.read s.ibufPtr.toNat = none →
      readReg .ibufData s = .error (.unwrittenIbuf s.ibufPtr.toNat)) ∧
    (s.obufPtr.toNat < s.params.obufSize → s.obuf.read s.obufPtr.toNat = none →
      readReg .obufData s = .error (.unwrittenObuf s.obufPtr.toNat)) ∧
    (s.ftab[s.ftIndex.toNat]? = some none →
      readReg .ftSym s = .error (.unwrittenFtab s.ftIndex.toNat) ∧
      readReg .ftFreq s = .error (.unwrittenFtab s.ftIndex.toNat)) ∧
    (∀ i, s.ftCount.toNat ≤ 256 → i < s.ftCount.toNat → s.ftab[i]? = some none →
      (∀ j, j < i → ∃ e, s.ftab[j]? = some (some e) ∧ 1 ≤ e.freq.toNat ∧ e.freq.toNat < 2 ^ 31) →
      exec .build s = .fault (.unwrittenFtab i)) ∧
    (∀ a, s.ctabValid = true → s.inLen.toNat ≤ s.params.ibufSize → a < s.inLen.toNat → s.ibuf.read a = none →
      (∀ a', a' < a → ∃ b, s.ibuf.read a' = some b ∧ (ctabAt s.ctab b).len ≠ 0) →
      exec .pack s = .fault (.unwrittenIbuf a)) ∧
    (∀ bytes : List Byte, s.treeValid = true → s.padIn.toNat ≤ 7 → s.inLen.toNat ≤ s.params.ibufSize →
      bytes.length < s.inLen.toNat → (∀ a (h : a < bytes.length), s.ibuf.read a = some bytes[a]) →
      s.ibuf.read bytes.length = none →
      (∀ n, s.singleLeaf = true → s.node[s.root.toNat]? = some n → 8 * bytes.length ≤ s.params.obufSize →
        exec .decode s = .fault (.unwrittenIbuf bytes.length)) ∧
      (∀ (words : List (BitString × Byte)) (rest : BitString) (k : BitVec 9), s.singleLeaf = false →
        (∀ x ∈ words, x.1 ≠ [] ∧ leafAlong s s.root x.1 = some x.2) →
        words.flatMap Prod.fst ++ rest = bytes.flatMap byteBits → internalAlong s s.root rest = some k →
        words.length ≤ s.params.obufSize → exec .decode s = .fault (.unwrittenIbuf bytes.length)))

/-- 10_state R49, R51: CT_LEN and CT_BITS, the code packed MSB-first across eight words. -/
def Obligations.CodeReadBack : Prop :=
  ∀ s : State, ∃ len bits,
    readReg .ctLen s = .ok (len, s) ∧ readReg .ctBits s = .ok (bits, s) ∧
    len = (if s.ctabValid then (ctabAt s.ctab s.ctSym).len.setWidth 32 else 0) ∧
    ∀ j, j < 32 → bits.getLsbD (31 - j) =
      (s.ctabValid && decide (32 * s.ctWordsel.toNat + j < (ctabAt s.ctab s.ctSym).len.toNat) &&
        (ctabAt s.ctab s.ctSym).code.getLsbD (32 * s.ctWordsel.toNat + j))

/-- 10_state R55, R56: NODE_INFO and NODE_FREQ of a node of the current tree, and 0 for any other index. -/
def Obligations.NodeReadBack : Prop :=
  ∀ s : State,
    (∀ n, s.treeValid = true → s.nodeSel.toNat < s.nodeCount.toNat → s.node[s.nodeSel.toNat]? = some n →
      ∃ info lo hi, readReg .nodeInfo s = .ok (info, s) ∧ readReg .nodeFreqLo s = .ok (lo, s) ∧
        readReg .nodeFreqHi s = .ok (hi, s) ∧
        info.getLsbD 31 = true ∧ info.getLsbD 30 = n.leaf ∧ info.extractLsb' 18 12 = 0 ∧
        (n.leaf = true → info.extractLsb' 0 8 = n.sym ∧ info.extractLsb' 8 10 = 0) ∧
        (n.leaf = false → info.extractLsb' 0 9 = n.left ∧ info.extractLsb' 9 9 = n.right) ∧
        hi.toNat * 2 ^ 32 + lo.toNat = n.freq.toNat) ∧
    (s.treeValid = false ∨ s.nodeCount.toNat ≤ s.nodeSel.toNat →
      readReg .nodeInfo s = .ok (0, s) ∧ readReg .nodeFreqLo s = .ok (0, s) ∧ readReg .nodeFreqHi s = .ok (0, s))

/-! ### Whole-machine rules -/

/-- 60_exceptions R290: irq is IRQ_EN and DONE, so it is asserted at the end of every command while IRQ_EN = 1, and it stays
asserted until a CLEAR of DONE, an accepted CMD or IRQ_EN written 0 (or hardware reset). -/
def Obligations.IrqFollowsCompletion : Prop :=
  (∀ s : State, irq s = (s.irqEn && s.done)) ∧
  (∀ s t : State, EngineMoves s → step s = .next t → irq t = t.irqEn) ∧
  ∀ s t : State, Inv s → irq s = true → step s = .next t → irq t = true ∨
    ∃ op rest, s.hostQueue = op :: rest ∧
      ((∃ w, op = .access (.write Reg.clear.offset w) ∧ w.getLsbD 0 = true) ∨
        (∃ w, op = .access (.write Reg.cmd.offset w)) ∨
        (∃ w, op = .access (.write Reg.ctrl.offset w) ∧ w.getLsbD 0 = false) ∨ op = .hardwareReset)

/-- 10_state R43, R47: a step that changes FTAB or FT_COUNT leaves the tree and the codes stale, so no table is changed
under a tree built from it. -/
def Obligations.TableChangesInvalidateTheTree : Prop :=
  ∀ s t : State, step s = .next t → t.ftab ≠ s.ftab ∨ t.ftCount ≠ s.ftCount →
    t.treeValid = false ∧ t.ctabValid = false ∧ t.singleLeaf = false ∧ t.root = 0 ∧ t.nodeCount = 0

/-- 10_state R45, R46: only BUILD writes NODE and only GENCODES writes CTAB (hardware reset leaves them unspecified). -/
def Obligations.OnlyBuildAndGenCodesWriteTheTables : Prop :=
  ∀ s t : State, step s = .next t → (∀ rest, s.hostQueue ≠ .hardwareReset :: rest) →
    (t.node ≠ s.node → EngineMoves s ∧ s.pending = 0x00000002 ∧ t.treeValid = true) ∧
    (t.ctab ≠ s.ctab → EngineMoves s ∧ s.pending = 0x00000003 ∧ t.ctabValid = true)

/-- 20_memory R80: only an IBUF_DATA write while idle changes IBUF, and only PACK and DECODE change OBUF (hardware reset
leaves both unspecified). -/
def Obligations.OnlyTheirOwnersWriteTheBuffers : Prop :=
  ∀ s t : State, step s = .next t → (∀ rest, s.hostQueue ≠ .hardwareReset :: rest) →
    ((∃ a, t.ibuf.read a ≠ s.ibuf.read a) →
      s.busy = false ∧ ∃ w rest, s.hostQueue = .access (.write Reg.ibufData.offset w) :: rest) ∧
    ((∃ a, t.obuf.read a ≠ s.obuf.read a) → EngineMoves s ∧ (s.pending = 0x00000004 ∨ s.pending = 0x00000005))

/-! ### NOP and SOFT_RESET (45_control) -/

/-- 45_control R260, R262: NOP completes and changes nothing else; SOFT_RESET returns the registers to their reset values
and keeps the buffers, the tables, PENDING, LAST_OP and ERR. -/
def Obligations.NopAndSoftResetComplete : Prop :=
  ∀ s : State,
    exec .nop s = .next { s with busy := false, done := true } ∧
    exec .softReset s = .next
      { s with irqEn := false, inLen := 0, padIn := 0, outLen := 0, padOut := 0, ibufPtr := 0, obufPtr := 0, ftCount := 0,
               ftIndex := 0, ctSym := 0, ctWordsel := 0, nodeSel := 0, treeValid := false, ctabValid := false,
               singleLeaf := false, root := 0, nodeCount := 0, dropped := false, busy := false, done := true }

/-! ### COUNT (40_frequency_counter) -/

/-- 40_frequency_counter R152 to R154: COUNT of a written input that fits completes, and FTAB lists each byte value that
occurs once, in ascending order, with its exact count; the other entries are (0, 0), the tree is stale, and nothing else
changes. -/
def Obligations.CountCompletes : Prop :=
  ∀ (s : State) (bytes : List Byte), s.params.Legal → s.params.hasCounter = true →
    s.inLen.toNat ≤ s.params.ibufSize → HoldsInput s bytes →
    ∃ t entries, exec .count s = .next t ∧
      t = { s with ftab := t.ftab, ftCount := t.ftCount, ftIndex := 0, treeValid := false, ctabValid := false,
                   singleLeaf := false, root := 0, nodeCount := 0, busy := false, done := true } ∧
      HoldsTable t entries ∧ (∀ i, entries.length ≤ i → i < 256 → t.ftab[i]? = some (some { sym := 0, freq := 0 })) ∧
      (entries.map FtabEntry.sym).Pairwise (fun a b => a.toNat < b.toNat) ∧
      (∀ b, b ∈ entries.map FtabEntry.sym ↔ b ∈ bytes) ∧
      (∀ e ∈ entries, e.freq.toNat = bytes.count e.sym) ∧
      (∀ a, t.ibuf.read a = s.ibuf.read a ∧ t.obuf.read a = s.obuf.read a)

/-- 40_frequency_counter R151: COUNT of an input longer than IBUF raises BAD_LENGTH and changes nothing else. -/
def Obligations.CountRejectsALongInput : Prop :=
  ∀ s : State, s.params.hasCounter = true → s.params.ibufSize < s.inLen.toNat →
    exec .count s = .next (failedWith .badLength s)

/-- 20_memory R81 (93_implementation_defined U1, log 1): COUNT stops with a fault at the first input byte that nothing has written
since reset. -/
def Obligations.CountFaultsOnUnwrittenInput : Prop :=
  ∀ (s : State) (a : Nat), s.params.hasCounter = true → s.inLen.toNat ≤ s.params.ibufSize → a < s.inLen.toNat →
    s.ibuf.read a = none → (∀ b, b < a → s.ibuf.read b ≠ none) → exec .count s = .fault (.unwrittenIbuf a)

/-! ### BUILD (41_tree_builder) -/

/-- 41_tree_builder R173 to R175, R183, and the unused entries of R181: BUILD of a good table completes with the Huffman arena of that table; the
entries beyond it and everything else are unchanged. -/
def Obligations.BuildMakesTheHuffmanTree : Prop :=
  ∀ (s : State) (entries : List FtabEntry), HoldsTable s entries → GoodTable entries →
    ∃ t, exec .build s = .next t ∧
      t = { s with node := t.node, root := t.root, nodeCount := t.nodeCount, treeValid := true,
                   singleLeaf := decide (entries.length = 1), ctabValid := false, busy := false, done := true } ∧
      HuffmanArena (nodeAt t) entries ∧ t.root.toNat = 2 * entries.length - 2 ∧
      t.nodeCount.toNat = 2 * entries.length - 1 ∧
      (∀ k, 2 * entries.length - 1 ≤ k → k < 511 → nodeAt t k = nodeAt s k) ∧
      (∀ a, t.ibuf.read a = s.ibuf.read a ∧ t.obuf.read a = s.obuf.read a)

/-- 41_tree_builder R171, R172: BUILD's checks, in order, and the state a failed BUILD leaves. -/
def Obligations.BuildRejectsBadTables : Prop :=
  ∀ s : State,
    (s.ftCount.toNat = 0 → exec .build s = .next (staleTree (failedWith .emptyInput s))) ∧
    (256 < s.ftCount.toNat → exec .build s = .next (staleTree (failedWith .badTable s))) ∧
    (∀ i e, s.ftCount.toNat ≤ 256 → i < s.ftCount.toNat → s.ftab[i]? = some (some e) →
      (e.freq.toNat = 0 ∨ 2 ^ 31 ≤ e.freq.toNat) → (∀ j, j < i → s.ftab[j]? ≠ some none) →
      exec .build s = .next (staleTree (failedWith .badTable s))) ∧
    (∀ entries, s.ftCount.toNat ≤ 256 → HoldsTable s entries → ¬ (entries.map FtabEntry.sym).Nodup →
      exec .build s = .next (staleTree (failedWith .badTable s)))

/-- 41_tree_builder R180: the tree is a function of the table alone. -/
def Obligations.BuildDependsOnTheTableAlone : Prop :=
  ∀ (s s' : State) (entries : List FtabEntry), HoldsTable s entries → HoldsTable s' entries → GoodTable entries →
    ∃ t t', exec .build s = .next t ∧ exec .build s' = .next t' ∧ t.root = t'.root ∧ t.nodeCount = t'.nodeCount ∧
      ∀ k, k < 2 * entries.length - 1 → nodeAt t k = nodeAt t' k

/-- 41_tree_builder R176: the shape of every current tree. Leaves and internal nodes lie where the rule says, each node but
the root is the child of exactly one internal node, and no path is longer than n - 1, which is at most 255. With R177, the
left child's key is lower than the right child's. -/
def Obligations.TreeShape : Prop :=
  ∀ (s : State) (entries : List FtabEntry), Inv s → s.treeValid = true → HoldsTable s entries →
    s.root.toNat = 2 * entries.length - 2 ∧ s.nodeCount.toNat = 2 * entries.length - 1 ∧
    (∀ i (h : i < entries.length), (nodeAt s i).leaf = true ∧ (nodeAt s i).sym = entries[i].sym) ∧
    (∀ k, entries.length ≤ k → k < 2 * entries.length - 1 →
      (nodeAt s k).leaf = false ∧ (nodeAt s k).left.toNat < k ∧ (nodeAt s k).right.toNat < k ∧
        KeyBefore (nodeAt s) (nodeAt s k).left.toNat (nodeAt s k).right.toNat) ∧
    (∀ j, j < 2 * entries.length - 2 → ∃ k, (entries.length ≤ k ∧ k < 2 * entries.length - 1 ∧
        ((nodeAt s k).left.toNat = j ∨ (nodeAt s k).right.toNat = j)) ∧
      ∀ k', entries.length ≤ k' → k' < 2 * entries.length - 1 →
        ((nodeAt s k').left.toNat = j ∨ (nodeAt s k').right.toNat = j) → k' = k) ∧
    (∀ p sym, leafAlong s s.root p = some sym → p.length ≤ entries.length - 1) ∧ entries.length - 1 ≤ 255

/-- 41_tree_builder R178: no node frequency overflows its 40 bits, and the root's frequency is the sum of all table
frequencies. -/
def Obligations.RootFrequencyIsTheTotal : Prop :=
  ∀ (s : State) (entries : List FtabEntry), Inv s → s.treeValid = true → HoldsTable s entries →
    (nodeAt s s.root.toNat).freq.toNat = (entries.map fun e => e.freq.toNat).sum ∧
    (∀ k, k < 2 * entries.length - 1 → (nodeAt s k).freq.toNat < 2 ^ 39)

/-! ### GENCODES (42_code_table) -/

/-- 42_code_table R192, R194, R195: GENCODES on a current tree completes; each leaf's code is the path to it (the code "0"
when the root is the leaf), every other symbol has none, unused code bits are 0, and nothing else changes. -/
def Obligations.GenCodesCompletes : Prop :=
  ∀ s : State, Inv s → s.treeValid = true →
    ∃ t, exec .genCodes s = .next t ∧ t = { s with ctab := t.ctab, ctabValid := true, busy := false, done := true } ∧
      (s.singleLeaf = false → ∀ sym p, leafAlong s s.root p = some sym ↔ p ≠ [] ∧ codeOf t sym = p) ∧
      (s.singleLeaf = true → ∀ sym, codeOf t sym = if sym = (nodeAt s s.root.toNat).sym then [false] else []) ∧
      (∀ sym i, (ctabAt t.ctab sym).len.toNat ≤ i → (ctabAt t.ctab sym).code.getLsbD i = false) ∧
      (∀ a, t.ibuf.read a = s.ibuf.read a ∧ t.obuf.read a = s.obuf.read a)

/-- 42_code_table R191: GENCODES without a tree raises NO_TREE and changes nothing else; CTAB_VALID is 0 then already. -/
def Obligations.GenCodesNeedsATree : Prop :=
  ∀ s : State, s.treeValid = false →
    exec .genCodes s = .next (failedWith .noTree s) ∧ (Inv s → s.ctabValid = false)

/-- 42_code_table R196: while CTAB_VALID = 1, exactly the table's symbols have codes, no code begins another, and each code
leads from the root to its own leaf (a single leaf has the code "0"). -/
def Obligations.CodesAreUniquelyDecodable : Prop :=
  ∀ (s : State) (entries : List FtabEntry), Inv s → s.ctabValid = true → HoldsTable s entries →
    (∀ sym, (ctabAt s.ctab sym).len ≠ 0 ↔ sym ∈ entries.map FtabEntry.sym) ∧
    (∀ a b, (ctabAt s.ctab a).len ≠ 0 → (ctabAt s.ctab b).len ≠ 0 → codeOf s a <+: codeOf s b → a = b) ∧
    (∀ sym, (ctabAt s.ctab sym).len ≠ 0 →
      (s.singleLeaf = false → leafAlong s s.root (codeOf s sym) = some sym) ∧
      (s.singleLeaf = true → leafAlong s s.root [] = some sym ∧ codeOf s sym = [false]))

/-- 42_code_table R197: the length of every code, with n the number of entries. -/
def Obligations.CodeLengthBound : Prop :=
  ∀ (s : State) (entries : List FtabEntry) (sym : Byte), Inv s → s.ctabValid = true → HoldsTable s entries →
    (ctabAt s.ctab sym).len ≠ 0 →
    1 ≤ (ctabAt s.ctab sym).len.toNat ∧
    (2 ≤ entries.length → (ctabAt s.ctab sym).len.toNat ≤ entries.length - 1) ∧
    (entries.length = 1 → (ctabAt s.ctab sym).len.toNat = 1)

/-- 42_code_table R198: the Kraft equality of a tree with more than one leaf, scaled by 2^255. -/
def Obligations.KraftEquality : Prop :=
  ∀ s : State, Inv s → s.ctabValid = true → s.singleLeaf = false →
    ((List.range 256).map fun k =>
      if (ctabAt s.ctab (BitVec.ofNat 8 k)).len = 0 then 0
      else 2 ^ (255 - (ctabAt s.ctab (BitVec.ofNat 8 k)).len.toNat)).sum = 2 ^ 255

/-! ### PACK (43_packer) -/

/-- 43_packer R213 to R217: PACK of a written, coded input that fits completes; OBUF holds the concatenated codes packed
MSB-first and padded with zero bits, OUT_LEN and PAD_OUT count bytes and pad bits, and nothing else changes. -/
def Obligations.PackCompletes : Prop :=
  ∀ (s : State) (bytes : List Byte) (bits : BitString), s.params.Legal → s.ctabValid = true →
    s.inLen.toNat ≤ s.params.ibufSize → HoldsInput s bytes → (∀ b ∈ bytes, (ctabAt s.ctab b).len ≠ 0) →
    bits = bytes.flatMap (codeOf s) → (bits.length + 7) / 8 ≤ s.params.obufSize →
    ∃ t, exec .pack s = .next t ∧
      t = { s with obuf := t.obuf, outLen := t.outLen, padOut := t.padOut, busy := false, done := true } ∧
      t.outLen.toNat = (bits.length + 7) / 8 ∧ t.padOut.toNat = (8 - bits.length % 8) % 8 ∧
      8 * t.outLen.toNat = bits.length + t.padOut.toNat ∧
      (∀ k, k < t.outLen.toNat → ∃ byte, t.obuf.read k = some byte ∧
        ∀ j, j < 8 → byte.getLsbD (7 - j) = bits[8 * k + j]?.getD false) ∧
      (∀ a, t.outLen.toNat ≤ a → t.obuf.read a = s.obuf.read a) ∧ (∀ a, t.ibuf.read a = s.ibuf.read a)

/-- 43_packer R211, R212, R216 and 60_exceptions R286: PACK's checks, in order, and the state a failed PACK leaves. -/
def Obligations.PackRejects : Prop :=
  ∀ s : State,
    (s.ctabValid = false → exec .pack s = .next { failedWith .noCodes s with outLen := 0, padOut := 0 }) ∧
    (s.ctabValid = true → s.params.ibufSize < s.inLen.toNat →
      exec .pack s = .next { failedWith .badLength s with outLen := 0, padOut := 0 }) ∧
    (∀ a b, s.ctabValid = true → s.inLen.toNat ≤ s.params.ibufSize → a < s.inLen.toNat → s.ibuf.read a = some b →
      (ctabAt s.ctab b).len = 0 → (∀ a', a' < a → s.ibuf.read a' ≠ none) →
      exec .pack s = .next { failedWith .uncodedSymbol s with outLen := 0, padOut := 0 }) ∧
    (∀ bytes, s.ctabValid = true → s.inLen.toNat ≤ s.params.ibufSize → HoldsInput s bytes →
      (∀ b ∈ bytes, (ctabAt s.ctab b).len ≠ 0) → s.params.obufSize < ((bytes.flatMap (codeOf s)).length + 7) / 8 →
      exec .pack s = .next { failedWith .outOverflow s with outLen := 0, padOut := 0 })

/-! ### DECODE (44_decoder) -/

/-- 44_decoder R233 to R235, R237, R238: on a tree with more than one leaf, a stream whose data bits are whole paths to
leaves decodes to the symbols of those leaves, and nothing but OBUF and OUT_LEN changes. -/
def Obligations.DecodeCompletesOnWholeCodes : Prop :=
  ∀ (s : State) (bytes : List Byte) (words : List (BitString × Byte)), s.params.Legal → s.treeValid = true →
    s.singleLeaf = false → HoldsInput s bytes → bytes ≠ [] → bytes.length ≤ s.params.ibufSize → s.padIn.toNat ≤ 7 →
    (∀ x ∈ words, leafAlong s s.root x.1 = some x.2) → words.flatMap Prod.fst = streamBits s.padIn.toNat bytes →
    words.length ≤ s.params.obufSize →
    ∃ t, exec .decode s = .next t ∧ t = { s with obuf := t.obuf, outLen := t.outLen, busy := false, done := true } ∧
      t.outLen.toNat = words.length ∧
      (∀ k (h : k < words.length), t.obuf.read k = some (words[k].2)) ∧
      (∀ a, words.length ≤ a → t.obuf.read a = s.obuf.read a) ∧ (∀ a, t.ibuf.read a = s.ibuf.read a)

/-- 44_decoder R236, R243: on a single leaf every data bit, 0 or 1, gives the one symbol; no bytes give no output. -/
def Obligations.DecodeCompletesOnASingleLeaf : Prop :=
  ∀ (s : State) (bytes : List Byte) (n : Node), s.params.Legal → s.treeValid = true → s.singleLeaf = true →
    HoldsInput s bytes → bytes.length ≤ s.params.ibufSize → s.padIn.toNat ≤ 7 → s.node[s.root.toNat]? = some n →
    8 * bytes.length - s.padIn.toNat ≤ s.params.obufSize →
    ∃ t, exec .decode s = .next t ∧ t = { s with obuf := t.obuf, outLen := t.outLen, busy := false, done := true } ∧
      t.outLen.toNat = 8 * bytes.length - s.padIn.toNat ∧
      (∀ k, k < t.outLen.toNat → t.obuf.read k = some n.sym) ∧
      (∀ a, t.outLen.toNat ≤ a → t.obuf.read a = s.obuf.read a) ∧ (∀ a, t.ibuf.read a = s.ibuf.read a)

/-- 44_decoder R237, R238 and 60_exceptions R285: with more than one leaf a stream that ends inside a code raises
TRUNCATED_CODE, and one with more symbols than OBUF holds raises OUT_OVERFLOW; with a single leaf (R236) more data bits than
OBUF holds raise OUT_OVERFLOW. OUT_LEN is 0, and each byte of OBUF counts as written with a free value
(93_implementation_defined U4, log 4). -/
def Obligations.DecodeStopsInTheWalk : Prop :=
  (∀ (s : State) (bytes : List Byte) (words : List (BitString × Byte)) (rest : BitString), s.treeValid = true →
    s.singleLeaf = false → HoldsInput s bytes → bytes ≠ [] → bytes.length ≤ s.params.ibufSize → s.padIn.toNat ≤ 7 →
    (∀ x ∈ words, x.1 ≠ [] ∧ leafAlong s s.root x.1 = some x.2) →
    words.flatMap Prod.fst ++ rest = streamBits s.padIn.toNat bytes →
    (words.length ≤ s.params.obufSize → ∀ k, internalAlong s s.root rest = some k → k ≠ s.root →
      ∃ m, exec .decode s = .next { failedWith .truncatedCode s with outLen := 0, obuf := m, draws := s.draws + 1 } ∧
        ∀ a, a < s.params.obufSize → m.read a ≠ none) ∧
    (s.params.obufSize < words.length →
      ∃ m, exec .decode s = .next { failedWith .outOverflow s with outLen := 0, obuf := m, draws := s.draws + 1 } ∧
        ∀ a, a < s.params.obufSize → m.read a ≠ none)) ∧
  ∀ (s : State) (bytes : List Byte) (n : Node), s.treeValid = true → s.singleLeaf = true → HoldsInput s bytes →
    bytes.length ≤ s.params.ibufSize → s.padIn.toNat ≤ 7 → s.node[s.root.toNat]? = some n →
    s.params.obufSize < 8 * bytes.length - s.padIn.toNat →
    ∃ m, exec .decode s = .next { failedWith .outOverflow s with outLen := 0, obuf := m, draws := s.draws + 1 } ∧
      ∀ a, a < s.params.obufSize → m.read a ≠ none

/-- 44_decoder R231, R232 and 60_exceptions R286: DECODE's checks before the walk, in order, and the state they leave. -/
def Obligations.DecodeRejects : Prop :=
  ∀ s : State,
    (s.treeValid = false → exec .decode s = .next { failedWith .noTree s with outLen := 0 }) ∧
    (s.treeValid = true → 7 < s.padIn.toNat → exec .decode s = .next { failedWith .badPadding s with outLen := 0 }) ∧
    (s.treeValid = true → s.padIn.toNat ≤ 7 → s.params.ibufSize < s.inLen.toNat →
      exec .decode s = .next { failedWith .badLength s with outLen := 0 }) ∧
    (s.treeValid = true → s.padIn.toNat ≤ 7 → s.inLen.toNat = 0 → s.singleLeaf = false →
      exec .decode s = .next { failedWith .emptyStream s with outLen := 0 })

/-- 44_decoder R240: on every state the invariant allows, DECODE never raises DESCEND_PAST_LEAF, and neither DECODE nor
GENCODES meets the model's fault for an arena no BUILD makes. -/
def Obligations.DecodeNeverDescendsPastALeaf : Prop :=
  ∀ s : State, Inv s → s.errCode = none →
    (∀ t, exec .decode s = .next t → t.errCode ≠ some .descendPastLeaf) ∧
    exec .decode s ≠ .fault .arenaCorrupt ∧ exec .genCodes s ≠ .fault .arenaCorrupt

/-- 44_decoder R241, R242: whatever the packed bytes are, DECODE of a written stream that passes the checks ends, either
with at most one byte per data bit or with TRUNCATED_CODE or OUT_OVERFLOW. -/
def Obligations.DecodeOfAnyStreamEnds : Prop :=
  ∀ (s : State) (bytes : List Byte), Inv s → s.errCode = none → s.treeValid = true → HoldsInput s bytes →
    bytes.length ≤ s.params.ibufSize → s.padIn.toNat ≤ 7 → (bytes ≠ [] ∨ s.singleLeaf = true) →
    ∃ t, exec .decode s = .next t ∧
      ((t.errCode = none ∧ t.outLen.toNat ≤ 8 * bytes.length - s.padIn.toNat) ∨
        t.errCode = some .truncatedCode ∨ t.errCode = some .outOverflow)

/-- 43_packer R218 (b), for at least one input byte or a single leaf (log 8: with no byte and more than one leaf, 44_decoder
R232 raises EMPTY_STREAM): DECODE, with the same tree, of what PACK wrote gives back exactly the input. -/
def Obligations.DecodeInvertsPack : Prop :=
  ∀ (s t u : State), Inv s → s.ctabValid = true → s.errCode = none → exec .pack s = .next t → t.errCode = none →
    s.inLen.toNat ≤ s.params.obufSize → (s.inLen ≠ 0 ∨ s.singleLeaf = true) →
    u.params = s.params → u.node = s.node → u.root = s.root → u.treeValid = true → u.singleLeaf = s.singleLeaf →
    u.inLen = t.outLen → t.outLen.toNat ≤ u.params.ibufSize → u.padIn = t.padOut.setWidth 32 →
    (∀ a, a < t.outLen.toNat → u.ibuf.read a = t.obuf.read a) →
    ∃ v, exec .decode u = .next v ∧ v.errCode = u.errCode ∧ v.outLen = s.inLen ∧
      ∀ a, a < s.inLen.toNat → v.obuf.read a = s.ibuf.read a

/-! ### Command errors (60_exceptions) -/

/-- 60_exceptions R285: what a failed command changes, an ILLEGAL word included: ERR and the end of the step; for BUILD
(0x02) the tree is stale, for PACK (0x04) OUT_LEN and PAD_OUT are 0, for DECODE (0x05) OUT_LEN is 0; OBUF only by a DECODE
that fails in its walk, and each of its bytes then counts as written with a free value (log 4: the count of draws moves
on). Nothing else changes. -/
def Obligations.FailedCommandsChangeNothingElse : Prop :=
  ∀ (s t : State) (c : CmdError), s.errCode = none → engineStep s = .next t → t.errCode = some c →
    t = { s with
          errCode := some c, errOp := s.pending.extractLsb' 0 8, busy := false, done := true
          treeValid := if s.pending = 0x00000002 then false else s.treeValid
          ctabValid := if s.pending = 0x00000002 then false else s.ctabValid
          singleLeaf := if s.pending = 0x00000002 then false else s.singleLeaf
          root := if s.pending = 0x00000002 then 0 else s.root
          nodeCount := if s.pending = 0x00000002 then 0 else s.nodeCount
          outLen := if s.pending = 0x00000004 ∨ s.pending = 0x00000005 then 0 else s.outLen
          padOut := if s.pending = 0x00000004 then 0 else s.padOut
          obuf := t.obuf
          draws := t.draws } ∧
    (if s.pending = 0x00000005 ∧ (c = .outOverflow ∨ c = .truncatedCode ∨ c = .descendPastLeaf)
      then ∀ a, a < s.params.obufSize → t.obuf.read a ≠ none
      else t.obuf = s.obuf ∧ t.draws = s.draws)

/-- 60_exceptions R289: a failed command accepted again without a change of its inputs gives the same error again. -/
def Obligations.RetryGivesTheSameError : Prop :=
  ∀ (s t : State) (c : CmdError), s.errCode = none → engineStep s = .next t → t.errCode = some c →
    ∃ u, engineStep (latchCommand s.pending t) = .next u ∧ u.errCode = some c

/-! ### The container (20_memory) -/

/-- 20_memory R100, R101, R103, R104, R108: the host's reads of an idle block give exactly the container of the block's FTAB,
PAD_OUT and OBUF, leave FT_INDEX and OBUF_PTR after the last entry and byte, and change nothing else of the block (the queue,
the log of reads and engineWait are the model's own, log 5, log 6); the bytes of a container (table size, entries and padding
little-endian, the lowest offset holding bits [7:0], then the packed bytes); and that parsing them gives back its table,
padding and packed bytes. -/
def Obligations.ContainerRoundTrip : Prop :=
  (∀ (s : State) (c : Container) (rest : List HostOp), s.busy = false → s.hostQueue = readContainerOps ++ rest →
    s.outLen.toNat ≤ s.params.obufSize → containerOf s = .ok c →
    c.entries.length = s.ftCount.toNat ∧ c.packed.length = s.outLen.toNat ∧ c.padding = s.padOut.setWidth 32 ∧
    (∀ i (h : i < c.entries.length), s.ftab[i]? = some (some c.entries[i])) ∧
    (∀ a (h : a < c.packed.length), s.obuf.read a = some c.packed[a]) ∧
    ∃ (k : Nat) (t : State) (reads : List Word), core.run k s = .next t ∧ containerOfReads reads = some c ∧
      t = { s with hostQueue := rest, hostReads := s.hostReads ++ reads, engineWait := t.engineWait,
                   ftIndex := BitVec.ofNat 8 c.entries.length, obufPtr := s.outLen }) ∧
  ∀ c : Container, c.entries.length ≤ 256 →
    parseContainer c.serialize = .ok c ∧ c.serialize.length = 8 + 5 * c.entries.length + 4 + c.packed.length ∧
    (∀ j, j < 8 → c.serialize[j]? = some (BitVec.ofNat 8 (c.entries.length / 256 ^ j))) ∧
    (∀ i (h : i < c.entries.length), c.serialize[8 + 5 * i]? = some c.entries[i].sym ∧
      ∀ j, j < 4 → c.serialize[9 + 5 * i + j]? = some (c.entries[i].freq.extractLsb' (8 * j) 8)) ∧
    (∀ j, j < 4 → c.serialize[8 + 5 * c.entries.length + j]? = some (c.padding.extractLsb' (8 * j) 8)) ∧
    c.serialize.drop (12 + 5 * c.entries.length) = c.packed

/-- 20_memory R104, R105: what the host's parser rejects; and that a packed section loads an IN_LEN above IBUF_SIZE exactly
when it is longer than IBUF, so that DECODE then raises BAD_LENGTH. That a length of 2^32 or more loads the largest word is
the model's choice (log 13). -/
def Obligations.ContainerRejects : Prop :=
  (∀ (c : Container) (p : Params), p.Legal → ∃ m, c.loadOps.getLast? = some (.access (.write 0x024 m)) ∧
    (c.packed.length < 2 ^ 32 → m.toNat = c.packed.length) ∧ (p.ibufSize < m.toNat ↔ p.ibufSize < c.packed.length)) ∧
  ∀ (bytes : List Byte) (n : Nat), n = leValue (bytes.take 8) →
    (bytes.length < 8 → parseContainer bytes = .error .truncated) ∧
    (8 ≤ bytes.length → 256 < n → parseContainer bytes = .error .tableTooLarge) ∧
    (8 ≤ bytes.length → n ≤ 256 → bytes.length < 8 + 5 * n + 4 → parseContainer bytes = .error .truncated) ∧
    (8 ≤ bytes.length → n ≤ 256 → 8 + 5 * n + 4 ≤ bytes.length →
      ∃ c, parseContainer bytes = .ok c ∧ c.entries.length = n ∧ c.packed = bytes.drop (12 + 5 * n))
end

