-- ==== Sys2Proof/Laws/State.lean ====
section
/-! SUPPORT. One lemma per field per named update of the state. -/

namespace Sys2Proof.Machine

/-! ### complete -/

@[simp] theorem complete_params (s : State) : (complete s).params = s.params := rfl
@[simp] theorem complete_irqEn (s : State) : (complete s).irqEn = s.irqEn := rfl
@[simp] theorem complete_busy (s : State) : (complete s).busy = false := rfl
@[simp] theorem complete_done (s : State) : (complete s).done = true := rfl
@[simp] theorem complete_dropped (s : State) : (complete s).dropped = s.dropped := rfl
@[simp] theorem complete_treeValid (s : State) : (complete s).treeValid = s.treeValid := rfl
@[simp] theorem complete_ctabValid (s : State) : (complete s).ctabValid = s.ctabValid := rfl
@[simp] theorem complete_singleLeaf (s : State) : (complete s).singleLeaf = s.singleLeaf := rfl
@[simp] theorem complete_lastOp (s : State) : (complete s).lastOp = s.lastOp := rfl
@[simp] theorem complete_errCode (s : State) : (complete s).errCode = s.errCode := rfl
@[simp] theorem complete_errOp (s : State) : (complete s).errOp = s.errOp := rfl
@[simp] theorem complete_inLen (s : State) : (complete s).inLen = s.inLen := rfl
@[simp] theorem complete_padIn (s : State) : (complete s).padIn = s.padIn := rfl
@[simp] theorem complete_outLen (s : State) : (complete s).outLen = s.outLen := rfl
@[simp] theorem complete_padOut (s : State) : (complete s).padOut = s.padOut := rfl
@[simp] theorem complete_ibufPtr (s : State) : (complete s).ibufPtr = s.ibufPtr := rfl
@[simp] theorem complete_obufPtr (s : State) : (complete s).obufPtr = s.obufPtr := rfl
@[simp] theorem complete_ftCount (s : State) : (complete s).ftCount = s.ftCount := rfl
@[simp] theorem complete_ftIndex (s : State) : (complete s).ftIndex = s.ftIndex := rfl
@[simp] theorem complete_ctSym (s : State) : (complete s).ctSym = s.ctSym := rfl
@[simp] theorem complete_ctWordsel (s : State) : (complete s).ctWordsel = s.ctWordsel := rfl
@[simp] theorem complete_root (s : State) : (complete s).root = s.root := rfl
@[simp] theorem complete_nodeCount (s : State) : (complete s).nodeCount = s.nodeCount := rfl
@[simp] theorem complete_nodeSel (s : State) : (complete s).nodeSel = s.nodeSel := rfl
@[simp] theorem complete_pending (s : State) : (complete s).pending = s.pending := rfl
@[simp] theorem complete_ibuf (s : State) : (complete s).ibuf = s.ibuf := rfl
@[simp] theorem complete_obuf (s : State) : (complete s).obuf = s.obuf := rfl
@[simp] theorem complete_ftab (s : State) : (complete s).ftab = s.ftab := rfl
@[simp] theorem complete_node (s : State) : (complete s).node = s.node := rfl
@[simp] theorem complete_ctab (s : State) : (complete s).ctab = s.ctab := rfl
@[simp] theorem complete_draws (s : State) : (complete s).draws = s.draws := rfl
@[simp] theorem complete_engineWait (s : State) : (complete s).engineWait = s.engineWait := rfl
@[simp] theorem complete_hostQueue (s : State) : (complete s).hostQueue = s.hostQueue := rfl
@[simp] theorem complete_hostReads (s : State) : (complete s).hostReads = s.hostReads := rfl

/-! ### raiseCmdError -/

@[simp] theorem raiseCmdError_params (c : CmdError) (s : State) : (raiseCmdError c s).params = s.params := rfl
@[simp] theorem raiseCmdError_irqEn (c : CmdError) (s : State) : (raiseCmdError c s).irqEn = s.irqEn := rfl
@[simp] theorem raiseCmdError_busy (c : CmdError) (s : State) : (raiseCmdError c s).busy = false := rfl
@[simp] theorem raiseCmdError_done (c : CmdError) (s : State) : (raiseCmdError c s).done = true := rfl
@[simp] theorem raiseCmdError_dropped (c : CmdError) (s : State) : (raiseCmdError c s).dropped = s.dropped := rfl
@[simp] theorem raiseCmdError_treeValid (c : CmdError) (s : State) : (raiseCmdError c s).treeValid = s.treeValid := rfl
@[simp] theorem raiseCmdError_ctabValid (c : CmdError) (s : State) : (raiseCmdError c s).ctabValid = s.ctabValid := rfl
@[simp] theorem raiseCmdError_singleLeaf (c : CmdError) (s : State) : (raiseCmdError c s).singleLeaf = s.singleLeaf := rfl
@[simp] theorem raiseCmdError_lastOp (c : CmdError) (s : State) : (raiseCmdError c s).lastOp = s.lastOp := rfl
@[simp] theorem raiseCmdError_errCode (c : CmdError) (s : State) : (raiseCmdError c s).errCode = some c := rfl
@[simp] theorem raiseCmdError_errOp (c : CmdError) (s : State) : (raiseCmdError c s).errOp = opcodeOf s.pending := rfl
@[simp] theorem raiseCmdError_inLen (c : CmdError) (s : State) : (raiseCmdError c s).inLen = s.inLen := rfl
@[simp] theorem raiseCmdError_padIn (c : CmdError) (s : State) : (raiseCmdError c s).padIn = s.padIn := rfl
@[simp] theorem raiseCmdError_outLen (c : CmdError) (s : State) : (raiseCmdError c s).outLen = s.outLen := rfl
@[simp] theorem raiseCmdError_padOut (c : CmdError) (s : State) : (raiseCmdError c s).padOut = s.padOut := rfl
@[simp] theorem raiseCmdError_ibufPtr (c : CmdError) (s : State) : (raiseCmdError c s).ibufPtr = s.ibufPtr := rfl
@[simp] theorem raiseCmdError_obufPtr (c : CmdError) (s : State) : (raiseCmdError c s).obufPtr = s.obufPtr := rfl
@[simp] theorem raiseCmdError_ftCount (c : CmdError) (s : State) : (raiseCmdError c s).ftCount = s.ftCount := rfl
@[simp] theorem raiseCmdError_ftIndex (c : CmdError) (s : State) : (raiseCmdError c s).ftIndex = s.ftIndex := rfl
@[simp] theorem raiseCmdError_ctSym (c : CmdError) (s : State) : (raiseCmdError c s).ctSym = s.ctSym := rfl
@[simp] theorem raiseCmdError_ctWordsel (c : CmdError) (s : State) : (raiseCmdError c s).ctWordsel = s.ctWordsel := rfl
@[simp] theorem raiseCmdError_root (c : CmdError) (s : State) : (raiseCmdError c s).root = s.root := rfl
@[simp] theorem raiseCmdError_nodeCount (c : CmdError) (s : State) : (raiseCmdError c s).nodeCount = s.nodeCount := rfl
@[simp] theorem raiseCmdError_nodeSel (c : CmdError) (s : State) : (raiseCmdError c s).nodeSel = s.nodeSel := rfl
@[simp] theorem raiseCmdError_pending (c : CmdError) (s : State) : (raiseCmdError c s).pending = s.pending := rfl
@[simp] theorem raiseCmdError_ibuf (c : CmdError) (s : State) : (raiseCmdError c s).ibuf = s.ibuf := rfl
@[simp] theorem raiseCmdError_obuf (c : CmdError) (s : State) : (raiseCmdError c s).obuf = s.obuf := rfl
@[simp] theorem raiseCmdError_ftab (c : CmdError) (s : State) : (raiseCmdError c s).ftab = s.ftab := rfl
@[simp] theorem raiseCmdError_node (c : CmdError) (s : State) : (raiseCmdError c s).node = s.node := rfl
@[simp] theorem raiseCmdError_ctab (c : CmdError) (s : State) : (raiseCmdError c s).ctab = s.ctab := rfl
@[simp] theorem raiseCmdError_draws (c : CmdError) (s : State) : (raiseCmdError c s).draws = s.draws := rfl
@[simp] theorem raiseCmdError_engineWait (c : CmdError) (s : State) : (raiseCmdError c s).engineWait = s.engineWait := rfl
@[simp] theorem raiseCmdError_hostQueue (c : CmdError) (s : State) : (raiseCmdError c s).hostQueue = s.hostQueue := rfl
@[simp] theorem raiseCmdError_hostReads (c : CmdError) (s : State) : (raiseCmdError c s).hostReads = s.hostReads := rfl

/-! ### invalidateTree -/

@[simp] theorem invalidateTree_params (s : State) : (invalidateTree s).params = s.params := rfl
@[simp] theorem invalidateTree_irqEn (s : State) : (invalidateTree s).irqEn = s.irqEn := rfl
@[simp] theorem invalidateTree_busy (s : State) : (invalidateTree s).busy = s.busy := rfl
@[simp] theorem invalidateTree_done (s : State) : (invalidateTree s).done = s.done := rfl
@[simp] theorem invalidateTree_dropped (s : State) : (invalidateTree s).dropped = s.dropped := rfl
@[simp] theorem invalidateTree_treeValid (s : State) : (invalidateTree s).treeValid = false := rfl
@[simp] theorem invalidateTree_ctabValid (s : State) : (invalidateTree s).ctabValid = false := rfl
@[simp] theorem invalidateTree_singleLeaf (s : State) : (invalidateTree s).singleLeaf = false := rfl
@[simp] theorem invalidateTree_lastOp (s : State) : (invalidateTree s).lastOp = s.lastOp := rfl
@[simp] theorem invalidateTree_errCode (s : State) : (invalidateTree s).errCode = s.errCode := rfl
@[simp] theorem invalidateTree_errOp (s : State) : (invalidateTree s).errOp = s.errOp := rfl
@[simp] theorem invalidateTree_inLen (s : State) : (invalidateTree s).inLen = s.inLen := rfl
@[simp] theorem invalidateTree_padIn (s : State) : (invalidateTree s).padIn = s.padIn := rfl
@[simp] theorem invalidateTree_outLen (s : State) : (invalidateTree s).outLen = s.outLen := rfl
@[simp] theorem invalidateTree_padOut (s : State) : (invalidateTree s).padOut = s.padOut := rfl
@[simp] theorem invalidateTree_ibufPtr (s : State) : (invalidateTree s).ibufPtr = s.ibufPtr := rfl
@[simp] theorem invalidateTree_obufPtr (s : State) : (invalidateTree s).obufPtr = s.obufPtr := rfl
@[simp] theorem invalidateTree_ftCount (s : State) : (invalidateTree s).ftCount = s.ftCount := rfl
@[simp] theorem invalidateTree_ftIndex (s : State) : (invalidateTree s).ftIndex = s.ftIndex := rfl
@[simp] theorem invalidateTree_ctSym (s : State) : (invalidateTree s).ctSym = s.ctSym := rfl
@[simp] theorem invalidateTree_ctWordsel (s : State) : (invalidateTree s).ctWordsel = s.ctWordsel := rfl
@[simp] theorem invalidateTree_root (s : State) : (invalidateTree s).root = 0 := rfl
@[simp] theorem invalidateTree_nodeCount (s : State) : (invalidateTree s).nodeCount = 0 := rfl
@[simp] theorem invalidateTree_nodeSel (s : State) : (invalidateTree s).nodeSel = s.nodeSel := rfl
@[simp] theorem invalidateTree_pending (s : State) : (invalidateTree s).pending = s.pending := rfl
@[simp] theorem invalidateTree_ibuf (s : State) : (invalidateTree s).ibuf = s.ibuf := rfl
@[simp] theorem invalidateTree_obuf (s : State) : (invalidateTree s).obuf = s.obuf := rfl
@[simp] theorem invalidateTree_ftab (s : State) : (invalidateTree s).ftab = s.ftab := rfl
@[simp] theorem invalidateTree_node (s : State) : (invalidateTree s).node = s.node := rfl
@[simp] theorem invalidateTree_ctab (s : State) : (invalidateTree s).ctab = s.ctab := rfl
@[simp] theorem invalidateTree_draws (s : State) : (invalidateTree s).draws = s.draws := rfl
@[simp] theorem invalidateTree_engineWait (s : State) : (invalidateTree s).engineWait = s.engineWait := rfl
@[simp] theorem invalidateTree_hostQueue (s : State) : (invalidateTree s).hostQueue = s.hostQueue := rfl
@[simp] theorem invalidateTree_hostReads (s : State) : (invalidateTree s).hostReads = s.hostReads := rfl

/-! ### latchCommand -/

@[simp] theorem latchCommand_params (w : Word) (s : State) : (latchCommand w s).params = s.params := rfl
@[simp] theorem latchCommand_irqEn (w : Word) (s : State) : (latchCommand w s).irqEn = s.irqEn := rfl
@[simp] theorem latchCommand_busy (w : Word) (s : State) : (latchCommand w s).busy = true := rfl
@[simp] theorem latchCommand_done (w : Word) (s : State) : (latchCommand w s).done = false := rfl
@[simp] theorem latchCommand_dropped (w : Word) (s : State) : (latchCommand w s).dropped = s.dropped := rfl
@[simp] theorem latchCommand_treeValid (w : Word) (s : State) : (latchCommand w s).treeValid = s.treeValid := rfl
@[simp] theorem latchCommand_ctabValid (w : Word) (s : State) : (latchCommand w s).ctabValid = s.ctabValid := rfl
@[simp] theorem latchCommand_singleLeaf (w : Word) (s : State) : (latchCommand w s).singleLeaf = s.singleLeaf := rfl
@[simp] theorem latchCommand_lastOp (w : Word) (s : State) : (latchCommand w s).lastOp = opcodeOf w := rfl
@[simp] theorem latchCommand_errCode (w : Word) (s : State) : (latchCommand w s).errCode = none := rfl
@[simp] theorem latchCommand_errOp (w : Word) (s : State) : (latchCommand w s).errOp = 0 := rfl
@[simp] theorem latchCommand_inLen (w : Word) (s : State) : (latchCommand w s).inLen = s.inLen := rfl
@[simp] theorem latchCommand_padIn (w : Word) (s : State) : (latchCommand w s).padIn = s.padIn := rfl
@[simp] theorem latchCommand_outLen (w : Word) (s : State) : (latchCommand w s).outLen = s.outLen := rfl
@[simp] theorem latchCommand_padOut (w : Word) (s : State) : (latchCommand w s).padOut = s.padOut := rfl
@[simp] theorem latchCommand_ibufPtr (w : Word) (s : State) : (latchCommand w s).ibufPtr = s.ibufPtr := rfl
@[simp] theorem latchCommand_obufPtr (w : Word) (s : State) : (latchCommand w s).obufPtr = s.obufPtr := rfl
@[simp] theorem latchCommand_ftCount (w : Word) (s : State) : (latchCommand w s).ftCount = s.ftCount := rfl
@[simp] theorem latchCommand_ftIndex (w : Word) (s : State) : (latchCommand w s).ftIndex = s.ftIndex := rfl
@[simp] theorem latchCommand_ctSym (w : Word) (s : State) : (latchCommand w s).ctSym = s.ctSym := rfl
@[simp] theorem latchCommand_ctWordsel (w : Word) (s : State) : (latchCommand w s).ctWordsel = s.ctWordsel := rfl
@[simp] theorem latchCommand_root (w : Word) (s : State) : (latchCommand w s).root = s.root := rfl
@[simp] theorem latchCommand_nodeCount (w : Word) (s : State) : (latchCommand w s).nodeCount = s.nodeCount := rfl
@[simp] theorem latchCommand_nodeSel (w : Word) (s : State) : (latchCommand w s).nodeSel = s.nodeSel := rfl
@[simp] theorem latchCommand_pending (w : Word) (s : State) : (latchCommand w s).pending = w := rfl
@[simp] theorem latchCommand_ibuf (w : Word) (s : State) : (latchCommand w s).ibuf = s.ibuf := rfl
@[simp] theorem latchCommand_obuf (w : Word) (s : State) : (latchCommand w s).obuf = s.obuf := rfl
@[simp] theorem latchCommand_ftab (w : Word) (s : State) : (latchCommand w s).ftab = s.ftab := rfl
@[simp] theorem latchCommand_node (w : Word) (s : State) : (latchCommand w s).node = s.node := rfl
@[simp] theorem latchCommand_ctab (w : Word) (s : State) : (latchCommand w s).ctab = s.ctab := rfl
@[simp] theorem latchCommand_draws (w : Word) (s : State) : (latchCommand w s).draws = s.draws := rfl
@[simp] theorem latchCommand_engineWait (w : Word) (s : State) : (latchCommand w s).engineWait = s.engineWait := rfl
@[simp] theorem latchCommand_hostQueue (w : Word) (s : State) : (latchCommand w s).hostQueue = s.hostQueue := rfl
@[simp] theorem latchCommand_hostReads (w : Word) (s : State) : (latchCommand w s).hostReads = s.hostReads := rfl

/-! ### acceptCommand -/

@[simp] theorem acceptCommand_params (w : Word) (s : State) : (acceptCommand w s).params = s.params := rfl
@[simp] theorem acceptCommand_irqEn (w : Word) (s : State) : (acceptCommand w s).irqEn = s.irqEn := rfl
@[simp] theorem acceptCommand_busy (w : Word) (s : State) : (acceptCommand w s).busy = true := rfl
@[simp] theorem acceptCommand_done (w : Word) (s : State) : (acceptCommand w s).done = false := rfl
@[simp] theorem acceptCommand_dropped (w : Word) (s : State) : (acceptCommand w s).dropped = s.dropped := rfl
@[simp] theorem acceptCommand_treeValid (w : Word) (s : State) : (acceptCommand w s).treeValid = s.treeValid := rfl
@[simp] theorem acceptCommand_ctabValid (w : Word) (s : State) : (acceptCommand w s).ctabValid = s.ctabValid := rfl
@[simp] theorem acceptCommand_singleLeaf (w : Word) (s : State) : (acceptCommand w s).singleLeaf = s.singleLeaf := rfl
@[simp] theorem acceptCommand_lastOp (w : Word) (s : State) : (acceptCommand w s).lastOp = opcodeOf w := rfl
@[simp] theorem acceptCommand_errCode (w : Word) (s : State) : (acceptCommand w s).errCode = none := rfl
@[simp] theorem acceptCommand_errOp (w : Word) (s : State) : (acceptCommand w s).errOp = 0 := rfl
@[simp] theorem acceptCommand_inLen (w : Word) (s : State) : (acceptCommand w s).inLen = s.inLen := rfl
@[simp] theorem acceptCommand_padIn (w : Word) (s : State) : (acceptCommand w s).padIn = s.padIn := rfl
@[simp] theorem acceptCommand_outLen (w : Word) (s : State) : (acceptCommand w s).outLen = s.outLen := rfl
@[simp] theorem acceptCommand_padOut (w : Word) (s : State) : (acceptCommand w s).padOut = s.padOut := rfl
@[simp] theorem acceptCommand_ibufPtr (w : Word) (s : State) : (acceptCommand w s).ibufPtr = s.ibufPtr := rfl
@[simp] theorem acceptCommand_obufPtr (w : Word) (s : State) : (acceptCommand w s).obufPtr = s.obufPtr := rfl
@[simp] theorem acceptCommand_ftCount (w : Word) (s : State) : (acceptCommand w s).ftCount = s.ftCount := rfl
@[simp] theorem acceptCommand_ftIndex (w : Word) (s : State) : (acceptCommand w s).ftIndex = s.ftIndex := rfl
@[simp] theorem acceptCommand_ctSym (w : Word) (s : State) : (acceptCommand w s).ctSym = s.ctSym := rfl
@[simp] theorem acceptCommand_ctWordsel (w : Word) (s : State) : (acceptCommand w s).ctWordsel = s.ctWordsel := rfl
@[simp] theorem acceptCommand_root (w : Word) (s : State) : (acceptCommand w s).root = s.root := rfl
@[simp] theorem acceptCommand_nodeCount (w : Word) (s : State) : (acceptCommand w s).nodeCount = s.nodeCount := rfl
@[simp] theorem acceptCommand_nodeSel (w : Word) (s : State) : (acceptCommand w s).nodeSel = s.nodeSel := rfl
@[simp] theorem acceptCommand_pending (w : Word) (s : State) : (acceptCommand w s).pending = w := rfl
@[simp] theorem acceptCommand_ibuf (w : Word) (s : State) : (acceptCommand w s).ibuf = s.ibuf := rfl
@[simp] theorem acceptCommand_obuf (w : Word) (s : State) : (acceptCommand w s).obuf = s.obuf := rfl
@[simp] theorem acceptCommand_ftab (w : Word) (s : State) : (acceptCommand w s).ftab = s.ftab := rfl
@[simp] theorem acceptCommand_node (w : Word) (s : State) : (acceptCommand w s).node = s.node := rfl
@[simp] theorem acceptCommand_ctab (w : Word) (s : State) : (acceptCommand w s).ctab = s.ctab := rfl
@[simp] theorem acceptCommand_draws (w : Word) (s : State) : (acceptCommand w s).draws = s.draws + 1 := rfl
@[simp] theorem acceptCommand_engineWait (w : Word) (s : State) : (acceptCommand w s).engineWait = Config.freeDelay s.draws := rfl
@[simp] theorem acceptCommand_hostQueue (w : Word) (s : State) : (acceptCommand w s).hostQueue = s.hostQueue := rfl
@[simp] theorem acceptCommand_hostReads (w : Word) (s : State) : (acceptCommand w s).hostReads = s.hostReads := rfl

/-! ### clearStatus -/

@[simp] theorem clearStatus_params (w : Word) (s : State) : (clearStatus w s).params = s.params := rfl
@[simp] theorem clearStatus_irqEn (w : Word) (s : State) : (clearStatus w s).irqEn = s.irqEn := rfl
@[simp] theorem clearStatus_busy (w : Word) (s : State) : (clearStatus w s).busy = s.busy := rfl
@[simp] theorem clearStatus_done (w : Word) (s : State) : (clearStatus w s).done = (s.done && !w.getLsbD 0) := rfl
@[simp] theorem clearStatus_dropped (w : Word) (s : State) : (clearStatus w s).dropped = (s.dropped && !w.getLsbD 2) := rfl
@[simp] theorem clearStatus_treeValid (w : Word) (s : State) : (clearStatus w s).treeValid = s.treeValid := rfl
@[simp] theorem clearStatus_ctabValid (w : Word) (s : State) : (clearStatus w s).ctabValid = s.ctabValid := rfl
@[simp] theorem clearStatus_singleLeaf (w : Word) (s : State) : (clearStatus w s).singleLeaf = s.singleLeaf := rfl
@[simp] theorem clearStatus_lastOp (w : Word) (s : State) : (clearStatus w s).lastOp = s.lastOp := rfl
@[simp] theorem clearStatus_errCode (w : Word) (s : State) : (clearStatus w s).errCode = (if w.getLsbD 1 then none else s.errCode) := rfl
@[simp] theorem clearStatus_errOp (w : Word) (s : State) : (clearStatus w s).errOp = (if w.getLsbD 1 then 0 else s.errOp) := rfl
@[simp] theorem clearStatus_inLen (w : Word) (s : State) : (clearStatus w s).inLen = s.inLen := rfl
@[simp] theorem clearStatus_padIn (w : Word) (s : State) : (clearStatus w s).padIn = s.padIn := rfl
@[simp] theorem clearStatus_outLen (w : Word) (s : State) : (clearStatus w s).outLen = s.outLen := rfl
@[simp] theorem clearStatus_padOut (w : Word) (s : State) : (clearStatus w s).padOut = s.padOut := rfl
@[simp] theorem clearStatus_ibufPtr (w : Word) (s : State) : (clearStatus w s).ibufPtr = s.ibufPtr := rfl
@[simp] theorem clearStatus_obufPtr (w : Word) (s : State) : (clearStatus w s).obufPtr = s.obufPtr := rfl
@[simp] theorem clearStatus_ftCount (w : Word) (s : State) : (clearStatus w s).ftCount = s.ftCount := rfl
@[simp] theorem clearStatus_ftIndex (w : Word) (s : State) : (clearStatus w s).ftIndex = s.ftIndex := rfl
@[simp] theorem clearStatus_ctSym (w : Word) (s : State) : (clearStatus w s).ctSym = s.ctSym := rfl
@[simp] theorem clearStatus_ctWordsel (w : Word) (s : State) : (clearStatus w s).ctWordsel = s.ctWordsel := rfl
@[simp] theorem clearStatus_root (w : Word) (s : State) : (clearStatus w s).root = s.root := rfl
@[simp] theorem clearStatus_nodeCount (w : Word) (s : State) : (clearStatus w s).nodeCount = s.nodeCount := rfl
@[simp] theorem clearStatus_nodeSel (w : Word) (s : State) : (clearStatus w s).nodeSel = s.nodeSel := rfl
@[simp] theorem clearStatus_pending (w : Word) (s : State) : (clearStatus w s).pending = s.pending := rfl
@[simp] theorem clearStatus_ibuf (w : Word) (s : State) : (clearStatus w s).ibuf = s.ibuf := rfl
@[simp] theorem clearStatus_obuf (w : Word) (s : State) : (clearStatus w s).obuf = s.obuf := rfl
@[simp] theorem clearStatus_ftab (w : Word) (s : State) : (clearStatus w s).ftab = s.ftab := rfl
@[simp] theorem clearStatus_node (w : Word) (s : State) : (clearStatus w s).node = s.node := rfl
@[simp] theorem clearStatus_ctab (w : Word) (s : State) : (clearStatus w s).ctab = s.ctab := rfl
@[simp] theorem clearStatus_draws (w : Word) (s : State) : (clearStatus w s).draws = s.draws := rfl
@[simp] theorem clearStatus_engineWait (w : Word) (s : State) : (clearStatus w s).engineWait = s.engineWait := rfl
@[simp] theorem clearStatus_hostQueue (w : Word) (s : State) : (clearStatus w s).hostQueue = s.hostQueue := rfl
@[simp] theorem clearStatus_hostReads (w : Word) (s : State) : (clearStatus w s).hostReads = s.hostReads := rfl

/-! ### returnToHost -/

@[simp] theorem returnToHost_params (v : Word) (s : State) : (returnToHost v s).params = s.params := rfl
@[simp] theorem returnToHost_irqEn (v : Word) (s : State) : (returnToHost v s).irqEn = s.irqEn := rfl
@[simp] theorem returnToHost_busy (v : Word) (s : State) : (returnToHost v s).busy = s.busy := rfl
@[simp] theorem returnToHost_done (v : Word) (s : State) : (returnToHost v s).done = s.done := rfl
@[simp] theorem returnToHost_dropped (v : Word) (s : State) : (returnToHost v s).dropped = s.dropped := rfl
@[simp] theorem returnToHost_treeValid (v : Word) (s : State) : (returnToHost v s).treeValid = s.treeValid := rfl
@[simp] theorem returnToHost_ctabValid (v : Word) (s : State) : (returnToHost v s).ctabValid = s.ctabValid := rfl
@[simp] theorem returnToHost_singleLeaf (v : Word) (s : State) : (returnToHost v s).singleLeaf = s.singleLeaf := rfl
@[simp] theorem returnToHost_lastOp (v : Word) (s : State) : (returnToHost v s).lastOp = s.lastOp := rfl
@[simp] theorem returnToHost_errCode (v : Word) (s : State) : (returnToHost v s).errCode = s.errCode := rfl
@[simp] theorem returnToHost_errOp (v : Word) (s : State) : (returnToHost v s).errOp = s.errOp := rfl
@[simp] theorem returnToHost_inLen (v : Word) (s : State) : (returnToHost v s).inLen = s.inLen := rfl
@[simp] theorem returnToHost_padIn (v : Word) (s : State) : (returnToHost v s).padIn = s.padIn := rfl
@[simp] theorem returnToHost_outLen (v : Word) (s : State) : (returnToHost v s).outLen = s.outLen := rfl
@[simp] theorem returnToHost_padOut (v : Word) (s : State) : (returnToHost v s).padOut = s.padOut := rfl
@[simp] theorem returnToHost_ibufPtr (v : Word) (s : State) : (returnToHost v s).ibufPtr = s.ibufPtr := rfl
@[simp] theorem returnToHost_obufPtr (v : Word) (s : State) : (returnToHost v s).obufPtr = s.obufPtr := rfl
@[simp] theorem returnToHost_ftCount (v : Word) (s : State) : (returnToHost v s).ftCount = s.ftCount := rfl
@[simp] theorem returnToHost_ftIndex (v : Word) (s : State) : (returnToHost v s).ftIndex = s.ftIndex := rfl
@[simp] theorem returnToHost_ctSym (v : Word) (s : State) : (returnToHost v s).ctSym = s.ctSym := rfl
@[simp] theorem returnToHost_ctWordsel (v : Word) (s : State) : (returnToHost v s).ctWordsel = s.ctWordsel := rfl
@[simp] theorem returnToHost_root (v : Word) (s : State) : (returnToHost v s).root = s.root := rfl
@[simp] theorem returnToHost_nodeCount (v : Word) (s : State) : (returnToHost v s).nodeCount = s.nodeCount := rfl
@[simp] theorem returnToHost_nodeSel (v : Word) (s : State) : (returnToHost v s).nodeSel = s.nodeSel := rfl
@[simp] theorem returnToHost_pending (v : Word) (s : State) : (returnToHost v s).pending = s.pending := rfl
@[simp] theorem returnToHost_ibuf (v : Word) (s : State) : (returnToHost v s).ibuf = s.ibuf := rfl
@[simp] theorem returnToHost_obuf (v : Word) (s : State) : (returnToHost v s).obuf = s.obuf := rfl
@[simp] theorem returnToHost_ftab (v : Word) (s : State) : (returnToHost v s).ftab = s.ftab := rfl
@[simp] theorem returnToHost_node (v : Word) (s : State) : (returnToHost v s).node = s.node := rfl
@[simp] theorem returnToHost_ctab (v : Word) (s : State) : (returnToHost v s).ctab = s.ctab := rfl
@[simp] theorem returnToHost_draws (v : Word) (s : State) : (returnToHost v s).draws = s.draws := rfl
@[simp] theorem returnToHost_engineWait (v : Word) (s : State) : (returnToHost v s).engineWait = s.engineWait := rfl
@[simp] theorem returnToHost_hostQueue (v : Word) (s : State) : (returnToHost v s).hostQueue = s.hostQueue := rfl
@[simp] theorem returnToHost_hostReads (v : Word) (s : State) : (returnToHost v s).hostReads = s.hostReads ++ [v] := rfl

/-! ### takeOp -/

@[simp] theorem takeOp_params (ops : List HostOp) (s : State) : (takeOp ops s).params = s.params := rfl
@[simp] theorem takeOp_irqEn (ops : List HostOp) (s : State) : (takeOp ops s).irqEn = s.irqEn := rfl
@[simp] theorem takeOp_busy (ops : List HostOp) (s : State) : (takeOp ops s).busy = s.busy := rfl
@[simp] theorem takeOp_done (ops : List HostOp) (s : State) : (takeOp ops s).done = s.done := rfl
@[simp] theorem takeOp_dropped (ops : List HostOp) (s : State) : (takeOp ops s).dropped = s.dropped := rfl
@[simp] theorem takeOp_treeValid (ops : List HostOp) (s : State) : (takeOp ops s).treeValid = s.treeValid := rfl
@[simp] theorem takeOp_ctabValid (ops : List HostOp) (s : State) : (takeOp ops s).ctabValid = s.ctabValid := rfl
@[simp] theorem takeOp_singleLeaf (ops : List HostOp) (s : State) : (takeOp ops s).singleLeaf = s.singleLeaf := rfl
@[simp] theorem takeOp_lastOp (ops : List HostOp) (s : State) : (takeOp ops s).lastOp = s.lastOp := rfl
@[simp] theorem takeOp_errCode (ops : List HostOp) (s : State) : (takeOp ops s).errCode = s.errCode := rfl
@[simp] theorem takeOp_errOp (ops : List HostOp) (s : State) : (takeOp ops s).errOp = s.errOp := rfl
@[simp] theorem takeOp_inLen (ops : List HostOp) (s : State) : (takeOp ops s).inLen = s.inLen := rfl
@[simp] theorem takeOp_padIn (ops : List HostOp) (s : State) : (takeOp ops s).padIn = s.padIn := rfl
@[simp] theorem takeOp_outLen (ops : List HostOp) (s : State) : (takeOp ops s).outLen = s.outLen := rfl
@[simp] theorem takeOp_padOut (ops : List HostOp) (s : State) : (takeOp ops s).padOut = s.padOut := rfl
@[simp] theorem takeOp_ibufPtr (ops : List HostOp) (s : State) : (takeOp ops s).ibufPtr = s.ibufPtr := rfl
@[simp] theorem takeOp_obufPtr (ops : List HostOp) (s : State) : (takeOp ops s).obufPtr = s.obufPtr := rfl
@[simp] theorem takeOp_ftCount (ops : List HostOp) (s : State) : (takeOp ops s).ftCount = s.ftCount := rfl
@[simp] theorem takeOp_ftIndex (ops : List HostOp) (s : State) : (takeOp ops s).ftIndex = s.ftIndex := rfl
@[simp] theorem takeOp_ctSym (ops : List HostOp) (s : State) : (takeOp ops s).ctSym = s.ctSym := rfl
@[simp] theorem takeOp_ctWordsel (ops : List HostOp) (s : State) : (takeOp ops s).ctWordsel = s.ctWordsel := rfl
@[simp] theorem takeOp_root (ops : List HostOp) (s : State) : (takeOp ops s).root = s.root := rfl
@[simp] theorem takeOp_nodeCount (ops : List HostOp) (s : State) : (takeOp ops s).nodeCount = s.nodeCount := rfl
@[simp] theorem takeOp_nodeSel (ops : List HostOp) (s : State) : (takeOp ops s).nodeSel = s.nodeSel := rfl
@[simp] theorem takeOp_pending (ops : List HostOp) (s : State) : (takeOp ops s).pending = s.pending := rfl
@[simp] theorem takeOp_ibuf (ops : List HostOp) (s : State) : (takeOp ops s).ibuf = s.ibuf := rfl
@[simp] theorem takeOp_obuf (ops : List HostOp) (s : State) : (takeOp ops s).obuf = s.obuf := rfl
@[simp] theorem takeOp_ftab (ops : List HostOp) (s : State) : (takeOp ops s).ftab = s.ftab := rfl
@[simp] theorem takeOp_node (ops : List HostOp) (s : State) : (takeOp ops s).node = s.node := rfl
@[simp] theorem takeOp_ctab (ops : List HostOp) (s : State) : (takeOp ops s).ctab = s.ctab := rfl
@[simp] theorem takeOp_draws (ops : List HostOp) (s : State) : (takeOp ops s).draws = s.draws := rfl
@[simp] theorem takeOp_engineWait (ops : List HostOp) (s : State) : (takeOp ops s).engineWait = s.engineWait - 1 := rfl
@[simp] theorem takeOp_hostQueue (ops : List HostOp) (s : State) : (takeOp ops s).hostQueue = ops := rfl
@[simp] theorem takeOp_hostReads (ops : List HostOp) (s : State) : (takeOp ops s).hostReads = s.hostReads := rfl

/-! ### pushOps -/

@[simp] theorem pushOps_params (ops : List HostOp) (s : State) : (pushOps ops s).params = s.params := rfl
@[simp] theorem pushOps_irqEn (ops : List HostOp) (s : State) : (pushOps ops s).irqEn = s.irqEn := rfl
@[simp] theorem pushOps_busy (ops : List HostOp) (s : State) : (pushOps ops s).busy = s.busy := rfl
@[simp] theorem pushOps_done (ops : List HostOp) (s : State) : (pushOps ops s).done = s.done := rfl
@[simp] theorem pushOps_dropped (ops : List HostOp) (s : State) : (pushOps ops s).dropped = s.dropped := rfl
@[simp] theorem pushOps_treeValid (ops : List HostOp) (s : State) : (pushOps ops s).treeValid = s.treeValid := rfl
@[simp] theorem pushOps_ctabValid (ops : List HostOp) (s : State) : (pushOps ops s).ctabValid = s.ctabValid := rfl
@[simp] theorem pushOps_singleLeaf (ops : List HostOp) (s : State) : (pushOps ops s).singleLeaf = s.singleLeaf := rfl
@[simp] theorem pushOps_lastOp (ops : List HostOp) (s : State) : (pushOps ops s).lastOp = s.lastOp := rfl
@[simp] theorem pushOps_errCode (ops : List HostOp) (s : State) : (pushOps ops s).errCode = s.errCode := rfl
@[simp] theorem pushOps_errOp (ops : List HostOp) (s : State) : (pushOps ops s).errOp = s.errOp := rfl
@[simp] theorem pushOps_inLen (ops : List HostOp) (s : State) : (pushOps ops s).inLen = s.inLen := rfl
@[simp] theorem pushOps_padIn (ops : List HostOp) (s : State) : (pushOps ops s).padIn = s.padIn := rfl
@[simp] theorem pushOps_outLen (ops : List HostOp) (s : State) : (pushOps ops s).outLen = s.outLen := rfl
@[simp] theorem pushOps_padOut (ops : List HostOp) (s : State) : (pushOps ops s).padOut = s.padOut := rfl
@[simp] theorem pushOps_ibufPtr (ops : List HostOp) (s : State) : (pushOps ops s).ibufPtr = s.ibufPtr := rfl
@[simp] theorem pushOps_obufPtr (ops : List HostOp) (s : State) : (pushOps ops s).obufPtr = s.obufPtr := rfl
@[simp] theorem pushOps_ftCount (ops : List HostOp) (s : State) : (pushOps ops s).ftCount = s.ftCount := rfl
@[simp] theorem pushOps_ftIndex (ops : List HostOp) (s : State) : (pushOps ops s).ftIndex = s.ftIndex := rfl
@[simp] theorem pushOps_ctSym (ops : List HostOp) (s : State) : (pushOps ops s).ctSym = s.ctSym := rfl
@[simp] theorem pushOps_ctWordsel (ops : List HostOp) (s : State) : (pushOps ops s).ctWordsel = s.ctWordsel := rfl
@[simp] theorem pushOps_root (ops : List HostOp) (s : State) : (pushOps ops s).root = s.root := rfl
@[simp] theorem pushOps_nodeCount (ops : List HostOp) (s : State) : (pushOps ops s).nodeCount = s.nodeCount := rfl
@[simp] theorem pushOps_nodeSel (ops : List HostOp) (s : State) : (pushOps ops s).nodeSel = s.nodeSel := rfl
@[simp] theorem pushOps_pending (ops : List HostOp) (s : State) : (pushOps ops s).pending = s.pending := rfl
@[simp] theorem pushOps_ibuf (ops : List HostOp) (s : State) : (pushOps ops s).ibuf = s.ibuf := rfl
@[simp] theorem pushOps_obuf (ops : List HostOp) (s : State) : (pushOps ops s).obuf = s.obuf := rfl
@[simp] theorem pushOps_ftab (ops : List HostOp) (s : State) : (pushOps ops s).ftab = s.ftab := rfl
@[simp] theorem pushOps_node (ops : List HostOp) (s : State) : (pushOps ops s).node = s.node := rfl
@[simp] theorem pushOps_ctab (ops : List HostOp) (s : State) : (pushOps ops s).ctab = s.ctab := rfl
@[simp] theorem pushOps_draws (ops : List HostOp) (s : State) : (pushOps ops s).draws = s.draws := rfl
@[simp] theorem pushOps_engineWait (ops : List HostOp) (s : State) : (pushOps ops s).engineWait = s.engineWait := rfl
@[simp] theorem pushOps_hostQueue (ops : List HostOp) (s : State) : (pushOps ops s).hostQueue = ops ++ s.hostQueue := rfl
@[simp] theorem pushOps_hostReads (ops : List HostOp) (s : State) : (pushOps ops s).hostReads = s.hostReads := rfl

/-! ### installTree -/

@[simp] theorem installTree_params (es : List FtabEntry) (s : State) : (installTree es s).params = s.params := rfl
@[simp] theorem installTree_irqEn (es : List FtabEntry) (s : State) : (installTree es s).irqEn = s.irqEn := rfl
@[simp] theorem installTree_busy (es : List FtabEntry) (s : State) : (installTree es s).busy = s.busy := rfl
@[simp] theorem installTree_done (es : List FtabEntry) (s : State) : (installTree es s).done = s.done := rfl
@[simp] theorem installTree_dropped (es : List FtabEntry) (s : State) : (installTree es s).dropped = s.dropped := rfl
@[simp] theorem installTree_treeValid (es : List FtabEntry) (s : State) : (installTree es s).treeValid = true := rfl
@[simp] theorem installTree_ctabValid (es : List FtabEntry) (s : State) : (installTree es s).ctabValid = false := rfl
@[simp] theorem installTree_singleLeaf (es : List FtabEntry) (s : State) : (installTree es s).singleLeaf = (es.length == 1) := rfl
@[simp] theorem installTree_lastOp (es : List FtabEntry) (s : State) : (installTree es s).lastOp = s.lastOp := rfl
@[simp] theorem installTree_errCode (es : List FtabEntry) (s : State) : (installTree es s).errCode = s.errCode := rfl
@[simp] theorem installTree_errOp (es : List FtabEntry) (s : State) : (installTree es s).errOp = s.errOp := rfl
@[simp] theorem installTree_inLen (es : List FtabEntry) (s : State) : (installTree es s).inLen = s.inLen := rfl
@[simp] theorem installTree_padIn (es : List FtabEntry) (s : State) : (installTree es s).padIn = s.padIn := rfl
@[simp] theorem installTree_outLen (es : List FtabEntry) (s : State) : (installTree es s).outLen = s.outLen := rfl
@[simp] theorem installTree_padOut (es : List FtabEntry) (s : State) : (installTree es s).padOut = s.padOut := rfl
@[simp] theorem installTree_ibufPtr (es : List FtabEntry) (s : State) : (installTree es s).ibufPtr = s.ibufPtr := rfl
@[simp] theorem installTree_obufPtr (es : List FtabEntry) (s : State) : (installTree es s).obufPtr = s.obufPtr := rfl
@[simp] theorem installTree_ftCount (es : List FtabEntry) (s : State) : (installTree es s).ftCount = s.ftCount := rfl
@[simp] theorem installTree_ftIndex (es : List FtabEntry) (s : State) : (installTree es s).ftIndex = s.ftIndex := rfl
@[simp] theorem installTree_ctSym (es : List FtabEntry) (s : State) : (installTree es s).ctSym = s.ctSym := rfl
@[simp] theorem installTree_ctWordsel (es : List FtabEntry) (s : State) : (installTree es s).ctWordsel = s.ctWordsel := rfl
@[simp] theorem installTree_root (es : List FtabEntry) (s : State) : (installTree es s).root = BitVec.ofNat 9 (rootIndex (buildForest es)) := rfl
@[simp] theorem installTree_nodeCount (es : List FtabEntry) (s : State) : (installTree es s).nodeCount = BitVec.ofNat 10 (2 * es.length - 1) := rfl
@[simp] theorem installTree_nodeSel (es : List FtabEntry) (s : State) : (installTree es s).nodeSel = s.nodeSel := rfl
@[simp] theorem installTree_pending (es : List FtabEntry) (s : State) : (installTree es s).pending = s.pending := rfl
@[simp] theorem installTree_ibuf (es : List FtabEntry) (s : State) : (installTree es s).ibuf = s.ibuf := rfl
@[simp] theorem installTree_obuf (es : List FtabEntry) (s : State) : (installTree es s).obuf = s.obuf := rfl
@[simp] theorem installTree_ftab (es : List FtabEntry) (s : State) : (installTree es s).ftab = s.ftab := rfl
@[simp] theorem installTree_node (es : List FtabEntry) (s : State) : (installTree es s).node = overwrite s.node (buildForest es).nodes := rfl
@[simp] theorem installTree_ctab (es : List FtabEntry) (s : State) : (installTree es s).ctab = s.ctab := rfl
@[simp] theorem installTree_draws (es : List FtabEntry) (s : State) : (installTree es s).draws = s.draws := rfl
@[simp] theorem installTree_engineWait (es : List FtabEntry) (s : State) : (installTree es s).engineWait = s.engineWait := rfl
@[simp] theorem installTree_hostQueue (es : List FtabEntry) (s : State) : (installTree es s).hostQueue = s.hostQueue := rfl
@[simp] theorem installTree_hostReads (es : List FtabEntry) (s : State) : (installTree es s).hostReads = s.hostReads := rfl

/-! ### softReset -/

@[simp] theorem softReset_params (s : State) : (softReset s).params = s.params := rfl
@[simp] theorem softReset_irqEn (s : State) : (softReset s).irqEn = false := rfl
@[simp] theorem softReset_busy (s : State) : (softReset s).busy = s.busy := rfl
@[simp] theorem softReset_done (s : State) : (softReset s).done = s.done := rfl
@[simp] theorem softReset_dropped (s : State) : (softReset s).dropped = false := rfl
@[simp] theorem softReset_treeValid (s : State) : (softReset s).treeValid = false := rfl
@[simp] theorem softReset_ctabValid (s : State) : (softReset s).ctabValid = false := rfl
@[simp] theorem softReset_singleLeaf (s : State) : (softReset s).singleLeaf = false := rfl
@[simp] theorem softReset_lastOp (s : State) : (softReset s).lastOp = s.lastOp := rfl
@[simp] theorem softReset_errCode (s : State) : (softReset s).errCode = s.errCode := rfl
@[simp] theorem softReset_errOp (s : State) : (softReset s).errOp = s.errOp := rfl
@[simp] theorem softReset_inLen (s : State) : (softReset s).inLen = 0 := rfl
@[simp] theorem softReset_padIn (s : State) : (softReset s).padIn = 0 := rfl
@[simp] theorem softReset_outLen (s : State) : (softReset s).outLen = 0 := rfl
@[simp] theorem softReset_padOut (s : State) : (softReset s).padOut = 0 := rfl
@[simp] theorem softReset_ibufPtr (s : State) : (softReset s).ibufPtr = 0 := rfl
@[simp] theorem softReset_obufPtr (s : State) : (softReset s).obufPtr = 0 := rfl
@[simp] theorem softReset_ftCount (s : State) : (softReset s).ftCount = 0 := rfl
@[simp] theorem softReset_ftIndex (s : State) : (softReset s).ftIndex = 0 := rfl
@[simp] theorem softReset_ctSym (s : State) : (softReset s).ctSym = 0 := rfl
@[simp] theorem softReset_ctWordsel (s : State) : (softReset s).ctWordsel = 0 := rfl
@[simp] theorem softReset_root (s : State) : (softReset s).root = 0 := rfl
@[simp] theorem softReset_nodeCount (s : State) : (softReset s).nodeCount = 0 := rfl
@[simp] theorem softReset_nodeSel (s : State) : (softReset s).nodeSel = 0 := rfl
@[simp] theorem softReset_pending (s : State) : (softReset s).pending = s.pending := rfl
@[simp] theorem softReset_ibuf (s : State) : (softReset s).ibuf = s.ibuf := rfl
@[simp] theorem softReset_obuf (s : State) : (softReset s).obuf = s.obuf := rfl
@[simp] theorem softReset_ftab (s : State) : (softReset s).ftab = s.ftab := rfl
@[simp] theorem softReset_node (s : State) : (softReset s).node = s.node := rfl
@[simp] theorem softReset_ctab (s : State) : (softReset s).ctab = s.ctab := rfl
@[simp] theorem softReset_draws (s : State) : (softReset s).draws = s.draws := rfl
@[simp] theorem softReset_engineWait (s : State) : (softReset s).engineWait = s.engineWait := rfl
@[simp] theorem softReset_hostQueue (s : State) : (softReset s).hostQueue = s.hostQueue := rfl
@[simp] theorem softReset_hostReads (s : State) : (softReset s).hostReads = s.hostReads := rfl

end Sys2Proof.Machine
end

