-- ==== Sys2Proof/Laws/Bits.lean ====
section
/-! SUPPORT. Bit strings, bytes and words: the value of a bit string bit by bit, and the codes CTAB holds. -/

namespace Sys2Proof.Machine

theorem bitsValue_append (xs : BitString) (b : Bool) : bitsValue (xs ++ [b]) = 2 * bitsValue xs + b.toNat := by
  simp [bitsValue]

/-- Bit `i` of the value of a bit string is its `i`-th bit from the end. -/
theorem testBit_bitsValue (xs : BitString) (i : Nat) : (bitsValue xs).testBit i = xs.reverse[i]?.getD false := by
  induction xs using List.reverseRecOn generalizing i with
  | nil => simp [bitsValue]
  | append_singleton xs b ih =>
    rw [bitsValue_append, List.reverse_append]
    cases i with
    | zero => cases b <;> simp [Nat.testBit_zero]
    | succ i =>
      rw [Nat.testBit_succ]
      have : (2 * bitsValue xs + b.toNat) / 2 = bitsValue xs := by have := b.toNat_lt; omega
      rw [this, ih]
      simp

/-- Bit `7 - j` of a packed byte is bit `j` of the bits packed (00_scope R10). -/
theorem packByte_getLsbD (bits : BitString) (h : bits.length = 8) (j : Nat) (hj : j < 8) :
    (packByte bits).getLsbD (7 - j) = bits[j]?.getD false := by
  rw [packByte, BitVec.getLsbD_ofNat, testBit_bitsValue, List.getElem?_reverse (by omega)]
  have h2 : bits.length - 1 - (7 - j) = j := by omega
  have h1 : 7 - j < 8 := by omega
  simp [h2, h1]

@[simp] theorem byteBits_length (b : Byte) : (byteBits b).length = 8 := by simp [byteBits]

/-- Unpacking a packed byte gives its bits back. -/
theorem byteBits_packByte (bits : BitString) (h : bits.length = 8) : byteBits (packByte bits) = bits := by
  apply List.ext_getElem (by simp [h])
  intro j h1 h2
  simp only [byteBits, List.getElem_map, List.getElem_range]
  rw [packByte_getLsbD bits h j (by omega)]
  simp [h2]

@[simp] theorem packBytes_length (m : Nat) (bits : BitString) : (packBytes m bits).length = m := by
  induction m generalizing bits with
  | zero => rfl
  | succ m ih => simp [packBytes, ih]

/-- Byte `k` packs the bits `8k` to `8k + 7`. -/
theorem packBytes_getElem (m : Nat) (bits : BitString) (k : Nat) (h : k < (packBytes m bits).length) :
    (packBytes m bits)[k] = packByte ((bits.drop (8 * k)).take 8) := by
  induction m generalizing bits k with
  | zero => simp [packBytes] at h
  | succ m ih =>
    cases k with
    | zero => simp [packBytes]
    | succ k =>
      simp only [packBytes, List.getElem_cons_succ]
      rw [ih, List.drop_drop]
      congr 3
      omega

/-- Unpacking packed bytes gives the bits back, when they fill whole bytes (43_packer R214, 44_decoder R234). -/
theorem flatMap_byteBits_packBytes (m : Nat) (bits : BitString) (h : bits.length = 8 * m) :
    (packBytes m bits).flatMap byteBits = bits := by
  induction m generalizing bits with
  | zero =>
    have : bits = [] := List.length_eq_zero_iff.mp (by simpa using h)
    simp [packBytes, this]
  | succ m ih =>
    rw [packBytes, List.flatMap_cons, byteBits_packByte _ (by simp; omega), ih _ (by simp; omega)]
    exact List.take_append_drop 8 bits

theorem padCount_lt (n : Nat) : padCount n < 8 := Nat.mod_lt _ (by omega)

/-- The padded sequence fills whole bytes (43_packer R215). -/
theorem padded_length_mod (bits : BitString) : (padded bits).length % 8 = 0 := by
  simp [padded, padCount]; omega

/-- 8 times the number of packed bytes is the number of bits plus the padding count (43_packer R218 (a)). -/
theorem eight_mul_packedBytes (bits : BitString) :
    8 * (packedBytes bits).length = bits.length + padCount bits.length := by
  simp [packedBytes, padded, padCount]; omega

/-- Unpacking the packed bytes gives the bits and the padding (43_packer R214). -/
theorem flatMap_byteBits_packedBytes (bits : BitString) :
    (packedBytes bits).flatMap byteBits = bits ++ List.replicate (padCount bits.length) false := by
  have := padded_length_mod bits
  rw [packedBytes, flatMap_byteBits_packBytes _ _ (by omega), padded]

@[simp] theorem CodeEntry.bits_length (e : CodeEntry) : e.bits.length = e.len.toNat := by simp [CodeEntry.bits]

/-- CTAB gives back every code it can hold (10_state R46). -/
theorem CodeEntry.bits_ofBits (p : BitString) (h : p.length ≤ 255) : (CodeEntry.ofBits p).bits = p := by
  have hl : p.length % 256 = p.length := Nat.mod_eq_of_lt (by omega)
  apply List.ext_getElem
  · simp [CodeEntry.ofBits, hl]
  · intro i h1 h2
    have : i < 255 := by omega
    simp [CodeEntry.bits, CodeEntry.ofBits, this, h2]

/-- Code bits from the length on are 0 (42_code_table R192). -/
theorem CodeEntry.ofBits_beyond (p : BitString) (i : Nat) (h : p.length ≤ i) :
    (CodeEntry.ofBits p).code.getLsbD i = false := by
  simp [CodeEntry.ofBits]
  intro _
  simp [h]

end Sys2Proof.Machine
end

