-- ==== Sys2Proof/Laws/Run.lean ====
section
/-! SUPPORT. How a command's pseudocode runs: a sequence succeeds exactly when each part does, and what the end of a command
makes of its result. -/

namespace Sys2Proof.Machine

variable {α β ε : Type}

/-- A sequence of two parts succeeds exactly when both do. -/
theorem bind_eq_ok {x : Except ε α} {f : α → Except ε β} {b : β} :
    (x >>= f) = .ok b ↔ ∃ a, x = .ok a ∧ f a = .ok b := by
  cases x <;> simp [bind, Except.bind]

/-- A sequence of two parts stops exactly when the first does, or the first succeeds and the second stops. -/
theorem bind_eq_error {x : Except ε α} {f : α → Except ε β} {e : ε} :
    (x >>= f) = .error e ↔ x = .error e ∨ ∃ a, x = .ok a ∧ f a = .error e := by
  cases x <;> simp [bind, Except.bind]

/-- A mapped result succeeds exactly when the result does. -/
theorem map_eq_ok {x : Except ε α} {f : α → β} {b : β} : x.map f = .ok b ↔ ∃ a, x = .ok a ∧ f a = b := by
  cases x <;> simp [Except.map]

theorem map_eq_error {x : Except ε α} {f : α → β} {e : ε} : x.map f = .error e ↔ x = .error e := by
  cases x <;> simp [Except.map]

@[simp] theorem ok_bind (a : α) (f : α → Except ε β) : (Except.ok a >>= f) = f a := rfl

@[simp] theorem error_bind (e : ε) (f : α → Except ε β) : (Except.error e >>= f) = .error e := rfl

theorem raiseIf_eq_ok {c : Prop} [Decidable c] {code : CmdError} {u : Unit} : raiseIf c code = .ok u ↔ ¬ c := by
  unfold raiseIf; split <;> simp_all

theorem raiseIf_eq_error {c : Prop} [Decidable c] {code : CmdError} {e : Stop} :
    raiseIf c code = .error e ↔ c ∧ e = .cmdError code := by
  unfold raiseIf; split <;> simp_all [eq_comm]

theorem raiseIf_true {c : Prop} [Decidable c] {code : CmdError} (h : c) : raiseIf c code = .error (.cmdError code) := by
  simp [raiseIf, h]

theorem raiseIf_false {c : Prop} [Decidable c] {code : CmdError} (h : ¬ c) : raiseIf c code = .ok () := by
  simp [raiseIf, h]

@[simp] theorem orFault_ok (a : α) : orFault (Except.ok a) = .ok a := rfl

@[simp] theorem orFault_error (f : Fault) : orFault (Except.error f : Except Fault α) = .error (.fault f) := rfl

theorem orFault_eq_ok {x : Except Fault α} {a : α} : orFault x = .ok a ↔ x = .ok a := by
  cases x <;> simp

theorem orFault_eq_error {x : Except Fault α} {e : Stop} : orFault x = .error e ↔ ∃ f, x = .error f ∧ e = .fault f := by
  cases x <;> simp [eq_comm]

/-- Everything the end of a command can answer with a next state: the completed result, or the error record with what
R285 adds. -/
theorem finishCommand_eq_next {g : CmdError → State → State} {s t : State} {r : Except Stop State} :
    finishCommand g s r = .next t ↔
      (∃ u, r = .ok u ∧ t = complete u) ∨ ∃ c, r = .error (.cmdError c) ∧ t = g c (raiseCmdError c s) := by
  unfold finishCommand
  split <;> simp [eq_comm]

/-- A command stops with a fault exactly when its pseudocode does. -/
theorem finishCommand_eq_fault {g : CmdError → State → State} {s : State} {r : Except Stop State} {f : Fault} :
    finishCommand g s r = .fault f ↔ r = .error (.fault f) := by
  unfold finishCommand
  split <;> simp

/-- No command is refused at its end. -/
theorem finishCommand_ne_refused {g : CmdError → State → State} {s : State} {r : Except Stop State} {q : Refusal} :
    finishCommand g s r ≠ .refused q := by
  unfold finishCommand
  split <;> simp

@[simp] theorem finishCommand_ok (g : CmdError → State → State) (s t : State) :
    finishCommand g s (.ok t) = .next (complete t) := rfl

@[simp] theorem finishCommand_cmdError (g : CmdError → State → State) (s : State) (c : CmdError) :
    finishCommand g s (.error (.cmdError c)) = .next (g c (raiseCmdError c s)) := rfl

@[simp] theorem finishCommand_fault (g : CmdError → State → State) (s : State) (f : Fault) :
    finishCommand g s (.error (.fault f)) = .fault f := rfl

end Sys2Proof.Machine
end

