-- ==== Sys2Proof/Laws/Operands.lean ====
section
/-! SUPPORT. Operands and tables: when reads of IBUF, FTAB and NODE succeed and what they give; writes of tables. -/

namespace Sys2Proof.Machine

theorem readIbuf_eq_ok {s : State} {a : Nat} {b : Byte} : readIbuf s a = .ok b ↔ s.ibuf.read a = some b := by
  unfold readIbuf; split <;> simp_all

theorem readIbuf_eq_error {s : State} {a : Nat} {f : Fault} :
    readIbuf s a = .error f ↔ s.ibuf.read a = none ∧ f = .unwrittenIbuf a := by
  unfold readIbuf; cases s.ibuf.read a <;> simp [eq_comm]

/-- Reading `n` bytes gives `bs` exactly when `bs` are the `n` bytes written there. -/
theorem readIbufBytes_eq_ok {s : State} {a n : Nat} {bs : List Byte} :
    readIbufBytes s a n = .ok bs ↔ bs.length = n ∧ ∀ i (h : i < bs.length), s.ibuf.read (a + i) = some bs[i] := by
  induction n generalizing a bs with
  | zero =>
    simp only [readIbufBytes, Except.ok.injEq]
    constructor
    · rintro rfl; simp
    · rintro ⟨h, -⟩; exact (List.length_eq_zero_iff.mp h).symm
  | succ n ih =>
    simp only [readIbufBytes, bind_eq_ok, readIbuf_eq_ok, ih, Except.ok.injEq]
    constructor
    · rintro ⟨b, hb, bs, ⟨hl, hbs⟩, rfl⟩
      refine ⟨by simp [hl], fun i h => ?_⟩
      cases i with
      | zero => simpa using hb
      | succ i =>
        have := hbs i (by simpa using h)
        rw [Nat.add_right_comm] at this
        simpa [Nat.add_assoc] using this
    · rintro ⟨hl, hbs⟩
      cases bs with
      | nil => simp at hl
      | cons b bs =>
        refine ⟨b, hbs 0 (by simp), bs, ⟨by simpa using hl, fun i h => ?_⟩, rfl⟩
        have := hbs (i + 1) (by simpa using h)
        simpa [Nat.add_assoc, Nat.add_comm 1 i] using this

/-- Reading `n` bytes faults exactly at the first of them that nothing has written (93_implementation_defined U1). -/
theorem readIbufBytes_eq_error {s : State} {a n : Nat} {f : Fault} :
    readIbufBytes s a n = .error f ↔
      ∃ i, i < n ∧ s.ibuf.read (a + i) = none ∧ (∀ j, j < i → s.ibuf.read (a + j) ≠ none) ∧ f = .unwrittenIbuf (a + i) := by
  induction n generalizing a with
  | zero => simp [readIbufBytes]
  | succ n ih =>
    simp only [readIbufBytes, bind_eq_error, readIbuf_eq_error, readIbuf_eq_ok, ih, reduceCtorEq, and_false, exists_false,
      or_false]
    constructor
    · rintro (⟨h, rfl⟩ | ⟨b, hb, i, hi, hn, hj, rfl⟩)
      · exact ⟨0, by omega, by simpa using h, by simp, by simp⟩
      · refine ⟨i + 1, by omega, by rw [← hn]; congr 1; omega, fun j hji => ?_, by congr 1; omega⟩
        cases j with
        | zero => simp [hb]
        | succ j => have := hj j (by omega); rwa [Nat.add_assoc, Nat.add_comm 1 j] at this
    · rintro ⟨i, hi, hn, hj, rfl⟩
      cases i with
      | zero => exact .inl ⟨by simpa using hn, by simp⟩
      | succ i =>
        obtain ⟨b, hb⟩ := Option.ne_none_iff_exists'.mp (hj 0 (by omega))
        refine .inr ⟨b, by simpa using hb, i, by omega, by rw [← hn]; congr 1; omega, fun j hji => ?_, by congr 1; omega⟩
        have := hj (j + 1) (by omega)
        rwa [Nat.add_assoc, Nat.add_comm 1 j]

theorem checkInLen_eq_ok {s : State} {u : Unit} : checkInLen s = .ok u ↔ s.inLen.toNat ≤ s.params.ibufSize := by
  rw [checkInLen, raiseIf_eq_ok]; omega

theorem checkInLen_eq_error {s : State} {e : Stop} :
    checkInLen s = .error e ↔ s.params.ibufSize < s.inLen.toNat ∧ e = .cmdError .badLength := by
  rw [checkInLen, raiseIf_eq_error]

theorem readFtab_eq_ok {s : State} {i : Nat} {e : FtabEntry} : readFtab s i = .ok e ↔ s.ftab[i]?.join = some e := by
  unfold readFtab; split <;> simp_all

theorem readFtab_eq_error {s : State} {i : Nat} {f : Fault} :
    readFtab s i = .error f ↔ s.ftab[i]?.join = none ∧ f = .unwrittenFtab i := by
  unfold readFtab; cases s.ftab[i]?.join <;> simp [eq_comm]

theorem readNode_eq_ok {s : State} {k : BitVec 9} {n : Node} : readNode s k = .ok n ↔ s.node[k.toNat]? = some n := by
  unfold readNode; split <;> simp_all

theorem readNode_eq_error {s : State} {k : BitVec 9} {f : Fault} :
    readNode s k = .error f ↔ 511 ≤ k.toNat ∧ f = .arenaCorrupt := by
  unfold readNode; split
  · simp; omega
  · simp [eq_comm]; omega

/-- A table entry after a write of one. -/
theorem ctabAt_ctabSet (t : Vector CodeEntry 256) (a b : Byte) (e : CodeEntry) :
    ctabAt (ctabSet t a e) b = if b = a then e else ctabAt t b := by
  unfold ctabAt ctabSet
  rw [Vector.getElem_set]
  by_cases h : b = a
  · subst h; simp
  · have : a.toNat ≠ b.toNat := fun h' => h (BitVec.eq_of_toNat_eq h'.symm)
    simp [h, this]

@[simp] theorem ctabAt_replicate (e : CodeEntry) (b : Byte) : ctabAt (Vector.replicate 256 e) b = e := by
  simp [ctabAt]

/-- Entry `k` of a table whose first entries are replaced. -/
theorem overwrite_getElem {α : Type} {n : Nat} (t : Vector α n) (l : List α) (k : Nat) (h : k < n) :
    (overwrite t l)[k] = if h' : k < l.length then l[k] else t[k] := by
  unfold overwrite
  simp only [Vector.getElem_mk, List.getElem_toArray, List.getElem_take, List.getElem_append]
  split
  · rfl
  · simp only [List.getElem_drop, Vector.getElem_toList]
    congr 1
    omega

/-- Replacing the first entries twice by the same ones changes nothing the second time. -/
theorem overwrite_overwrite {α : Type} {n : Nat} (t : Vector α n) (l : List α) :
    overwrite (overwrite t l) l = overwrite t l := by
  apply Vector.ext
  intro k hk
  simp only [overwrite_getElem]
  split <;> rfl

end Sys2Proof.Machine
end

