-- ==== Sys2Proof/Laws/Forest.lean ====
section
/-! SUPPORT. The construction of the tree: taking the lowest key, and the sizes of arena and LIVE after each pass. -/

namespace Sys2Proof.Machine

theorem Key.before_iff (a b : Key) :
    a.before b = true ↔ a.freq.toNat < b.freq.toNat ∨ (a.freq.toNat = b.freq.toNat ∧ a.index < b.index) := by
  simp [Key.before, BitVec.lt_def, BitVec.toNat_eq]

/-- LIVE is empty exactly when there is no lowest member. -/
theorem takeMin_eq_none {l : List Key} : takeMin l = none ↔ l = [] := by
  cases l with
  | nil => simp [takeMin]
  | cons k ks =>
    simp only [takeMin]
    split
    · simp
    · split <;> simp

/-- Taking the lowest key splits LIVE into it and the others. -/
theorem takeMin_perm {l rest : List Key} {m : Key} (h : takeMin l = some (m, rest)) : l.Perm (m :: rest) := by
  induction l generalizing m rest with
  | nil => simp [takeMin] at h
  | cons k ks ih =>
    simp only [takeMin] at h
    split at h
    · rename_i hn
      rw [takeMin_eq_none] at hn
      simp only [Option.some.injEq, Prod.mk.injEq] at h
      obtain ⟨rfl, rfl⟩ := h
      rw [hn]
    · rename_i m' rest' hs
      split at h
      · simp only [Option.some.injEq, Prod.mk.injEq] at h
        obtain ⟨rfl, rfl⟩ := h
        rfl
      · simp only [Option.some.injEq, Prod.mk.injEq] at h
        obtain ⟨rfl, rfl⟩ := h
        exact ((ih hs).cons k).trans (List.Perm.swap _ _ _)

/-- No other member comes before the one taken (41_tree_builder R174, R175). -/
theorem takeMin_min {l rest : List Key} {m : Key} (h : takeMin l = some (m, rest)) :
    ∀ k ∈ rest, k.before m = false := by
  induction l generalizing m rest with
  | nil => simp [takeMin] at h
  | cons k ks ih =>
    simp only [takeMin] at h
    split at h
    · simp only [Option.some.injEq, Prod.mk.injEq] at h
      obtain ⟨rfl, rfl⟩ := h
      simp
    · rename_i m' rest' hs
      have hmin := ih hs
      split at h
      · rename_i hb
        simp only [Option.some.injEq, Prod.mk.injEq] at h
        obtain ⟨rfl, rfl⟩ := h
        rw [Key.before_iff] at hb
        intro j hj
        rcases List.mem_cons.mp ((takeMin_perm hs).mem_iff.mp hj) with rfl | hj
        · rw [← Bool.not_eq_true, Key.before_iff]; omega
        · have := hmin j hj
          rw [← Bool.not_eq_true, Key.before_iff] at this ⊢
          omega
      · rename_i hb
        simp only [Option.some.injEq, Prod.mk.injEq] at h
        obtain ⟨rfl, rfl⟩ := h
        intro j hj
        rcases List.mem_cons.mp hj with rfl | hj
        · simpa using hb
        · exact hmin j hj

theorem takeMin_length {l rest : List Key} {m : Key} (h : takeMin l = some (m, rest)) : l.length = rest.length + 1 := by
  simpa using (takeMin_perm h).length_eq

/-- A pass with at least two members in LIVE: the two lowest are taken, and the node over them is made (R174). -/
theorem mergePass_two {f : Forest} (h : 2 ≤ f.live.length) :
    ∃ a b rest others, takeMin f.live = some (a, rest) ∧ takeMin rest = some (b, others) ∧
      mergePass f = { nodes := f.nodes ++ [internalNode a b]
                      live := others ++ [{ freq := a.freq + b.freq, index := f.nodes.length }] } := by
  rcases ha : takeMin f.live with _ | ⟨a, rest⟩
  · rw [takeMin_eq_none] at ha; rw [ha] at h; simp at h
  · have hl := takeMin_length ha
    rcases hb : takeMin rest with _ | ⟨b, others⟩
    · rw [takeMin_eq_none] at hb; rw [hb] at hl; simp at hl; omega
    · exact ⟨a, b, rest, others, rfl, hb, by simp only [mergePass, ha, hb]⟩

/-- Each pass makes one node and removes one member of LIVE in all, while LIVE has two (41_tree_builder R176). -/
theorem mergePass_lengths {f : Forest} (h : 2 ≤ f.live.length) :
    (mergePass f).nodes.length = f.nodes.length + 1 ∧ (mergePass f).live.length + 1 = f.live.length := by
  obtain ⟨a, b, rest, others, ha, hb, hp⟩ := mergePass_two h
  have := takeMin_length ha
  have := takeMin_length hb
  rw [hp]
  simp
  omega

theorem mergePasses_lengths (n : Nat) {f : Forest} (h : n + 1 ≤ f.live.length) :
    (mergePasses n f).nodes.length = f.nodes.length + n ∧ (mergePasses n f).live.length + n = f.live.length := by
  induction n generalizing f with
  | zero => simp [mergePasses]
  | succ n ih =>
    have hp := mergePass_lengths (f := f) (by omega)
    have := ih (f := mergePass f) (by omega)
    rw [mergePasses]
    omega

/-- A table of n entries makes 2n - 1 arena entries, and one member stays in LIVE (41_tree_builder R176). -/
theorem buildForest_lengths {es : List FtabEntry} (h : 1 ≤ es.length) :
    (buildForest es).nodes.length = 2 * es.length - 1 ∧ (buildForest es).live.length = 1 := by
  have hs : (seed es).nodes.length = es.length ∧ (seed es).live.length = es.length := by simp [seed]
  have := mergePasses_lengths (es.length - 1) (f := seed es) (by omega)
  rw [buildForest]
  omega

/-- A pass keeps the nodes made before it. -/
theorem mergePass_nodes (f : Forest) : ∃ more, (mergePass f).nodes = f.nodes ++ more := by
  unfold mergePass
  split
  · exact ⟨[], by simp⟩
  · split
    · exact ⟨[], by simp⟩
    · exact ⟨_, rfl⟩

theorem mergePasses_nodes (n : Nat) (f : Forest) : ∃ more, (mergePasses n f).nodes = f.nodes ++ more := by
  induction n generalizing f with
  | zero => exact ⟨[], by simp [mergePasses]⟩
  | succ n ih =>
    obtain ⟨m1, h1⟩ := mergePass_nodes f
    obtain ⟨m2, h2⟩ := ih (mergePass f)
    exact ⟨m1 ++ m2, by rw [mergePasses, h2, h1, List.append_assoc]⟩

end Sys2Proof.Machine
end

