-- ==== Sys2Proof/Laws/Memory.lean ====
section
/-! SUPPORT. Byte memories: a read after a write, what a write leaves alone, and that every operation keeps the canonical
form and the bounds of the buffer. -/

namespace Sys2Proof.Machine.Memory

theorem read_write_same (m : Memory) (x : Nat) (v : Byte) : read (write m x v) x = some v := by
  induction m with
  | nil => simp [write, read]
  | cons c m ih =>
    obtain ⟨a, b⟩ := c
    unfold write
    split
    · simp [read]
    · split
      · simp [read]
      · rename_i h; simp [read, h, ih]

theorem read_write_other (m : Memory) {x y : Nat} (v : Byte) (h : y ≠ x) : read (write m x v) y = read m y := by
  induction m with
  | nil => simp [write, read, h]
  | cons c m ih =>
    obtain ⟨a, b⟩ := c
    unfold write
    split
    · rw [read, if_neg h]
    · split
      · rename_i hx; subst hx; simp [read, h]
      · simp [read, ih]

/-- A read after a write, at any address. -/
theorem read_write (m : Memory) (x y : Nat) (v : Byte) : read (write m x v) y = if y = x then some v else read m y := by
  split
  · rename_i h; subst h; exact read_write_same m y v
  · rename_i h; exact read_write_other m v h

/-- The addresses after a write are those before it and the one written. -/
theorem mem_write {m : Memory} {x : Nat} {v : Byte} {c : Host.Cell} (h : c ∈ write m x v) : c.1 = x ∨ c ∈ m := by
  induction m with
  | nil => simp [write] at h; simp [h]
  | cons d m ih =>
    obtain ⟨a, b⟩ := d
    unfold write at h
    split at h
    · rcases List.mem_cons.mp h with h | h
      · simp [h]
      · exact .inr h
    · split at h
      · rcases List.mem_cons.mp h with h | h
        · simp [h]
        · exact .inr (List.mem_cons_of_mem _ h)
      · rcases List.mem_cons.mp h with h | h
        · exact .inr (by simp [h])
        · exact (ih h).imp_right (List.mem_cons_of_mem _)

theorem write_wf {m : Memory} (h : m.wf) (x : Nat) (v : Byte) : (write m x v).wf := by
  induction m with
  | nil => simp [write, wf]
  | cons c m ih =>
    obtain ⟨a, b⟩ := c
    have hm := List.pairwise_cons.mp h
    unfold write
    split
    · rename_i hx
      refine List.pairwise_cons.mpr ⟨?_, h⟩
      intro y hy
      rcases List.mem_cons.mp hy with rfl | hy
      · exact hx
      · exact Nat.lt_trans hx (hm.1 y hy)
    · split
      · rename_i hx
        subst hx
        exact h
      · rename_i h1 h2
        refine List.pairwise_cons.mpr ⟨?_, ih hm.2⟩
        intro y hy
        obtain ⟨c, hc, rfl⟩ := List.mem_map.mp hy
        rcases mem_write hc with hx | hc
        · show a < c.1
          omega
        · exact hm.1 _ (List.mem_map_of_mem hc)

theorem within_nil (size : Nat) : within [] size := by simp [within]

theorem write_within {m : Memory} {size x : Nat} (h : m.within size) (hx : x < size) (v : Byte) :
    (write m x v).within size := by
  intro c hc
  rcases mem_write hc with hc | hc
  · omega
  · exact h c hc

theorem writeBytes_wf {m : Memory} (h : m.wf) (x : Nat) (vs : List Byte) : (writeBytes m x vs).wf := by
  induction vs generalizing m x with
  | nil => exact h
  | cons v vs ih => exact ih (write_wf h x v) _

theorem writeBytes_within {m : Memory} {size x : Nat} (h : m.within size) (vs : List Byte) (hx : x + vs.length ≤ size) :
    (writeBytes m x vs).within size := by
  induction vs generalizing m x with
  | nil => exact h
  | cons v vs ih =>
    rw [List.length_cons] at hx
    exact ih (write_within h (by omega) v) (by omega)

/-- Consecutive bytes: the bytes written read back, and every other address reads as before. -/
theorem read_writeBytes (m : Memory) (x : Nat) (vs : List Byte) (y : Nat) :
    read (writeBytes m x vs) y = if h : x ≤ y ∧ y - x < vs.length then some (vs[y - x]'h.2) else read m y := by
  induction vs generalizing m x with
  | nil => simp [writeBytes]
  | cons v vs ih =>
    rw [writeBytes, ih]
    by_cases h1 : y = x
    · subst h1
      simp [read_write_same]
    · rw [read_write_other _ _ h1]
      by_cases h2 : x + 1 ≤ y ∧ y - (x + 1) < vs.length
      · have h3 : x ≤ y ∧ y - x < (v :: vs).length := by simp; omega
        rw [dif_pos h2, dif_pos h3]
        congr 1
        rw [List.getElem_cons, dif_neg (by omega)]
        congr 1
      · have h3 : ¬ (x ≤ y ∧ y - x < (v :: vs).length) := by simp; omega
        rw [dif_neg h2, dif_neg h3]

/-- The bytes of a draw: each address reads its own free byte. -/
theorem read_drawn (d x n y : Nat) :
    read (drawn d x n) y = if x ≤ y ∧ y < x + n then some (Config.freeByte d y) else none := by
  induction n generalizing x with
  | zero => simp [drawn, read]
  | succ n ih =>
    rw [drawn, read, ih]
    by_cases h : y = x
    · subst h; simp
    · rw [if_neg h]
      congr 1
      exact propext (by omega)

theorem mem_drawn {d x n : Nat} {c : Host.Cell} (h : c ∈ drawn d x n) : x ≤ c.1 ∧ c.1 < x + n := by
  induction n generalizing x with
  | zero => simp [drawn] at h
  | succ n ih =>
    rcases List.mem_cons.mp h with h | h
    · subst h; simp
    · have := ih h; omega

theorem drawn_wf (d x n : Nat) : (drawn d x n).wf := by
  induction n generalizing x with
  | zero => simp [drawn, wf]
  | succ n ih =>
    refine List.pairwise_cons.mpr ⟨?_, ih _⟩
    intro y hy
    obtain ⟨c, hc, rfl⟩ := List.mem_map.mp hy
    have := mem_drawn hc
    show x < c.1
    omega

theorem drawn_within (d n : Nat) : (drawn d 0 n).within n := by
  intro c hc
  have := mem_drawn hc
  omega

end Sys2Proof.Machine.Memory
end

