-- ==== Sys2Proof/Laws/Commands.lean ====
section
/-! SUPPORT. What each command's pseudocode can do: when it succeeds and with what state, cited by proofs instead of
unfolding the meanings. -/

namespace Sys2Proof.Machine

/-! ### COUNT -/

/-- COUNT succeeds exactly on an input that fits and was written, and then installs its table (40_frequency_counter R151,
R152). -/
theorem countBody_eq_ok {s t : State} :
    countBody s = .ok t ↔ s.inLen.toNat ≤ s.params.ibufSize ∧ ∃ bytes, HoldsInput s bytes ∧
      t = invalidateTree { s with
        ftab := countTable bytes
        ftCount := BitVec.ofNat 9 (countEntries bytes).length
        ftIndex := 0 } := by
  simp only [countBody, bind_eq_ok, checkInLen_eq_ok, orFault_eq_ok, readIbufBytes_eq_ok, Except.ok.injEq, HoldsInput,
    Nat.zero_add]
  constructor
  · rintro ⟨-, h, bytes, ⟨hl, hb⟩, rfl⟩
    exact ⟨h, bytes, ⟨hl.symm, hb⟩, rfl⟩
  · rintro ⟨h, bytes, ⟨hl, hb⟩, rfl⟩
    exact ⟨(), h, bytes, ⟨hl.symm, hb⟩, rfl⟩

/-- The only command error of COUNT's own is BAD_LENGTH (R151). -/
theorem countBody_eq_cmdError {s : State} {c : CmdError} :
    countBody s = .error (.cmdError c) ↔ s.params.ibufSize < s.inLen.toNat ∧ c = .badLength := by
  simp only [countBody, bind_eq_error, checkInLen_eq_error, orFault_eq_error]
  simp

/-- The entry COUNT makes for a symbol carries that symbol (R152). -/
theorem countEntry_sym {bytes : List Byte} {k : Nat} {e : FtabEntry} (h : countEntry bytes k = some e) :
    e.sym = BitVec.ofNat 8 k ∧ e.freq = BitVec.ofNat 32 (bytes.count e.sym) ∧ 0 < bytes.count e.sym := by
  simp only [countEntry] at h
  split at h
  · rename_i hc
    obtain rfl := (Option.some.injEq _ _).mp h
    exact ⟨rfl, rfl, hc⟩
  · simp at h

theorem countEntries_length_le (bytes : List Byte) : (countEntries bytes).length ≤ 256 := by
  refine (List.length_filterMap_le _ _).trans ?_
  simp [Config.nsym]

/-! ### BUILD -/

/-- The entries read pass the frequency check, in index order (41_tree_builder R171). -/
theorem readEntries_eq_ok {s : State} {i n : Nat} {es : List FtabEntry} :
    readEntries s i n = .ok es ↔ es.length = n ∧ ∀ j (h : j < es.length),
      s.ftab[i + j]?.join = some es[j] ∧ 1 ≤ es[j].freq.toNat ∧ es[j].freq.toNat < 2 ^ 31 := by
  induction n generalizing i es with
  | zero =>
    simp only [readEntries, Except.ok.injEq]
    constructor
    · rintro rfl; simp
    · rintro ⟨h, -⟩; exact (List.length_eq_zero_iff.mp h).symm
  | succ n ih =>
    simp only [readEntries, bind_eq_ok, orFault_eq_ok, readFtab_eq_ok, raiseIf_eq_ok, ih, Except.ok.injEq]
    simp only [Config.freqLimit]
    constructor
    · rintro ⟨e, he, -, hf, es, ⟨hl, hes⟩, rfl⟩
      refine ⟨by simp [hl], fun j h => ?_⟩
      cases j with
      | zero => exact ⟨he, by show 1 ≤ e.freq.toNat; omega, by show e.freq.toNat < 2 ^ 31; omega⟩
      | succ j =>
        have := hes j (by simpa using h)
        rw [Nat.add_right_comm] at this
        simpa [Nat.add_assoc] using this
    · rintro ⟨hl, hes⟩
      cases es with
      | nil => simp at hl
      | cons e es =>
        have h0 := hes 0 (by simp)
        have h1 : 1 ≤ e.freq.toNat ∧ e.freq.toNat < 2 ^ 31 := h0.2
        refine ⟨e, h0.1, (), by omega, es, ⟨by simpa using hl, fun j h => ?_⟩, rfl⟩
        have := hes (j + 1) (by simpa using h)
        simpa [Nat.add_assoc, Nat.add_comm 1 j] using this

/-- The checks of BUILD pass exactly on a good table that FTAB holds (41_tree_builder R171). -/
theorem checkedTable_eq_ok {s : State} {es : List FtabEntry} :
    checkedTable s = .ok es ↔ HoldsTable s es ∧ GoodTable es := by
  simp only [checkedTable, bind_eq_ok, raiseIf_eq_ok, readEntries_eq_ok, Except.ok.injEq, HoldsTable, GoodTable,
    Nat.zero_add, not_not]
  simp only [Config.nsym]
  constructor
  · rintro ⟨-, h0, -, h1, es', ⟨hl, hes⟩, -, hd, rfl⟩
    refine ⟨⟨hl.symm, fun i h => (hes i h).1⟩, by omega, by omega, fun e he => ?_, hd⟩
    obtain ⟨i, hi, rfl⟩ := List.getElem_of_mem he
    exact (hes i hi).2
  · rintro ⟨⟨hl, hes⟩, h1, h2, hf, hd⟩
    exact ⟨(), by omega, (), by omega, es, ⟨hl.symm, fun j h => ⟨hes j h, hf _ (List.getElem_mem h)⟩⟩, (), hd, rfl⟩

theorem buildBody_eq_ok {s t : State} :
    buildBody s = .ok t ↔ ∃ es, (HoldsTable s es ∧ GoodTable es) ∧ t = installTree es s := by
  simp only [buildBody, bind_eq_ok, checkedTable_eq_ok, Except.ok.injEq]
  constructor <;> rintro ⟨es, h, rfl⟩ <;> exact ⟨es, h, rfl⟩

/-- Installing a tree again changes nothing but CTAB_VALID (R183): the arena entries are the same. -/
theorem installTree_installTree (es : List FtabEntry) (s : State) :
    installTree es (installTree es s) = installTree es s := by
  simp only [installTree, overwrite_overwrite]

/-! ### GENCODES -/

theorem genCodesBody_eq_ok {s t : State} :
    genCodesBody s = .ok t ↔ s.treeValid = true ∧ ∃ a, codeAssignments s = .ok a ∧
      t = { s with ctab := codeTable a, ctabValid := true } := by
  simp only [genCodesBody, bind_eq_ok, raiseIf_eq_ok, Except.ok.injEq, Bool.not_eq_false]
  constructor
  · rintro ⟨-, h, a, ha, rfl⟩; exact ⟨h, a, ha, rfl⟩
  · rintro ⟨h, a, ha, rfl⟩; exact ⟨(), h, a, ha, rfl⟩

/-- A traversal raises no command error. -/
theorem visit_ne_cmdError (s : State) (d : Nat) (k : BitVec 9) (p : BitString) (c : CmdError) :
    visit s d k p ≠ .error (.cmdError c) := by
  induction d generalizing k p with
  | zero =>
    rw [visit, Ne, bind_eq_error, orFault_eq_error]
    rintro (⟨f, -, hf⟩ | ⟨n, -, h⟩)
    · simp at hf
    · split at h <;> simp at h
  | succ d ih =>
    rw [visit, Ne, bind_eq_error, orFault_eq_error]
    rintro (⟨f, -, hf⟩ | ⟨n, -, h⟩)
    · simp at hf
    · split at h
      · simp at h
      · simp only [bind_eq_error, reduceCtorEq, and_false, exists_false, or_false] at h
        rcases h with h | ⟨l, -, h⟩
        · exact ih _ _ h
        · exact ih _ _ h

theorem genCodesBody_eq_cmdError {s : State} {c : CmdError} :
    genCodesBody s = .error (.cmdError c) ↔ s.treeValid = false ∧ c = .noTree := by
  have hc : codeAssignments s ≠ .error (.cmdError c) := by
    rw [codeAssignments, Ne, bind_eq_error, orFault_eq_error]
    rintro (⟨f, -, hf⟩ | ⟨n, -, h⟩)
    · simp at hf
    · split at h
      · simp at h
      · exact visit_ne_cmdError _ _ _ _ _ h
  simp only [genCodesBody, bind_eq_error, raiseIf_eq_error, hc, reduceCtorEq, and_false, exists_false, or_false,
    Stop.cmdError.injEq]

/-! ### PACK -/

/-- The codes of the input: every byte was written and has a code (43_packer R212, R213). -/
theorem inputCodes_eq_ok {s : State} {a n : Nat} {cs : List BitString} :
    inputCodes s a n = .ok cs ↔ ∃ bs : List Byte, bs.length = n ∧
      (∀ i (h : i < bs.length), s.ibuf.read (a + i) = some bs[i]) ∧
      (∀ b ∈ bs, (ctabAt s.ctab b).len ≠ 0) ∧ cs = bs.map (codeOf s) := by
  induction n generalizing a cs with
  | zero =>
    simp only [inputCodes, Except.ok.injEq]
    constructor
    · rintro rfl; exact ⟨[], by simp⟩
    · rintro ⟨bs, h, -, -, rfl⟩
      rw [List.length_eq_zero_iff.mp h, List.map_nil]
  | succ n ih =>
    simp only [inputCodes, bind_eq_ok, orFault_eq_ok, readIbuf_eq_ok, raiseIf_eq_ok, ih, Except.ok.injEq]
    constructor
    · rintro ⟨b, hb, -, hc, cs, ⟨bs, hl, hbs, hcs, rfl⟩, rfl⟩
      refine ⟨b :: bs, by simp [hl], fun i h => ?_, ?_, rfl⟩
      · cases i with
        | zero => simpa using hb
        | succ i =>
          have := hbs i (by simpa using h)
          rw [Nat.add_right_comm] at this
          simpa [Nat.add_assoc] using this
      · intro b' hb'
        rcases List.mem_cons.mp hb' with rfl | hb'
        · exact hc
        · exact hcs _ hb'
    · rintro ⟨bs, hl, hbs, hcs, rfl⟩
      cases bs with
      | nil => simp at hl
      | cons b bs =>
        refine ⟨b, hbs 0 (by simp), (), hcs b (by simp), bs.map (codeOf s),
          ⟨bs, by simpa using hl, fun i h => ?_, fun b' hb' => hcs b' (by simp [hb']), rfl⟩, rfl⟩
        have := hbs (i + 1) (by simpa using h)
        simpa [Nat.add_assoc, Nat.add_comm 1 i] using this

/-- PACK succeeds exactly with codes, an input that fits, was written and is coded, and an output that fits
(43_packer R211 to R217). -/
theorem packBody_eq_ok {s t : State} :
    packBody s = .ok t ↔ s.ctabValid = true ∧ s.inLen.toNat ≤ s.params.ibufSize ∧ ∃ bytes, HoldsInput s bytes ∧
      (∀ b ∈ bytes, (ctabAt s.ctab b).len ≠ 0) ∧
      (packedBytes (bytes.flatMap (codeOf s))).length ≤ s.params.obufSize ∧
      t = { s with
        obuf := s.obuf.writeBytes 0 (packedBytes (bytes.flatMap (codeOf s)))
        outLen := BitVec.ofNat 32 (packedBytes (bytes.flatMap (codeOf s))).length
        padOut := BitVec.ofNat 3 (padCount (bytes.flatMap (codeOf s)).length) } := by
  simp only [packBody, bind_eq_ok, raiseIf_eq_ok, checkInLen_eq_ok, inputCodes_eq_ok, Except.ok.injEq, Bool.not_eq_false,
    HoldsInput, Nat.zero_add, List.flatMap_def, Nat.not_lt, gt_iff_lt]
  constructor
  · rintro ⟨-, h1, -, h2, -, ⟨bs, hl, hb, hc, rfl⟩, -, hm, rfl⟩
    exact ⟨h1, h2, bs, ⟨hl.symm, hb⟩, hc, hm, rfl⟩
  · rintro ⟨h1, h2, bs, ⟨hl, hb⟩, hc, hm, rfl⟩
    exact ⟨(), h1, (), h2, _, ⟨bs, hl.symm, hb, hc, rfl⟩, (), hm, rfl⟩

/-! ### DECODE -/

theorem decodeChecks_eq_ok {s : State} {u : Unit} :
    decodeChecks s = .ok u ↔ s.treeValid = true ∧ s.padIn.toNat ≤ 7 ∧ s.inLen.toNat ≤ s.params.ibufSize ∧
      (s.inLen.toNat ≠ 0 ∨ s.singleLeaf = true) := by
  simp only [decodeChecks, bind_eq_ok, raiseIf_eq_ok, checkInLen_eq_ok, Bool.not_eq_false, gt_iff_lt, Nat.not_lt, not_and]
  constructor
  · rintro ⟨-, h1, -, h2, -, h3, h4⟩
    refine ⟨h1, h2, h3, ?_⟩
    by_cases h : s.inLen.toNat = 0
    · exact .inr (h4 h)
    · exact .inl h
  · rintro ⟨h1, h2, h3, h4⟩
    refine ⟨(), h1, (), h2, (), h3, fun h => ?_⟩
    rcases h4 with h4 | h4
    · exact absurd h h4
    · exact h4

theorem emit_eq_ok {s : State} {sym : Byte} {w w' : Walk} :
    emit s sym w = .ok w' ↔ w.count ≠ s.params.obufSize ∧
      w' = { w with count := w.count + 1, emitted := sym :: w.emitted } := by
  simp only [emit, bind_eq_ok, raiseIf_eq_ok, Except.ok.injEq]
  constructor
  · rintro ⟨-, h, rfl⟩; exact ⟨h, rfl⟩
  · rintro ⟨h, rfl⟩; exact ⟨(), h, rfl⟩

/-- One bit moves the cursor and emits at most one byte, which fits (44_decoder R235 to R237). -/
theorem stepBit_eq_ok {s : State} {w w' : Walk} {bit : Bool} (h : stepBit s w bit = .ok w') :
    (∃ c, w' = { w with cursor := c }) ∨
      ∃ c sym, w.count ≠ s.params.obufSize ∧
        w' = { cursor := c, count := w.count + 1, emitted := sym :: w.emitted } := by
  unfold stepBit at h
  split at h
  · simp only [stepSingle, bind_eq_ok, emit_eq_ok] at h
    obtain ⟨n, hn, hc, rfl⟩ := h
    exact .inr ⟨_, _, hc, rfl⟩
  · simp only [stepMulti, bind_eq_ok, raiseIf_eq_ok] at h
    obtain ⟨n, -, -, -, m, -, h⟩ := h
    split at h
    · rw [emit_eq_ok] at h
      exact .inr ⟨_, _, h.1, h.2⟩
    · exact .inl ⟨_, (Except.ok.inj h).symm⟩

/-- The number of bytes emitted is the count DECODE keeps, and never exceeds OBUF_SIZE (44_decoder R237). -/
def Walk.Fits (s : State) (w : Walk) : Prop := w.emitted.length = w.count ∧ w.count ≤ s.params.obufSize

theorem stepBit_fits {s : State} {w w' : Walk} {bit : Bool} (hw : w.Fits s) (h : stepBit s w bit = .ok w') : w'.Fits s := by
  obtain ⟨h1, h2⟩ := hw
  rcases stepBit_eq_ok h with ⟨c, rfl⟩ | ⟨c, sym, hc, rfl⟩
  · exact ⟨h1, h2⟩
  · exact ⟨by simp [h1], by show w.count + 1 ≤ _; omega⟩

theorem foldlM_stepBit_fits {s : State} {bits : BitString} {w w' : Walk} (hw : w.Fits s)
    (h : bits.foldlM (stepBit s) w = .ok w') : w'.Fits s := by
  induction bits generalizing w with
  | nil => obtain rfl := Except.ok.inj h; exact hw
  | cons b bits ih =>
    rw [List.foldlM_cons, bind_eq_ok] at h
    obtain ⟨w1, h1, h2⟩ := h
    exact ih (stepBit_fits hw h1) h2

theorem walkBytes_fits {s : State} {p i n : Nat} {w w' : Walk} (hw : w.Fits s) (h : walkBytes s p i n w = .ok w') :
    w'.Fits s := by
  induction n generalizing i w with
  | zero => obtain rfl := Except.ok.inj h; exact hw
  | succ n ih =>
    simp only [walkBytes, bind_eq_ok] at h
    obtain ⟨b, -, w1, h1, h2⟩ := h
    exact ih (foldlM_stepBit_fits hw h1) h2

/-- DECODE succeeds exactly when its checks pass and its walk ends at the root, and then writes the bytes emitted
(44_decoder R238, R239). -/
theorem decodeBody_eq_ok {s t : State} :
    decodeBody s = .ok t ↔ decodeChecks s = .ok () ∧
      ∃ w, walkBytes s s.padIn.toNat 0 s.inLen.toNat (startWalk s) = .ok w ∧ (s.singleLeaf = true ∨ w.cursor = s.root) ∧
        t = { s with obuf := s.obuf.writeBytes 0 w.emitted.reverse, outLen := BitVec.ofNat 32 w.count } := by
  simp only [decodeBody, bind_eq_ok, raiseIf_eq_ok, Except.ok.injEq]
  constructor
  · rintro ⟨⟨⟩, hc, w, hw, -, he, rfl⟩
    refine ⟨hc, w, hw, ?_, rfl⟩
    cases h : s.singleLeaf
    · exact .inr (by simpa [h] using he)
    · exact .inl rfl
  · rintro ⟨hc, w, hw, he, rfl⟩
    refine ⟨(), hc, w, hw, (), ?_, rfl⟩
    rintro ⟨h1, h2⟩
    rcases he with he | he
    · simp [he] at h1
    · exact h2 he

/-- The output of a successful DECODE fits OBUF (44_decoder R237). -/
theorem walk_output_fits {s : State} {w : Walk} (h : walkBytes s s.padIn.toNat 0 s.inLen.toNat (startWalk s) = .ok w) :
    w.emitted.length = w.count ∧ w.count ≤ s.params.obufSize :=
  walkBytes_fits (w := startWalk s) ⟨rfl, Nat.zero_le _⟩ h

/-! ### What the commands look at -/

/-- BUILD's checks look at FT_COUNT and FTAB alone (30_encoding R122). -/
theorem checkedTable_congr {s t : State} (h1 : t.ftab = s.ftab) (h2 : t.ftCount = s.ftCount) :
    checkedTable t = checkedTable s := by
  have : ∀ i n, readEntries t i n = readEntries s i n := by
    intro i n
    induction n generalizing i with
    | zero => rfl
    | succ n ih => simp only [readEntries, readFtab, h1, ih]
  simp only [checkedTable, h2, this]

/-- The codes depend on NODE and ROOT alone (30_encoding R122). -/
theorem codeAssignments_congr {s t : State} (h1 : t.node = s.node) (h2 : t.root = s.root) :
    codeAssignments t = codeAssignments s := by
  have hn : ∀ k, readNode t k = readNode s k := by intro k; simp only [readNode, h1]
  have : ∀ d k p, visit t d k p = visit s d k p := by
    intro d
    induction d with
    | zero => intro k p; rw [visit, visit, hn]
    | succ n ih => intro k p; rw [visit, visit, hn]; simp only [ih]
  simp only [codeAssignments, hn, h2, this]

/-- Which tree a state holds depends on the table, the arena, ROOT, NODE_COUNT and SINGLE_LEAF alone. -/
theorem TreeCoherent.congr {s t : State} (h : TreeCoherent s) (h1 : t.ftab = s.ftab) (h2 : t.ftCount = s.ftCount)
    (h3 : t.node = s.node) (h4 : t.root = s.root) (h5 : t.nodeCount = s.nodeCount) (h6 : t.singleLeaf = s.singleLeaf) :
    TreeCoherent t := by
  obtain ⟨es, h⟩ := h
  exact ⟨es, (checkedTable_congr h1 h2).trans h.table, by rw [h3]; exact h.nodes, h4.trans h.root, h5.trans h.nodeCount,
    h6.trans h.singleLeaf⟩

/-- Which codes a state holds depends on the arena, ROOT and CTAB alone. -/
theorem CodesCoherent.congr {s t : State} (h : CodesCoherent s) (h1 : t.node = s.node) (h2 : t.root = s.root)
    (h3 : t.ctab = s.ctab) : CodesCoherent t := by
  obtain ⟨a, ha, hc⟩ := h
  exact ⟨a, (codeAssignments_congr h1 h2).trans ha, h3.trans hc⟩

/-- The tree BUILD installs is the table's (41_tree_builder R183). -/
theorem installTree_treeOf {s : State} {es : List FtabEntry} (h : checkedTable s = .ok es) : TreeOf (installTree es s) es :=
  ⟨(checkedTable_congr (s := s) (t := installTree es s) rfl rfl).trans h, overwrite_overwrite _ _, rfl, rfl, rfl⟩

/-! ### exec -/

/-- No command is refused. -/
theorem exec_ne_refused (i : Instr) (s : State) (q : Refusal) : exec i s ≠ .refused q := by
  cases i <;> simp only [exec, execNop, execCount, execBuild, execGenCodes, execPack, execDecode, execSoftReset, execIllegal] <;>
    first
    | exact finishCommand_ne_refused
    | (split <;> exact finishCommand_ne_refused)

end Sys2Proof.Machine
end

