-- ==== Sys2Proof/Laws/Decode.lean ====
section
/-! SUPPORT. The fields of a command word. -/

namespace Sys2Proof

/-- A word is its two fields (30_encoding R121). -/
theorem word_fields (w : Word) : w.toNat = (reservedOf w).toNat * 256 + (opcodeOf w).toNat := by
  simp only [reservedOf, opcodeOf, BitVec.extractLsb'_toNat, Nat.shiftRight_eq_div_pow]
  have := w.isLt
  omega

/-- The opcode of an encoded command is the table's, and its reserved field is 0 (30_encoding R121, R124). -/
@[simp] theorem opcodeOf_encode (i : Instr) : opcodeOf (encode i) = opcodeByte i := by cases i <;> rfl

@[simp] theorem reservedOf_encode (i : Instr) : reservedOf (encode i) = 0 := by cases i <;> rfl

@[simp] theorem opcodeMap_opcodeByte (i : Instr) : opcodeMap (opcodeByte i) = some i := by cases i <;> rfl

/-- Only the table's opcode maps to a command (30_encoding R124). -/
theorem opcodeMap_eq_some {op : Byte} {i : Instr} : opcodeMap op = some i ↔ op = opcodeByte i := by
  constructor
  · intro h
    unfold opcodeMap at h
    split at h <;> simp only [Option.some.injEq, reduceCtorEq] at h <;> subst h <;>
      exact BitVec.eq_of_toNat_eq (by assumption)
  · rintro rfl; simp

end Sys2Proof
end

