-- ==== Sys2Proof/Laws/Host.lean ====
section
/-! SUPPORT. What one step, one host operation and one register access can do. -/

namespace Sys2Proof.Machine

/-! ### Runs -/

/-- A run goes on from where a shorter one arrived. -/
theorem core_run_trans {j k : Nat} {s t : State} {o : Host.Outcome State Fault Refusal} (h : core.run j s = .next t)
    (h' : core.run k t = o) : core.run (j + k) s = o := by
  induction j generalizing s with
  | zero => cases h; rwa [Nat.zero_add]
  | succ j ih =>
    rw [Nat.succ_add]
    simp only [Host.Core.run] at h ⊢
    split at h
    · exact ih h
    · cases h
    · cases h

/-- One step is a run. -/
theorem core_run_one {s t : State} (h : step s = .next t) : core.run 1 s = .next t := by
  have h : core.step s = .next t := h
  simp only [Host.Core.run, h]

/-! ### The map of the window -/

/-- Each mapped register is found at its offset (10_state R22). -/
@[simp] theorem regAt_offset (r : Reg) : regAt r.offset = some r := by cases r <;> rfl

/-- Each offset of a mapped register is admitted (20_memory R83). -/
@[simp] theorem aligned_offset (r : Reg) : aligned r.offset = true := by cases r <;> rfl

/-- A register is found at its own offset only. -/
theorem regAt_eq_some {o : BitVec 12} {r : Reg} : regAt o = some r ↔ o = r.offset := by
  constructor
  · intro h
    have := List.find?_some h
    exact (by simpa using this : r.offset = o).symm
  · rintro rfl; simp

/-! ### Reads and writes -/

/-- Everything a read of a register can change while BUSY = 0: nothing, or one of the three pointers that advance
(20_memory R88). -/
theorem readReg_cases {r : Reg} {s t : State} {v : Word} (h : readReg r s = .ok (v, t)) :
    t = s ∨ (r = .ibufData ∧ t = { s with ibufPtr := s.ibufPtr + 1 }) ∨
      (r = .obufData ∧ t = { s with obufPtr := s.obufPtr + 1 }) ∨
      (r = .ftFreq ∧ t = { s with ftIndex := s.ftIndex + 1 }) := by
  cases r <;>
    simp only [readReg, readIbufData, readObufData, readFtFreq, map_eq_ok, Except.ok.injEq, Prod.mk.injEq] at h
  case ibufData => obtain ⟨_, -, -, rfl⟩ := h; simp
  case obufData => obtain ⟨_, -, -, rfl⟩ := h; simp
  case ftFreq => obtain ⟨_, -, -, rfl⟩ := h; simp
  case ftSym => obtain ⟨_, -, -, rfl⟩ := h; simp
  case nodeInfo => obtain ⟨_, -, -, rfl⟩ := h; simp
  case nodeFreqLo => obtain ⟨_, -, -, rfl⟩ := h; simp
  case nodeFreqHi => obtain ⟨_, -, -, rfl⟩ := h; simp
  all_goals simp [h.2]

/-- Everything a read at an offset can change (20_memory R88, R91): nothing, the count of draws while BUSY = 1, or a
pointer while BUSY = 0. -/
theorem readOffset_cases {o : BitVec 12} {s t : State} {v : Word} (h : readOffset o s = .ok (v, t)) :
    t = s ∨ (s.busy = true ∧ t = { s with draws := s.draws + 1 }) ∨
      (s.busy = false ∧ (t = { s with ibufPtr := s.ibufPtr + 1 } ∨ t = { s with obufPtr := s.obufPtr + 1 } ∨
        t = { s with ftIndex := s.ftIndex + 1 })) := by
  unfold readOffset at h
  split at h
  · simp only [Except.ok.injEq, Prod.mk.injEq] at h; simp [h.2]
  · rename_i r _
    split at h
    · rename_i hb
      simp only [Bool.and_eq_true, Bool.not_eq_true'] at hb
      simp only [Except.ok.injEq, Prod.mk.injEq] at h
      exact .inr (.inl ⟨hb.1, h.2.symm⟩)
    · rename_i hb
      rcases readReg_cases h with rfl | ⟨rfl, rfl⟩ | ⟨rfl, rfl⟩ | ⟨rfl, rfl⟩
      · exact .inl rfl
      · exact .inr (.inr ⟨by simpa [Reg.readableWhileBusy] using hb, .inl rfl⟩)
      · exact .inr (.inr ⟨by simpa [Reg.readableWhileBusy] using hb, .inr (.inl rfl)⟩)
      · exact .inr (.inr ⟨by simpa [Reg.readableWhileBusy] using hb, .inr (.inr rfl)⟩)

/-- Everything a write at an offset can be (20_memory R86, R92): nothing, a dropped write, or the register's write. -/
theorem writeOffset_cases (o : BitVec 12) (w : Word) (s : State) :
    (regAt o = none ∧ writeOffset o w s = s) ∨
      (s.busy = true ∧ writeOffset o w s = { s with dropped := true }) ∨
      (s.busy = false ∧ ∃ r, o = r.offset ∧ writeOffset o w s = writeReg r w s) := by
  unfold writeOffset
  split
  · simp_all
  · rename_i r hr
    rw [regAt_eq_some] at hr
    subst hr
    cases hb : s.busy
    · exact .inr (.inr ⟨rfl, r, rfl, by simp⟩)
    · simp

/-! ### Host operations -/

/-- Everything a read operation can answer with a next state. -/
theorem hostRead_eq_next {o : BitVec 12} {k : Word → State → State} {s t : State} :
    hostRead o k s = .next t ↔
      aligned o = true ∧ ∃ v u, readOffset o s = .ok (v, u) ∧ t = k v (returnToHost v u) := by
  unfold hostRead
  cases aligned o with
  | false => simp
  | true =>
    rcases h : readOffset o s with f | ⟨v, u⟩
    · simp
    · simp [eq_comm]

/-- A read operation faults only where the register's read does. -/
theorem hostRead_eq_fault {o : BitVec 12} {k : Word → State → State} {s : State} {f : Fault} :
    hostRead o k s = .fault f ↔ aligned o = true ∧ readOffset o s = .error f := by
  unfold hostRead
  cases aligned o with
  | false => simp
  | true =>
    rcases h : readOffset o s with f | ⟨v, u⟩
    · simp
    · simp

/-- Everything a host operation can answer with a next state: a read, whose value is recorded and which may queue more
operations; a write; or hardware reset. -/
theorem hostOp_cases {op : HostOp} {s t : State} (h : hostOp op s = .next t) :
    (∃ o v u ops, readOffset o s = .ok (v, u) ∧ t = pushOps ops (returnToHost v u)) ∨
      (∃ o w, t = writeOffset o w s) ∨ t = hardwareReset s := by
  cases op with
  | access tx =>
    cases tx with
    | read o =>
      simp only [hostOp, hostRead_eq_next] at h
      obtain ⟨-, v, u, hr, rfl⟩ := h
      exact .inl ⟨o, v, u, [], hr, rfl⟩
    | write o w =>
      simp only [hostOp, hostWrite] at h
      split at h
      · obtain rfl := Host.Outcome.next.inj h
        exact .inr (.inl ⟨o, w, rfl⟩)
      · simp at h
  | wrongWidth o b => simp [hostOp] at h
  | wait =>
    simp only [hostOp, hostRead_eq_next] at h
    obtain ⟨-, v, u, hr, rfl⟩ := h
    unfold pollAgain
    split
    · exact .inl ⟨_, v, u, [.wait], hr, rfl⟩
    · exact .inl ⟨_, v, u, [], hr, rfl⟩
  | countedReads c setup body =>
    simp only [hostOp, hostRead_eq_next] at h
    obtain ⟨-, v, u, hr, rfl⟩ := h
    exact .inl ⟨c, v, u, _, hr, rfl⟩
  | hardwareReset =>
    obtain rfl := Host.Outcome.next.inj h
    exact .inr (.inr rfl)

/-! ### The step -/

/-- Everything a step can answer with a next state (20_memory R90, R93): the engine's command, an illegal word, an idle
step, or one host operation. -/
theorem step_cases {s t : State} (h : step s = .next t) :
    (engineTurn s = true ∧ ∃ i, decode s.params s.pending = .ok i ∧ exec i s = .next t) ∨
      (engineTurn s = true ∧ (∃ e, decode s.params s.pending = .error e) ∧ t = raiseCmdError .illegalCmd s) ∨
      (engineTurn s = false ∧ s.hostQueue = [] ∧ t = s) ∨
      (engineTurn s = false ∧ ∃ op rest, s.hostQueue = op :: rest ∧ hostOp op (takeOp rest s) = .next t) := by
  unfold step at h
  split at h
  · rename_i hE
    unfold engineStep fetchCommand at h
    split at h
    · rename_i i hi
      exact .inl ⟨hE, i, hi, h⟩
    · rename_i e he
      exact .inr (.inl ⟨hE, ⟨e, he⟩, (Host.Outcome.next.inj h).symm⟩)
  · rename_i hE
    simp only [Bool.not_eq_true] at hE
    unfold hostTurn at h
    split at h
    · rename_i hq
      exact .inr (.inr (.inl ⟨hE, hq, (Host.Outcome.next.inj h).symm⟩))
    · rename_i op rest hq
      exact .inr (.inr (.inr ⟨hE, op, rest, hq, h⟩))

/-- The engine moves only while a command is pending (20_memory R90). -/
theorem engineTurn_busy {s : State} (h : engineTurn s = true) : s.busy = true := by
  simp [engineTurn] at h; exact h.1

/-- While BUSY = 1, the host moves only while it has operations and accesses left before the engine step (20_memory R90). -/
theorem hostTurn_waits {s : State} (h : engineTurn s = false) (hb : s.busy = true) :
    s.engineWait ≠ 0 ∧ s.hostQueue ≠ [] := by
  simpa [engineTurn, hb, not_or] using h

end Sys2Proof.Machine
end

