-- ==== Sys2Proof/Laws/Invariant.lean ====
section
/-! SUPPORT. When the invariant carries over from one state to another: nothing it looks at changed, or the tree went stale,
or a command failed. -/

namespace Sys2Proof.Machine

/-- The invariant carries over when the parameters, the buffers, the table, the tree and the codes are the same, and the
acceptance and error rules hold of the new state. -/
theorem Inv.of_same {s t : State} (h : Inv s) (params : t.params = s.params) (ibuf : t.ibuf = s.ibuf)
    (obuf : t.obuf = s.obuf)
    (accepted : t.busy = true → t.done = false ∧ t.errCode = none ∧ t.lastOp = opcodeOf t.pending)
    (errOp : t.errCode = none → t.errOp = 0) (treeValid : t.treeValid = s.treeValid)
    (ctabValid : t.ctabValid = s.ctabValid) (singleLeaf : t.singleLeaf = s.singleLeaf) (root : t.root = s.root)
    (nodeCount : t.nodeCount = s.nodeCount) (node : t.node = s.node) (ctab : t.ctab = s.ctab) (ftab : t.ftab = s.ftab)
    (ftCount : t.ftCount = s.ftCount) : Inv t where
  params := params ▸ h.params
  ibuf := by rw [ibuf, params]; exact h.ibuf
  obuf := by rw [obuf, params]; exact h.obuf
  accepted := accepted
  errOp := errOp
  noTree := by rw [treeValid, ctabValid, singleLeaf, root, nodeCount]; exact h.noTree
  tree := fun hv => (h.tree (treeValid ▸ hv)).congr ftab ftCount node root nodeCount singleLeaf
  codes := fun hv => (h.codes (ctabValid ▸ hv)).congr node root ctab

/-- The invariant carries over to a state with a stale tree, whatever its tables hold, when its buffers are in order
(10_state R47). -/
theorem Inv.of_stale {s t : State} (h : Inv s) (params : t.params = s.params)
    (ibuf : t.ibuf.wf ∧ t.ibuf.within t.params.ibufSize) (obuf : t.obuf.wf ∧ t.obuf.within t.params.obufSize)
    (accepted : t.busy = true → t.done = false ∧ t.errCode = none ∧ t.lastOp = opcodeOf t.pending)
    (errOp : t.errCode = none → t.errOp = 0) (treeValid : t.treeValid = false) (ctabValid : t.ctabValid = false)
    (singleLeaf : t.singleLeaf = false) (root : t.root = 0) (nodeCount : t.nodeCount = 0) : Inv t where
  params := params ▸ h.params
  ibuf := ibuf
  obuf := obuf
  accepted := accepted
  errOp := errOp
  noTree := fun _ => ⟨ctabValid, singleLeaf, root, nodeCount⟩
  tree := by rw [treeValid]; simp
  codes := by rw [ctabValid]; simp

/-- The error record R285 gives every failed command keeps the invariant. -/
theorem Inv.raiseCmdError {s : State} (h : Inv s) (c : CmdError) : Inv (raiseCmdError c s) := by
  apply h.of_same <;> simp

end Sys2Proof.Machine
end

