-- ==== Sys2Proof/Laws/PerInstr.lean ====
section
/-! SUPPORT. Statements about every command as data, one lemma per constructor. -/

namespace Sys2Proof.Laws.Encoding

/-- The command exists on a block with a counter, its word has RSVD = 0 and the table's opcode, and the decoder of such a
block reads it back (30_encoding R121, R124, R125). -/
def Statement (i : Instr) : Prop :=
  i.wf Params.default = true ∧ reservedOf (encode i) = 0 ∧ opcodeOf (encode i) = opcodeByte i ∧
    decode Params.default (encode i) = .ok i

theorem nop : Statement .nop := by refine ⟨rfl, rfl, rfl, rfl⟩

theorem count : Statement .count := by refine ⟨rfl, rfl, rfl, rfl⟩

theorem build : Statement .build := by refine ⟨rfl, rfl, rfl, rfl⟩

theorem genCodes : Statement .genCodes := by refine ⟨rfl, rfl, rfl, rfl⟩

theorem pack : Statement .pack := by refine ⟨rfl, rfl, rfl, rfl⟩

theorem decode : Statement .decode := by refine ⟨rfl, rfl, rfl, rfl⟩

theorem softReset : Statement .softReset := by refine ⟨rfl, rfl, rfl, rfl⟩

end Sys2Proof.Laws.Encoding
end

