-- ==== Sys2Proof/Laws/Program.lean ====
section
/-! SUPPORT. Host addresses, the values a host reads, and the length it loads. -/

namespace Sys2Proof.Machine

/-- A host address reaches an offset exactly when it is that offset's address (20_memory R97). -/
theorem windowOffset_eq_some {p : Params} {address : Nat} {offset : BitVec 12} :
    windowOffset p address = some offset ↔ address = windowAddress p offset := by
  unfold windowOffset windowAddress
  have := offset.isLt
  split
  · rename_i h
    rw [Option.some.injEq]
    constructor
    · rintro rfl
      rw [BitVec.toNat_ofNat]
      omega
    · rintro rfl
      rw [Nat.add_sub_cancel_left, BitVec.ofNat_toNat, BitVec.setWidth_eq]
  · simp only [reduceCtorEq, false_iff]
    omega

/-- A host address reaches nothing exactly outside the window (20_memory R97). -/
theorem windowOffset_eq_none {p : Params} {address : Nat} :
    windowOffset p address = none ↔ address < p.windowBase ∨ p.windowBase + 4096 ≤ address := by
  unfold windowOffset
  split <;> simp only [reduceCtorEq, false_iff, true_iff] <;> omega

/-- The values FT_SYM and FT_FREQ return for entries give back those entries (20_memory R103). -/
theorem entriesOfReads_flatMap (es : List FtabEntry) :
    entriesOfReads (es.flatMap fun e => [e.sym.setWidth 32, e.freq]) = es := by
  induction es with
  | nil => rfl
  | cons e es ih =>
    have h : (e.sym.setWidth 32).extractLsb' 0 8 = e.sym := by
      apply BitVec.eq_of_toNat_eq
      rw [BitVec.extractLsb'_toNat, BitVec.toNat_setWidth]
      have := e.sym.isLt
      omega
    simp only [List.flatMap_cons, List.cons_append, List.nil_append, entriesOfReads, h, ih]

/-- IN_LEN of an input of `m` bytes: `m`, or the largest 32-bit number (20_memory R104). -/
theorem inLenWord_toNat (m : Nat) : (inLenWord m).toNat = min m (2 ^ 32 - 1) := by
  unfold inLenWord
  rw [BitVec.toNat_ofNat]
  omega

end Sys2Proof.Machine
end

