-- ==== Sys2Proof/Tests/Slice0.lean ====
section
/-! SUPPORT. Tests and witnesses. Expected values are the vectors of 95_test_vectors (cited as V-…), the encodings of
30_encoding, or worked out from the rule cited. A witness shows states and operands that meet every hypothesis of the
statement it is named after. -/

namespace Sys2Proof.Tests

open Sys2Proof.Machine

set_option maxRecDepth 100000

set_option Elab.async false

/-! ### Helpers -/

/-- Did the step give a next state with this property? -/
def reaches (o : Host.Outcome State Fault Refusal) (p : State → Bool) : Bool :=
  match o with
  | .next t => p t
  | .fault _ => false
  | .refused _ => false

/-- The next state, or the state itself where there is none. -/
def after (s : State) (o : Host.Outcome State Fault Refusal) : State :=
  match o with
  | .next t => t
  | .fault _ => s
  | .refused _ => s

/-- A block with small buffers, so that their ends are near. -/
def small : Params := { ibufSize := 4, obufSize := 4, hasCounter := true, windowBase := 0x40000000 }

/-- The block after reset with this table in FTAB and these bytes in IBUF. -/
def block (p : Params) (table : List FtabEntry) (bytes : List Byte) : State :=
  { State.resetWith p with
    ftab := overwrite (State.resetWith p).ftab (table.map some), ftCount := BitVec.ofNat 9 table.length
    ibuf := bytes.mapIdx fun i b => (i, b), inLen := BitVec.ofNat 32 bytes.length }

/-- The block of a table after BUILD. -/
def built (p : Params) (table : List FtabEntry) (bytes : List Byte) : State :=
  after State.reset (exec .build (block p table bytes))

/-- The block of a table after BUILD and GENCODES. -/
def coded (p : Params) (table : List FtabEntry) (bytes : List Byte) : State :=
  after State.reset (exec .genCodes (built p table bytes))

/-- The table of V-B1, V-B2, V-B3 and V-D3. -/
def tableAb : List FtabEntry := [{ sym := 0x61, freq := 3 }, { sym := 0x62, freq := 2 }]

@[inherit_doc tableAb]
def tableAbra : List FtabEntry :=
  [{ sym := 0x61, freq := 5 }, { sym := 0x62, freq := 2 }, { sym := 0x63, freq := 1 }, { sym := 0x64, freq := 1 },
    { sym := 0x72, freq := 2 }]

@[inherit_doc tableAb]
def tableA : List FtabEntry := [{ sym := 0x61, freq := 5 }]

@[inherit_doc tableAb]
def tableAbcd : List FtabEntry :=
  [{ sym := 0x61, freq := 1 }, { sym := 0x62, freq := 1 }, { sym := 0x63, freq := 1 }, { sym := 0x64, freq := 1 }]

/-- A command in PENDING, the engine next. -/
def pendingAt (w : Word) : State := { State.reset with busy := true, pending := w, lastOp := opcodeOf w }

/-- A command in PENDING with `n` host accesses before the engine step. -/
def waiting (n : Nat) (queue : List HostOp) : State :=
  { pendingAt 0x00000002 with engineWait := n, hostQueue := queue }

/-- An idle block about to be accessed. -/
def idle (queue : List HostOp) : State := { State.reset with hostQueue := queue }

/-! ### WellFormed -/

/-- 30_encoding R126: COUNT does not exist on a block without a counter; the same block has the other commands. -/
theorem test_wf_count_needs_a_counter :
    Instr.wf { small with hasCounter := false } .count = false ∧ Instr.wf small .count = true ∧
      Instr.wf { small with hasCounter := false } .build = true := by decide

/-! ### Decode: each command's word, written out from 30_encoding R121 and R124 (RSVD 24 bits, OPCODE 8 bits) -/

theorem test_decode_nop :
    decode Params.default 0b000000000000000000000000_00000000 = .ok .nop := by decide

theorem test_decode_count :
    decode Params.default 0b000000000000000000000000_00000001 = .ok .count := by decide

theorem test_decode_build :
    decode Params.default 0b000000000000000000000000_00000010 = .ok .build := by decide

theorem test_decode_genCodes :
    decode Params.default 0b000000000000000000000000_00000011 = .ok .genCodes := by decide

theorem test_decode_pack :
    decode Params.default 0b000000000000000000000000_00000100 = .ok .pack := by decide

theorem test_decode_decode :
    decode Params.default 0b000000000000000000000000_00000101 = .ok .decode := by decide

theorem test_decode_softReset :
    decode Params.default 0b000000000000000000000000_00001111 = .ok .softReset := by decide

/-- 30_encoding R126: without a counter COUNT's word names no command. -/
theorem test_decode_rejects_count_without_counter :
    decode { small with hasCounter := false } 0b000000000000000000000000_00000001 = .error .noCounter := by decide

/-- 30_encoding R127, V-X2 and V-X5: a set reserved bit is ILLEGAL whatever the opcode. -/
theorem test_decode_rejects_reserved_bits :
    decode Params.default 0b000000000000000000000001_00000111 = .error .reservedBits ∧
      decode Params.default 0b100000000000000000000000_00000010 = .error .reservedBits := by decide

/-- 30_encoding R128, V-X3 and V-X4: the ends of both reserved ranges of opcodes. -/
theorem test_decode_rejects_reserved_opcodes :
    decode Params.default 0x00000006 = .error .reservedOpcode ∧ decode Params.default 0x0000000E = .error .reservedOpcode ∧
      decode Params.default 0x00000010 = .error .reservedOpcode ∧
      decode Params.default 0x000000FF = .error .reservedOpcode := by decide

/-! ### Commands -/

/-- V-X1: STATUS = 0x00000002, ERR = 0. -/
theorem test_nop :
    reaches (step (pendingAt 0x00000000)) (fun t => statusWord t == 0x00000002 && errWord t == 0) = true := by decide +kernel

/-- V-X4: ERR = 0x0000FF0C, STATUS = 0x0000FF06. -/
theorem test_illegal :
    reaches (step (pendingAt 0x000000FF)) (fun t => statusWord t == 0x0000FF06 && errWord t == 0x0000FF0C) = true := by
  decide +kernel

/-- V-X6, its registers: CTRL, FT_COUNT, IN_LEN, ROOT and NODE_COUNT become 0, and FTAB is kept. -/
theorem test_softReset :
    reaches (exec .softReset { coded small tableAb [0x61] with irqEn := true }) (fun t =>
      ctrlWord t == 0 && t.ftCount == 0 && t.inLen == 0 && t.root == 0 && t.nodeCount == 0 && t.ftIndex == 0 &&
        decide (readFtab t 0 = .ok { sym := 0x61, freq := 3 })) = true := by decide +kernel

/-- V-C8: 00 FF 00 gives [(00,2), (FF,1)], and the rest of FTAB is (00, 0). -/
theorem test_count :
    reaches (exec .count (block small [] [0x00, 0xFF, 0x00])) (fun t =>
      t.ftCount == 2 && decide (readFtab t 0 = .ok { sym := 0x00, freq := 2 }) &&
        decide (readFtab t 1 = .ok { sym := 0xFF, freq := 1 }) &&
        decide (readFtab t 255 = .ok { sym := 0x00, freq := 0 })) = true := by decide +kernel

/-- V-C3: IBUF_SIZE = 4 and IN_LEN = 5 give BAD_LENGTH (ERR_CODE 0x0A). -/
theorem test_count_bad_length :
    reaches (exec .count { block small [] [] with inLen := 5, pending := 1 }) (fun t => errWord t == 0x0000010A) = true := by
  decide +kernel

/-- V-B2 and V-B11: NODE_INFO of nodes 5 to 8, ROOT = 8, NODE_COUNT = 9. -/
theorem test_build :
    (let t := built small tableAbra []
     t.root == 8 && t.nodeCount == 9 &&
       [5, 6, 7, 8].map (fun k => nodeInfoWord (some (nodeAt t k))) ==
         [0x80000602, 0x80000801, 0x80000C05, 0x80000E00]) = true := by decide +kernel

/-- V-B9: the largest legal frequencies; NODE_FREQ of node 4 is 0x17FFFFFFD. -/
theorem test_build_wide_sums :
    (let t := built small [{ sym := 0x61, freq := 0x7FFFFFFF }, { sym := 0x62, freq := 0x7FFFFFFF },
        { sym := 0x63, freq := 0x7FFFFFFF }] []
     nodeFreqLoWord (some (nodeAt t 4)) == 0x7FFFFFFD && nodeFreqHiWord (some (nodeAt t 4)) == 1 && t.root == 4) = true := by
  decide +kernel

/-- V-G2: CT_LEN and CT_BITS of a, b, c, d, r and z. -/
theorem test_genCodes :
    (let t := coded small tableAbra []
     [0x61, 0x62, 0x63, 0x64, 0x72, 0x7A].map (fun c => (ctLenWord { t with ctSym := c }, ctBitsWord { t with ctSym := c })) ==
       [(1, 0x00000000), (3, 0xC0000000), (3, 0x80000000), (3, 0xA0000000), (3, 0xE0000000), (0, 0)]) = true := by
  decide +kernel

/-- V-G3: a single leaf gets the code "0"; STATUS bits 4 to 6 are 1 (STATUS = 0x00000372). -/
theorem test_genCodes_single_leaf :
    (let t := coded small tableA []
     ctLenWord { t with ctSym := 0x61 } == 1 && ctBitsWord { t with ctSym := 0x61 } == 0 &&
       statusWord { t with lastOp := 3 } == 0x00000372) = true := by decide +kernel

/-- V-P2: "abracadabra" packs to 6E 8A DC with one pad bit. -/
theorem test_pack :
    reaches (exec .pack (coded Params.default tableAbra
        [0x61, 0x62, 0x72, 0x61, 0x63, 0x61, 0x64, 0x61, 0x62, 0x72, 0x61])) (fun t =>
      t.obuf == [(0, 0x6E), (1, 0x8A), (2, 0xDC)] && t.outLen == 3 && t.padOut == 1) = true := by decide +kernel

/-- V-P15: "abc" under the codes of a and b raises UNCODED_SYMBOL (ERR = 0x00000405), OUT_LEN = PAD_OUT = 0. -/
theorem test_pack_uncoded :
    reaches (exec .pack { coded small tableAb [0x61, 0x62, 0x63] with pending := 4, outLen := 1, padOut := 3 }) (fun t =>
      errWord t == 0x00000405 && t.outLen == 0 && t.padOut == 0) = true := by decide +kernel

/-- V-D2: 6E 8A DC with one pad bit decodes to "abracadabra". -/
theorem test_decode :
    reaches (exec .decode { built Params.default tableAbra [0x6E, 0x8A, 0xDC] with padIn := 1 }) (fun t =>
      t.obuf.map Prod.snd == [0x61, 0x62, 0x72, 0x61, 0x63, 0x61, 0x64, 0x61, 0x62, 0x72, 0x61] && t.outLen == 0x0B) = true := by
  decide +kernel

/-- V-D3: one bit is left over, so TRUNCATED_CODE (ERR = 0x00000508), OUT_LEN = 0. -/
theorem test_decode_truncated :
    reaches (exec .decode { built small tableAbcd [0x1B] with padIn := 1, pending := 5 }) (fun t =>
      errWord t == 0x00000508 && t.outLen == 0) = true := by decide +kernel

/-! ### Registers and the host -/

/-- V-X9: ID, CAP and the buffer sizes after reset. -/
theorem test_reset_identification :
    readReg .id State.reset = .ok (0x48544231, State.reset) ∧ readReg .cap State.reset = .ok (0x0100FF01, State.reset) ∧
      readReg .ibufSize State.reset = .ok (0x00010000, State.reset) ∧
      readReg .obufSize State.reset = .ok (0x00010000, State.reset) := ⟨rfl, rfl, rfl, rfl⟩

/-- V-X11: IBUF[3] = 11, the writes beyond the buffer are dropped, IBUF_PTR = 6. -/
theorem test_ibuf_data :
    (let t := writeReg .ibufData 0x33 (writeReg .ibufData 0x22 (writeReg .ibufData 0x11
        { State.resetWith small with ibufPtr := 3 }))
     t.ibuf == [(3, 0x11)] && t.ibufPtr == 6) = true := by decide +kernel

/-- V-X7: a write while BUSY = 1 is dropped and sets DROPPED. -/
theorem test_busy_write_dropped :
    reaches (step (waiting 1 [.access (.write 0x024 2)])) (fun t => t.dropped && t.inLen == 0 && t.busy) = true := by
  decide +kernel

/-- V-X8: CLEAR of ERR keeps irq; CLEAR of DONE lowers it. -/
theorem test_clear :
    (let s := { State.reset with irqEn := true, done := true, errCode := some .emptyInput, errOp := 2, lastOp := 2 }
     let t := writeReg .clear 2 s
     let u := writeReg .clear 1 t
     errWord s == 0x00000201 && errWord t == 0 && statusWord t == 0x00000202 && irq t && statusWord u == 0x00000200 &&
       !irq u) = true := by decide +kernel

/-- V-B12: writing FT_SYM, with the value it has, makes the tree stale. -/
theorem test_ftab_write_invalidates :
    (let t := writeReg .ftSym 0x61 (coded small tableAb [])
     !t.treeValid && !t.ctabValid && t.root == 0 && t.nodeCount == 0 &&
       decide (readFtab t 0 = .ok { sym := 0x61, freq := 3 })) = true := by decide +kernel

/-! ### The container -/

/-- V-H1: the 23 bytes of L1-1. -/
theorem test_container_parse :
    parseContainer [0x02, 0, 0, 0, 0, 0, 0, 0, 0x61, 0x03, 0, 0, 0, 0x62, 0x02, 0, 0, 0, 0x03, 0, 0, 0, 0xE0] =
      .ok { entries := tableAb, padding := 3, packed := [0xE0] } := by decide +kernel

/-- L1-1: the container of "aaabb", byte by byte. -/
theorem test_container_serialize :
    (Container.mk tableAb 3 [0xE0]).serialize =
      [0x02, 0, 0, 0, 0, 0, 0, 0, 0x61, 0x03, 0, 0, 0, 0x62, 0x02, 0, 0, 0, 0x03, 0, 0, 0, 0xE0] := by decide +kernel

/-- P1: the container of L1-1 from the values the reads of P1 return. -/
theorem test_container_of_reads :
    containerOfReads [0x00000001, 0x000000E0, 0x00000003, 0x00000002, 0x00000061, 0x00000003, 0x00000062, 0x00000002] =
      some { entries := tableAb, padding := 3, packed := [0xE0] } := by decide +kernel

/-- V-H3, V-H4 and V-H5. -/
theorem test_container_rejects :
    parseContainer [0x02, 0, 0, 0, 0, 0, 0] = .error .truncated ∧
      parseContainer [0x01, 0x01, 0, 0, 0, 0, 0, 0] = .error .tableTooLarge ∧
      parseContainer [0x02, 0, 0, 0, 0, 0, 0, 0, 0x61, 0x03, 0, 0, 0, 0x62, 0x02] = .error .truncated := by decide +kernel

/-! ### Witness states -/

/-- The block of a table with the tree BUILD installs. -/
def treeState (p : Params) (table : List FtabEntry) (bytes : List Byte) : State := installTree table (block p table bytes)

/-- The same block with the codes `a`. -/
def codeState (p : Params) (table : List FtabEntry) (bytes : List Byte) (a : List (Byte × BitString)) : State :=
  { treeState p table bytes with ctab := codeTable a, ctabValid := true }

/-- The codes of V-G1 and V-G3. -/
def codesAb : List (Byte × BitString) := [(0x62, [false]), (0x61, [true])]

@[inherit_doc codesAb]
def codesA : List (Byte × BitString) := [(0x61, [false])]

/-- A coded block meets the invariant when its table passes the checks of R171 and its codes are those of its tree. -/
theorem inv_codeState {p : Params} {table : List FtabEntry} {bytes : List Byte} {a : List (Byte × BitString)} (hp : p.Legal)
    (ht : checkedTable (block p table bytes) = .ok table) (hc : codeAssignments (treeState p table bytes) = .ok a)
    (hb : (block p table bytes).ibuf.wf ∧ ∀ c ∈ (block p table bytes).ibuf, c.1 < p.ibufSize) :
    Inv (codeState p table bytes a) where
  params := hp
  ibuf := hb
  obuf := ⟨List.Pairwise.nil, Memory.within_nil _⟩
  accepted := by simp [codeState, treeState, installTree, block, State.resetWith]
  errOp := by simp [codeState, treeState, installTree, block, State.resetWith]
  noTree := by simp [codeState, treeState, installTree]
  tree := fun _ => by
    refine TreeCoherent.congr (s := treeState p table bytes) ⟨table, installTree_treeOf ht⟩ ?_ ?_ ?_ ?_ ?_ ?_ <;> rfl
  codes := fun _ =>
    ⟨a, (codeAssignments_congr (s := treeState p table bytes) (t := codeState p table bytes a) rfl rfl).trans hc, rfl⟩

/-- The block "a" under the table of V-B1, coded (V-G1). -/
def coded1 : State := codeState small tableAb [0x61] codesAb

/-- The single-leaf block of V-B3, coded (V-G3). -/
def coded2 : State := codeState small tableA [0x61] codesA

theorem inv_coded1 : Inv coded1 :=
  inv_codeState (by decide) (by decide +kernel) (by decide +kernel) (by decide)

theorem inv_coded2 : Inv coded2 :=
  inv_codeState (by decide) (by decide +kernel) (by decide +kernel) (by decide)


/-! ### Witnesses: the engine step -/

theorem witness_StepRunsTheDecodedCommand :
    EngineMoves (pendingAt 0x00000002) ∧ decode (pendingAt 0x00000002).params (pendingAt 0x00000002).pending = .ok .build ∧
    EngineMoves (waiting 3 []) ∧ decode (waiting 3 []).params (waiting 3 []).pending = .ok .build :=
  ⟨⟨rfl, .inl rfl⟩, rfl, ⟨rfl, .inr rfl⟩, rfl⟩

theorem witness_FetchWordRunsTheCommand : Instr.wf State.reset.params .count = true := rfl

/-- One word for each clause, at the ends of the ranges. -/
theorem witness_IllegalWordsRaiseIllegalCmd :
    EngineMoves (pendingAt 0x00000102) ∧ (pendingAt 0x00000102).pending.extractLsb' 8 24 ≠ 0 ∧
    (∀ w ∈ [(0x00000006 : Word), 0x0000000E], EngineMoves (pendingAt w) ∧
      0x06 ≤ ((pendingAt w).pending.extractLsb' 0 8).toNat ∧ ((pendingAt w).pending.extractLsb' 0 8).toNat ≤ 0x0E) ∧
    (∀ w ∈ [(0x00000010 : Word), 0x000000FF], EngineMoves (pendingAt w) ∧
      0x10 ≤ ((pendingAt w).pending.extractLsb' 0 8).toNat) ∧
    EngineMoves { pendingAt 0x00000001 with params := { small with hasCounter := false } } ∧
      ((pendingAt 0x00000001).pending.extractLsb' 0 8).toNat = 0x01 := by
  refine ⟨⟨rfl, .inl rfl⟩, by decide, fun w h => ⟨⟨rfl, .inl rfl⟩, ?_⟩, fun w h => ⟨⟨rfl, .inl rfl⟩, ?_⟩, ⟨rfl, .inl rfl⟩, by decide⟩ <;>
    (simp only [List.mem_cons, List.not_mem_nil, or_false] at h; rcases h with rfl | rfl <;> decide)

theorem witness_EveryCommandEndsItsStep :
    exec .nop State.reset = .next (complete State.reset) ∧
    exec .genCodes State.reset = .next (raiseCmdError .noTree State.reset) := ⟨rfl, rfl⟩

theorem witness_EngineStepComes : (waiting 2 [.wait, .wait]).busy = true ∧ (waiting 2 []).busy = true := ⟨rfl, rfl⟩

/-! ### Witnesses: reset and the invariant -/

theorem witness_ResetValues : State.reset = State.resetWith Params.default := rfl

theorem witness_HardwareResetAbandonsTheCommand :
    HostMoves (idle [.hardwareReset]) ∧ (idle [.hardwareReset]).hostQueue = .hardwareReset :: [] ∧
    HostMoves (waiting 1 [.hardwareReset]) ∧ (waiting 1 [.hardwareReset]).busy = true ∧
    (waiting 1 [.hardwareReset]).hostQueue = .hardwareReset :: [] := ⟨.inl rfl, rfl, .inr (by decide), rfl, rfl⟩

/-- The ends of the legal ranges. -/
theorem witness_ResetStateIsCoherent :
    Params.Legal { ibufSize := 1, obufSize := 1, hasCounter := false, windowBase := 0 } ∧
    Params.Legal { ibufSize := 2 ^ 31 - 1, obufSize := 2 ^ 32 - 1, hasCounter := true, windowBase := 0 } := by decide

theorem witness_EveryStepKeepsTheStateCoherent :
    Inv coded1 ∧ step coded1 = .next coded1 ∧ coded1.treeValid = true ∧ coded1.ctabValid = true :=
  ⟨inv_coded1, rfl, rfl, rfl⟩

theorem witness_HardwiredRegistersNeverChange : step State.reset = .next State.reset := rfl

/-! ### Witnesses: the register window -/

theorem witness_CmdWriteIsAccepted :
    (idle [.access (.write 0x014 2)]).hostQueue = .access (.write 0x014 2) :: [] ∧
    (idle [.access (.write 0x014 2)]).busy = false ∧
    (waiting 1 [.access (.write 0x014 2)]).hostQueue = .access (.write 0x014 2) :: [] ∧
    (waiting 1 [.access (.write 0x014 2)]).busy = true ∧ (waiting 1 [.access (.write 0x014 2)]).engineWait ≠ 0 :=
  ⟨rfl, rfl, rfl, rfl, by decide⟩

theorem witness_BusyWritesAreDropped :
    (waiting 1 [.access (.write Reg.inLen.offset 2)]).busy = true ∧
    (waiting 1 [.access (.write Reg.inLen.offset 2)]).engineWait ≠ 0 ∧
    (waiting 1 [.access (.write Reg.inLen.offset 2)]).hostQueue = .access (.write Reg.inLen.offset 2) :: [] :=
  ⟨rfl, by decide, rfl⟩

/-- Offsets for each clause, at the ends of the ranges. -/
theorem witness_BusyReads :
    (∀ o ∈ [(0x000 : BitVec 12), 0x01C, 0x014, 0x020, 0x07C, 0xFFC, 0x024, 0x078],
      (waiting 1 [.access (.read o)]).busy = true ∧ (waiting 1 [.access (.read o)]).engineWait ≠ 0 ∧ o.toNat % 4 = 0 ∧
      (waiting 1 [.access (.read o)]).hostQueue = .access (.read o) :: []) ∧
    (0x000 : BitVec 12) = Reg.id.offset ∧ (0x01C : BitVec 12) = Reg.err.offset ∧ (0x014 : BitVec 12) = Reg.cmd.offset ∧
    (0x020 : BitVec 12) = Reg.clear.offset ∧ 0x07C ≤ (0x07C : BitVec 12).toNat ∧ 0x07C ≤ (0xFFC : BitVec 12).toNat ∧
    0x024 ≤ (0x024 : BitVec 12).toNat ∧ (0x078 : BitVec 12).toNat ≤ 0x078 := by
  refine ⟨fun o h => ⟨rfl, Nat.one_ne_zero, ?_, rfl⟩, by decide⟩
  simp only [List.mem_cons, List.not_mem_nil, or_false] at h
  rcases h with rfl | rfl | rfl | rfl | rfl | rfl | rfl | rfl <;> decide

theorem witness_UnmappedOffsetsReadZero :
    HostMoves (idle [.access (.read 0x07C)]) ∧ (0x07C : BitVec 12).toNat % 4 = 0 ∧ 0x07C ≤ (0x07C : BitVec 12).toNat ∧
    (idle [.access (.read 0x07C)]).hostQueue = .access (.read 0x07C) :: [] ∧
    HostMoves (waiting 1 [.access (.write 0xFFC 5)]) ∧ (0xFFC : BitVec 12).toNat % 4 = 0 ∧
    0x07C ≤ (0xFFC : BitVec 12).toNat ∧
    (waiting 1 [.access (.write 0xFFC 5)]).hostQueue = .access (.write 0xFFC 5) :: [] :=
  ⟨.inl rfl, by decide, by decide, rfl, .inr (by decide), by decide, by decide, rfl⟩

theorem witness_NarrowAndMisalignedAccessesAreRefused :
    ∀ op ∈ [HostOp.access (.read 0x001), .access (.write 0x016 0), .wrongWidth 0x018 16],
      HostMoves (idle [op]) ∧ (idle [op]).hostQueue = op :: [] ∧
      ((∃ o, op = .access (.read o) ∧ o.toNat % 4 ≠ 0) ∨ (∃ o w, op = .access (.write o w) ∧ o.toNat % 4 ≠ 0) ∨
        ∃ o b, op = .wrongWidth o b) := by
  intro op h
  refine ⟨.inl rfl, rfl, ?_⟩
  simp only [List.mem_cons, List.not_mem_nil, or_false] at h
  rcases h with rfl | rfl | rfl
  · exact .inl ⟨_, rfl, by decide⟩
  · exact .inr (.inl ⟨_, _, rfl, by decide⟩)
  · exact .inr (.inr ⟨_, _, rfl⟩)

theorem witness_IdleAccessesReachTheRegister :
    (idle [.access (.read Reg.ibufData.offset)]).busy = false ∧
    (idle [.access (.read Reg.ibufData.offset)]).hostQueue = .access (.read Reg.ibufData.offset) :: [] ∧
    readReg .status (afterAccess [] (idle [.access (.read Reg.status.offset)])) =
      .ok (0, afterAccess [] (idle [.access (.read Reg.status.offset)])) ∧
    (idle [.access (.write Reg.inLen.offset 7)]).hostQueue = .access (.write Reg.inLen.offset 7) :: [] ∧
    0x3FFFFFFF < small.windowBase ∧ small.windowBase + 4096 ≤ 0x40001000 :=
  ⟨rfl, rfl, rfl, rfl, by decide, by decide⟩

/-- 20_memory R97: the last address below the window, its first and last word, and the first address above it. -/
theorem test_window_addresses :
    accessAt small 0x3FFFFFFC none = [] ∧ accessAt small 0x40000000 none = [.access (.read 0x000)] ∧
      accessAt small 0x40000FFC (some 5) = [.access (.write 0xFFC 5)] ∧ accessAt small 0x40001000 none = [] := by decide

theorem witness_AccessesWithSideEffects :
    readReg .ibufData coded1 = .ok (0x61, { coded1 with ibufPtr := 1 }) ∧
    readReg .ftFreq coded1 = .ok (3, { coded1 with ftIndex := 1 }) ∧
    readReg .obufData { coded1 with obuf := [(0, 0xE0)] } =
      .ok (0xE0, { coded1 with obuf := [(0, 0xE0)], obufPtr := 1 }) ∧
    readReg .id coded1 = .ok (0x48544231, coded1) ∧ readOnly .status = true := ⟨rfl, rfl, rfl, rfl, rfl⟩

theorem witness_ReservedFields :
    readReg .cap State.reset = .ok (0x0100FF01, State.reset) ∧ Reg.ftCount ≠ .cmd ∧ readOnly .cap = true :=
  ⟨rfl, by decide, rfl⟩

theorem witness_StatusAndErrFields : Inv coded1 ∧ errCodeByte coded1 = 0 ∧
    (raiseCmdError .emptyInput State.reset).errCode = some .emptyInput ∧
    (raiseCmdError .illegalCmd State.reset).errCode = some .illegalCmd := ⟨inv_coded1, rfl, rfl, rfl⟩

/-- The last byte of IBUF and the first address beyond it. -/
theorem witness_IbufDataPort :
    ({ coded1 with ibuf := [(3, 7)], ibufPtr := 3 } : State).ibufPtr.toNat <
      ({ coded1 with ibuf := [(3, 7)], ibufPtr := 3 } : State).params.ibufSize ∧
    ({ coded1 with ibuf := [(3, 7)], ibufPtr := 3 } : State).ibuf.read 3 = some 7 ∧
    ({ coded1 with ibufPtr := 4 } : State).params.ibufSize ≤ ({ coded1 with ibufPtr := 4 } : State).ibufPtr.toNat := by
  refine ⟨by decide, by decide, by decide⟩

/-- The last byte of OBUF and the first address beyond it. -/
theorem witness_ObufDataPort :
    ({ coded1 with obuf := [(3, 7)], obufPtr := 3 } : State).obufPtr.toNat <
      ({ coded1 with obuf := [(3, 7)], obufPtr := 3 } : State).params.obufSize ∧
    ({ coded1 with obuf := [(3, 7)], obufPtr := 3 } : State).obuf.read 3 = some 7 ∧
    ({ coded1 with obufPtr := 4 } : State).params.obufSize ≤ ({ coded1 with obufPtr := 4 } : State).obufPtr.toNat := by
  refine ⟨by decide, by decide, by decide⟩

/-- A written entry and an unwritten one. -/
theorem witness_FtabPorts :
    coded1.ftab[coded1.ftIndex.toNat]? = some (some { sym := 0x61, freq := 3 }) ∧
    State.reset.ftab[State.reset.ftIndex.toNat]? = some none := ⟨rfl, rfl⟩

theorem witness_UnwrittenReadsFault :
    State.reset.ibufPtr.toNat < State.reset.params.ibufSize ∧ State.reset.ibuf.read State.reset.ibufPtr.toNat = none ∧
    State.reset.obufPtr.toNat < State.reset.params.obufSize ∧ State.reset.obuf.read State.reset.obufPtr.toNat = none ∧
    ({ State.reset with ftIndex := 255 } : State).ftab[({ State.reset with ftIndex := 255 } : State).ftIndex.toNat]? =
      some none := ⟨by decide, rfl, by decide, rfl, by decide +kernel⟩

/-- An unwritten last entry and an unwritten last byte, for BUILD, PACK, and DECODE with one leaf and with two. -/
theorem witness_UnwrittenReadsFault_commands :
    (let s := { block small tableA [] with ftCount := 2 }
     s.ftCount.toNat ≤ 256 ∧ 1 < s.ftCount.toNat ∧ s.ftab[1]? = some none ∧
       s.ftab[0]? = some (some { sym := 0x61, freq := 5 })) ∧
    (let s := { coded1 with inLen := 2 }
     s.ctabValid = true ∧ s.inLen.toNat ≤ s.params.ibufSize ∧ 1 < s.inLen.toNat ∧ s.ibuf.read 1 = none ∧
       s.ibuf.read 0 = some 0x61 ∧ (ctabAt s.ctab 0x61).len ≠ 0) ∧
    (let s := { treeState ⟨4, 8, true, 0⟩ tableA [0xFF] with inLen := 2, padIn := 7 }
     s.treeValid = true ∧ s.padIn.toNat ≤ 7 ∧ s.inLen.toNat ≤ s.params.ibufSize ∧ [(0xFF : Byte)].length < s.inLen.toNat ∧
       s.ibuf.read 0 = some 0xFF ∧ s.ibuf.read 1 = none ∧ s.singleLeaf = true ∧
       s.node[s.root.toNat]? = some { leaf := true, sym := 0x61, freq := 5, left := 0, right := 0 } ∧
       8 * [(0xFF : Byte)].length ≤ s.params.obufSize) ∧
    (let s := { treeState ⟨4, 8, true, 0⟩ tableAb [0xFF] with inLen := 2 }
     let words : List (BitString × Byte) := List.replicate 8 ([true], 0x61)
     s.treeValid = true ∧ s.ibuf.read 0 = some 0xFF ∧ s.ibuf.read 1 = none ∧ s.singleLeaf = false ∧
       (∀ x ∈ words, x.1 ≠ [] ∧ leafAlong s s.root x.1 = some x.2) ∧
       words.flatMap Prod.fst ++ [] = [(0xFF : Byte)].flatMap byteBits ∧ internalAlong s s.root [] = some 2 ∧
       words.length ≤ s.params.obufSize) := by
  refine ⟨?_, ?_, ?_, ?_⟩ <;> decide +kernel

/-- A leaf, the last node of the tree (an internal one), and the first index beyond it; and no tree. -/
theorem witness_NodeReadBack :
    coded1.treeValid = true ∧ (0 : Nat) < coded1.nodeCount.toNat ∧ coded1.nodeSel.toNat = 0 ∧
    coded1.node[0]? = some { leaf := true, sym := 0x61, freq := 3, left := 0, right := 0 } ∧
    ({ coded1 with nodeSel := 2 } : State).nodeSel.toNat < ({ coded1 with nodeSel := 2 } : State).nodeCount.toNat ∧
    coded1.node[2]? = some { leaf := false, sym := 0, freq := 5, left := 1, right := 0 } ∧
    ({ coded1 with nodeSel := 3 } : State).nodeCount.toNat ≤ ({ coded1 with nodeSel := 3 } : State).nodeSel.toNat ∧
    State.reset.treeValid = false :=
  ⟨rfl, by decide +kernel, rfl, by decide +kernel, by decide +kernel, by decide +kernel, by decide +kernel, rfl⟩

/-! ### Witnesses: whole-machine rules -/

/-- A completed command with IRQ_EN, idle, and about to be cleared, restarted, disabled or reset. -/
theorem witness_IrqFollowsCompletion :
    EngineMoves { pendingAt 0 with irqEn := true } ∧
    step { pendingAt 0 with irqEn := true } = .next (complete { pendingAt 0 with irqEn := true }) ∧
    Inv { coded1 with irqEn := true, done := true } ∧ irq { coded1 with irqEn := true, done := true } = true ∧
    step { coded1 with irqEn := true, done := true } = .next { coded1 with irqEn := true, done := true } := by
  refine ⟨⟨rfl, .inl rfl⟩, rfl, ?_, rfl, rfl⟩
  constructor
  · exact inv_coded1.params
  · exact inv_coded1.ibuf
  · exact inv_coded1.obuf
  · exact fun h => absurd h (by decide)
  · exact inv_coded1.errOp
  · exact inv_coded1.noTree
  · intro h
    refine TreeCoherent.congr (inv_coded1.tree h) ?_ ?_ ?_ ?_ ?_ ?_ <;> rfl
  · intro h
    refine CodesCoherent.congr (inv_coded1.codes h) ?_ ?_ ?_ <;> rfl

/-- A write of FT_COUNT under a valid tree. -/
theorem witness_TableChangesInvalidateTheTree :
    reaches (step { coded1 with hostQueue := [wr .ftCount 9] }) (fun t =>
      decide (t.ftCount ≠ coded1.ftCount)) = true ∧ coded1.treeValid = true := ⟨by decide +kernel, rfl⟩

/-- A BUILD that writes NODE and a GENCODES that writes CTAB. -/
theorem witness_OnlyBuildAndGenCodesWriteTheTables :
    reaches (step { block small tableAb [] with busy := true, pending := 2 }) (fun t =>
      decide (t.node[0] ≠ (block small tableAb []).node[0])) = true ∧
    reaches (step { treeState small tableAb [] with busy := true, pending := 3 }) (fun t =>
      decide (ctabAt t.ctab 0x61 ≠ ctabAt (treeState small tableAb []).ctab 0x61)) = true ∧
    (∀ rest, (block small tableAb []).hostQueue ≠ .hardwareReset :: rest) := by
  refine ⟨by decide +kernel, by decide +kernel, fun rest h => ?_⟩
  cases h

/-- An IBUF_DATA write, and a PACK. -/
theorem witness_OnlyTheirOwnersWriteTheBuffers :
    reaches (step (idle [wr .ibufData 5])) (fun t => decide (t.ibuf.read 0 ≠ State.reset.ibuf.read 0)) = true ∧
    reaches (step { coded1 with busy := true, pending := 4 }) (fun t =>
      decide (t.obuf.read 0 ≠ coded1.obuf.read 0)) = true ∧
    (∀ rest, (idle [wr .ibufData 5]).hostQueue ≠ .hardwareReset :: rest) := by
  refine ⟨by decide +kernel, by decide +kernel, fun rest h => ?_⟩
  cases h

/-! ### Witnesses: COUNT and BUILD -/

/-- A full IBUF, and no input at all. -/
theorem witness_CountCompletes :
    small.Legal ∧ small.hasCounter = true ∧
    (block small [] [0x61, 0x62, 0x61, 0xFF]).inLen.toNat ≤ small.ibufSize ∧
    HoldsInput (block small [] [0x61, 0x62, 0x61, 0xFF]) [0x61, 0x62, 0x61, 0xFF] ∧
    HoldsInput (block small [] []) [] :=
  ⟨by decide, rfl, by decide, ⟨rfl, by decide⟩, ⟨rfl, by decide⟩⟩

theorem witness_CountRejectsALongInput :
    ({ block small [] [] with inLen := 5 } : State).params.hasCounter = true ∧
    ({ block small [] [] with inLen := 5 } : State).params.ibufSize < ({ block small [] [] with inLen := 5 } : State).inLen.toNat :=
  ⟨rfl, by decide⟩

/-- The unwritten byte is the last of the input. -/
theorem witness_CountFaultsOnUnwrittenInput :
    ({ block small [] [0x61] with inLen := 2 } : State).params.hasCounter = true ∧
    ({ block small [] [0x61] with inLen := 2 } : State).inLen.toNat ≤ ({ block small [] [0x61] with inLen := 2 } : State).params.ibufSize ∧
    1 < ({ block small [] [0x61] with inLen := 2 } : State).inLen.toNat ∧
    ({ block small [] [0x61] with inLen := 2 } : State).ibuf.read 1 = none ∧
    ∀ b, b < 1 → ({ block small [] [0x61] with inLen := 2 } : State).ibuf.read b ≠ none :=
  ⟨rfl, by decide, by decide, by decide, by decide⟩

/-- One entry with the largest legal frequency, two entries, and all 256 symbols. -/
theorem witness_BuildMakesTheHuffmanTree :
    HoldsTable (block small [⟨0x61, 0x7FFFFFFF⟩] []) [⟨0x61, 0x7FFFFFFF⟩] ∧ GoodTable [⟨0x61, 0x7FFFFFFF⟩] ∧
    HoldsTable (block small tableAb []) tableAb ∧ GoodTable tableAb ∧
    GoodTable ((List.range 256).map fun i => { sym := BitVec.ofNat 8 i, freq := 1 }) := by
  refine ⟨⟨rfl, by decide +kernel⟩, ⟨by decide, by decide, by decide, by decide⟩, ⟨rfl, by decide +kernel⟩,
    ⟨by decide, by decide, by decide, by decide⟩, ⟨by simp, by simp, by simp, ?_⟩⟩
  rw [List.map_map]
  refine List.Nodup.map_on (fun x hx y hy h => ?_) List.nodup_range
  have := congrArg BitVec.toNat h
  simp at this hx hy
  omega

/-- FT_COUNT = 0 and 257; a last entry of frequency 0, and one of 2^31; a symbol twice. -/
theorem witness_BuildRejectsBadTables :
    (block small [] []).ftCount.toNat = 0 ∧ 256 < ({ block small [] [] with ftCount := 257 } : State).ftCount.toNat ∧
    (∀ f ∈ [(0 : Word), 0x80000000], (block small [⟨0x61, 1⟩, ⟨0x62, f⟩] []).ftCount.toNat ≤ 256 ∧
      1 < (block small [⟨0x61, 1⟩, ⟨0x62, f⟩] []).ftCount.toNat ∧
      (block small [⟨0x61, 1⟩, ⟨0x62, f⟩] []).ftab[1]? = some (some ⟨0x62, f⟩) ∧ (f.toNat = 0 ∨ 2 ^ 31 ≤ f.toNat) ∧
      ∀ j, j < 1 → (block small [⟨0x61, 1⟩, ⟨0x62, f⟩] []).ftab[j]? ≠ some none) ∧
    HoldsTable (block small [⟨0x61, 1⟩, ⟨0x61, 2⟩] []) [⟨0x61, 1⟩, ⟨0x61, 2⟩] ∧
    ¬ (([⟨0x61, 1⟩, ⟨0x61, 2⟩] : List FtabEntry).map FtabEntry.sym).Nodup := by
  refine ⟨rfl, by decide, fun f h => ?_, ⟨rfl, by decide +kernel⟩, by decide⟩
  simp only [List.mem_cons, List.not_mem_nil, or_false] at h
  rcases h with rfl | rfl <;> exact ⟨by decide, by decide, rfl, by decide, by decide +kernel⟩

theorem witness_BuildDependsOnTheTableAlone :
    HoldsTable (block small tableAb []) tableAb ∧ HoldsTable coded1 tableAb ∧ GoodTable tableAb := by
  refine ⟨⟨rfl, by decide +kernel⟩, ⟨rfl, by decide +kernel⟩, ?_⟩
  unfold GoodTable
  decide +kernel

/-! ### Witnesses: the tree and the codes -/

theorem witness_TreeShape :
    Inv coded1 ∧ coded1.treeValid = true ∧ HoldsTable coded1 tableAb ∧
    Inv coded2 ∧ coded2.treeValid = true ∧ HoldsTable coded2 tableA :=
  ⟨inv_coded1, rfl, ⟨rfl, by decide +kernel⟩, inv_coded2, rfl, ⟨rfl, by decide +kernel⟩⟩

theorem witness_RootFrequencyIsTheTotal : Inv coded1 ∧ coded1.treeValid = true ∧ HoldsTable coded1 tableAb :=
  ⟨inv_coded1, rfl, ⟨rfl, by decide +kernel⟩⟩

theorem witness_GenCodesCompletes :
    Inv coded1 ∧ coded1.treeValid = true ∧ coded1.singleLeaf = false ∧
    Inv coded2 ∧ coded2.treeValid = true ∧ coded2.singleLeaf = true := ⟨inv_coded1, rfl, rfl, inv_coded2, rfl, rfl⟩

theorem witness_GenCodesNeedsATree : State.reset.treeValid = false := rfl

theorem witness_CodesAreUniquelyDecodable :
    Inv coded1 ∧ coded1.ctabValid = true ∧ HoldsTable coded1 tableAb ∧ (ctabAt coded1.ctab 0x61).len ≠ 0 ∧
    (ctabAt coded1.ctab 0x62).len ≠ 0 ∧ coded1.singleLeaf = false ∧
    Inv coded2 ∧ coded2.ctabValid = true ∧ HoldsTable coded2 tableA ∧ (ctabAt coded2.ctab 0x61).len ≠ 0 ∧
    coded2.singleLeaf = true :=
  ⟨inv_coded1, rfl, ⟨rfl, by decide +kernel⟩, by decide +kernel, by decide +kernel, rfl, inv_coded2, rfl,
    ⟨rfl, by decide +kernel⟩, by decide +kernel, rfl⟩

theorem witness_CodeLengthBound :
    Inv coded1 ∧ coded1.ctabValid = true ∧ HoldsTable coded1 tableAb ∧ (ctabAt coded1.ctab 0x61).len ≠ 0 ∧
    2 ≤ tableAb.length ∧ Inv coded2 ∧ coded2.ctabValid = true ∧ HoldsTable coded2 tableA ∧
    (ctabAt coded2.ctab 0x61).len ≠ 0 ∧ tableA.length = 1 :=
  ⟨inv_coded1, rfl, ⟨rfl, by decide +kernel⟩, by decide +kernel, by decide, inv_coded2, rfl, ⟨rfl, by decide +kernel⟩,
    by decide +kernel, rfl⟩

theorem witness_KraftEquality : Inv coded1 ∧ coded1.ctabValid = true ∧ coded1.singleLeaf = false :=
  ⟨inv_coded1, rfl, rfl⟩

/-! ### Witnesses: PACK and DECODE -/

/-- One byte; and the full IBUF, its codes filling the one byte of OBUF of a smaller block. -/
theorem witness_PackCompletes :
    coded1.params.Legal ∧ coded1.ctabValid = true ∧ coded1.inLen.toNat ≤ coded1.params.ibufSize ∧
    HoldsInput coded1 [0x61] ∧ (∀ b ∈ [(0x61 : Byte)], (ctabAt coded1.ctab b).len ≠ 0) ∧
    [true] = [(0x61 : Byte)].flatMap (codeOf coded1) ∧ ([true].length + 7) / 8 ≤ coded1.params.obufSize ∧
    HoldsInput (codeState small tableAb [] codesAb) [] := by
  refine ⟨by decide, rfl, by decide, ⟨rfl, by decide⟩, by decide +kernel, by decide +kernel, by decide, ⟨rfl, by decide⟩⟩

/-- No codes; IN_LEN = 5 over IBUF_SIZE = 4; a last byte without a code; five bytes of output over OBUF_SIZE = 4 (40 codes of
one bit). -/
theorem witness_PackRejects :
    State.reset.ctabValid = false ∧
    ({ coded1 with inLen := 5 } : State).params.ibufSize < ({ coded1 with inLen := 5 } : State).inLen.toNat ∧
    (1 < (codeState small tableAb [0x61, 0x7A] codesAb).inLen.toNat ∧
      (codeState small tableAb [0x61, 0x7A] codesAb).ibuf.read 1 = some 0x7A ∧
      (ctabAt (codeState small tableAb [0x61, 0x7A] codesAb).ctab 0x7A).len = 0 ∧
      ∀ a', a' < 1 → (codeState small tableAb [0x61, 0x7A] codesAb).ibuf.read a' ≠ none) ∧
    (HoldsInput (codeState ⟨40, 4, true, 0⟩ tableAb (List.replicate 40 0x61) codesAb) (List.replicate 40 0x61) ∧
      (∀ b ∈ List.replicate 40 (0x61 : Byte),
        (ctabAt (codeState ⟨40, 4, true, 0⟩ tableAb (List.replicate 40 0x61) codesAb).ctab b).len ≠ 0) ∧
      4 < (((List.replicate 40 (0x61 : Byte)).flatMap
        (codeOf (codeState ⟨40, 4, true, 0⟩ tableAb (List.replicate 40 0x61) codesAb))).length + 7) / 8) := by
  refine ⟨rfl, by decide, ⟨by decide, by decide, by decide +kernel, by decide⟩, ⟨rfl, by decide +kernel⟩, ?_, by decide +kernel⟩
  intro b h
  rw [List.eq_of_mem_replicate h]
  decide +kernel

/-- V-D1 with three data bits: E0 with five pad bits is "aaa", filling an OBUF of three bytes. -/
theorem witness_DecodeCompletesOnWholeCodes :
    (let s := { treeState ⟨4, 3, true, 0⟩ tableAb [0xE0] with padIn := 5 }
     let words : List (BitString × Byte) := [([true], 0x61), ([true], 0x61), ([true], 0x61)]
     s.params.Legal ∧ s.treeValid = true ∧ s.singleLeaf = false ∧ HoldsInput s [0xE0] ∧ [(0xE0 : Byte)] ≠ [] ∧
     [(0xE0 : Byte)].length ≤ s.params.ibufSize ∧ s.padIn.toNat ≤ 7 ∧ (∀ x ∈ words, leafAlong s s.root x.1 = some x.2) ∧
     words.flatMap Prod.fst = streamBits s.padIn.toNat [0xE0] ∧ words.length ≤ s.params.obufSize) := by
  refine ⟨by decide, rfl, rfl, ⟨rfl, by decide⟩, by decide, by decide, by decide, by decide +kernel, by decide +kernel, by decide⟩

/-- No bytes with three pad bits (V-D8), and one byte with four, filling OBUF. -/
theorem witness_DecodeCompletesOnASingleLeaf :
    (∀ bytes ∈ [([] : List Byte), [0xFF]],
      (let s := { treeState small tableA bytes with padIn := 4 }
       s.params.Legal ∧ s.treeValid = true ∧ s.singleLeaf = true ∧ bytes.length ≤ s.params.ibufSize ∧ s.padIn.toNat ≤ 7 ∧
       s.node[s.root.toNat]? = some { leaf := true, sym := 0x61, freq := 5, left := 0, right := 0 } ∧
       8 * bytes.length - s.padIn.toNat ≤ s.params.obufSize)) ∧
    HoldsInput { treeState small tableA [] with padIn := 4 } [] ∧
    HoldsInput { treeState small tableA [0xFF] with padIn := 4 } [0xFF] :=
  ⟨by decide +kernel, ⟨rfl, by decide⟩, ⟨rfl, by decide⟩⟩

/-- V-D3: "abc" and one bit left over, in a block whose OBUF they fill; V-D10: five symbols over OBUF_SIZE = 4; and five data
bits over OBUF_SIZE = 4 with a single leaf. -/
theorem witness_DecodeStopsInTheWalk :
    (let s := { treeState ⟨4, 3, true, 0⟩ tableAbcd [0x1B] with padIn := 1 }
     let words : List (BitString × Byte) := [([false, false], 0x61), ([false, true], 0x62), ([true, false], 0x63)]
     s.treeValid = true ∧ s.singleLeaf = false ∧ HoldsInput s [0x1B] ∧ s.padIn.toNat ≤ 7 ∧
     (∀ x ∈ words, x.1 ≠ [] ∧ leafAlong s s.root x.1 = some x.2) ∧
     words.flatMap Prod.fst ++ [true] = streamBits s.padIn.toNat [0x1B] ∧ words.length ≤ s.params.obufSize ∧
     internalAlong s s.root [true] = some 5 ∧ (5 : BitVec 9) ≠ s.root) ∧
    (let s := { treeState small tableAb [0xE0] with padIn := 3 }
     let words : List (BitString × Byte) := [([true], 0x61), ([true], 0x61), ([true], 0x61), ([false], 0x62), ([false], 0x62)]
     s.treeValid = true ∧ s.singleLeaf = false ∧ HoldsInput s [0xE0] ∧ s.padIn.toNat ≤ 7 ∧
     (∀ x ∈ words, x.1 ≠ [] ∧ leafAlong s s.root x.1 = some x.2) ∧
     words.flatMap Prod.fst ++ [] = streamBits s.padIn.toNat [0xE0] ∧ s.params.obufSize < words.length) ∧
    (let s := { treeState small tableA [0xE0] with padIn := 3 }
     s.treeValid = true ∧ s.singleLeaf = true ∧ HoldsInput s [0xE0] ∧ [(0xE0 : Byte)].length ≤ s.params.ibufSize ∧
     s.padIn.toNat ≤ 7 ∧ s.node[s.root.toNat]? = some { leaf := true, sym := 0x61, freq := 5, left := 0, right := 0 } ∧
     s.params.obufSize < 8 * [(0xE0 : Byte)].length - s.padIn.toNat) := by
  refine ⟨⟨rfl, rfl, ⟨rfl, by decide⟩, by decide, by decide +kernel, by decide +kernel, by decide, by decide +kernel,
    by decide +kernel⟩, ⟨rfl, rfl, ⟨rfl, by decide⟩, by decide, by decide +kernel, by decide +kernel, by decide⟩,
    ⟨rfl, rfl, ⟨rfl, by decide⟩, by decide, by decide, by decide +kernel, by decide⟩⟩

/-- PAD_IN = 8 and 7, IN_LEN = 5 over IBUF_SIZE = 4, and no bytes on two leaves. -/
theorem witness_DecodeRejects :
    State.reset.treeValid = false ∧ coded1.treeValid = true ∧ 7 < ({ coded1 with padIn := 8 } : State).padIn.toNat ∧
    ({ coded1 with padIn := 7, inLen := 5 } : State).padIn.toNat ≤ 7 ∧
    coded1.params.ibufSize < ({ coded1 with padIn := 7, inLen := 5 } : State).inLen.toNat ∧
    ({ coded1 with inLen := 0 } : State).inLen.toNat = 0 ∧ coded1.singleLeaf = false :=
  ⟨rfl, rfl, by decide, by decide, by decide, rfl, rfl⟩

theorem witness_DecodeNeverDescendsPastALeaf : Inv coded1 ∧ coded1.errCode = none ∧ coded1.treeValid = true :=
  ⟨inv_coded1, rfl, rfl⟩

theorem witness_DecodeOfAnyStreamEnds :
    Inv coded1 ∧ coded1.errCode = none ∧ coded1.treeValid = true ∧ HoldsInput coded1 [0x61] ∧
    [(0x61 : Byte)].length ≤ coded1.params.ibufSize ∧ coded1.padIn.toNat ≤ 7 ∧ [(0x61 : Byte)] ≠ [] ∧
    coded2.singleLeaf = true :=
  ⟨inv_coded1, rfl, rfl, ⟨rfl, by decide⟩, by decide, by decide, by decide, rfl⟩

theorem pack_coded1 :
    exec .pack coded1 = .next (complete { coded1 with obuf := [(0, 0x80)], outLen := 1, padOut := 7 }) := by
  have h := packBody_eq_ok (s := coded1).2 ⟨rfl, by decide, [0x61], ⟨rfl, by decide⟩, by decide +kernel, by decide +kernel, rfl⟩
  have hp : packedBytes (([0x61] : List Byte).flatMap (codeOf coded1)) = [0x80] := by decide +kernel
  have hl : (([0x61] : List Byte).flatMap (codeOf coded1)).length = 1 := by decide +kernel
  rw [hp, hl] at h
  show finishCommand packFailed coded1 (packBody coded1) = _
  rw [h]
  rfl

/-- PACK of "a" gives 80 with seven pad bits; the same block reloaded with it. -/
theorem witness_DecodeInvertsPack :
    ∃ t u : State, Inv coded1 ∧ coded1.ctabValid = true ∧ coded1.errCode = none ∧ exec .pack coded1 = .next t ∧ t.errCode = none ∧
      coded1.inLen.toNat ≤ coded1.params.obufSize ∧ coded1.inLen ≠ 0 ∧ u.params = coded1.params ∧ u.node = coded1.node ∧
      u.root = coded1.root ∧ u.treeValid = true ∧ u.singleLeaf = coded1.singleLeaf ∧ u.inLen = t.outLen ∧
      t.outLen.toNat ≤ u.params.ibufSize ∧ u.padIn = t.padOut.setWidth 32 ∧
      ∀ a, a < t.outLen.toNat → u.ibuf.read a = t.obuf.read a :=
  ⟨complete { coded1 with obuf := [(0, 0x80)], outLen := 1, padOut := 7 },
    { coded1 with ibuf := [(0, 0x80)], inLen := 1, padIn := 7 },
    inv_coded1, rfl, rfl,
    pack_coded1, rfl, by decide, by decide, rfl, rfl, rfl, rfl, rfl, rfl, by decide, rfl, by decide⟩

/-! ### Witnesses: errors and the container -/

/-- A check that fails, and a walk that fails (V-D10). -/
theorem witness_FailedCommandsChangeNothingElse :
    (pendingAt 0x00000002).errCode = none ∧
    engineStep (pendingAt 0x00000002) = .next (buildFailed .emptyInput (raiseCmdError .emptyInput (pendingAt 0x00000002))) ∧
    (buildFailed .emptyInput (raiseCmdError .emptyInput (pendingAt 0x00000002))).errCode = some .emptyInput ∧
    reaches (engineStep { treeState small tableAb [0xE0] with padIn := 3, pending := 0x00000005 }) (fun t =>
      decide (t.errCode = some .outOverflow)) = true := ⟨rfl, rfl, rfl, by decide +kernel⟩

theorem witness_RetryGivesTheSameError :
    (pendingAt 0x00000003).errCode = none ∧
    engineStep (pendingAt 0x00000003) = .next (raiseCmdError .noTree (pendingAt 0x00000003)) ∧
    (raiseCmdError .noTree (pendingAt 0x00000003)).errCode = some .noTree := ⟨rfl, rfl, rfl⟩

theorem witness_ContainerRoundTrip :
    (let s := { coded1 with obuf := [(0, 0x80), (1, 0), (2, 0), (3, 0)], outLen := 4, padOut := 7, hostQueue := readContainerOps }
     s.busy = false ∧ s.hostQueue = readContainerOps ++ [] ∧ s.outLen.toNat ≤ s.params.obufSize ∧
       containerOf s = .ok { entries := tableAb, padding := 7, packed := [0x80, 0, 0, 0] }) ∧
    (Container.mk tableAb 3 [0xE0]).entries.length ≤ 256 ∧
    (Container.mk (List.replicate 256 ⟨0x61, 1⟩) 3 []).entries.length ≤ 256 :=
  ⟨⟨rfl, rfl, by decide, by decide +kernel⟩, by decide, by decide⟩

/-- Seven bytes; n = 257; one byte too few for n = 1; and exactly enough for n = 0 and n = 256. -/
theorem witness_ContainerRejects :
    small.Legal ∧
    (leValue ([0x02, 0, 0, 0, 0, 0, 0].take 8) = 2 ∧ [(0x02 : Byte), 0, 0, 0, 0, 0, 0].length < 8) ∧
    (leValue ([0x01, 0x01, 0, 0, 0, 0, 0, 0].take 8) = 257 ∧ 8 ≤ [(0x01 : Byte), 0x01, 0, 0, 0, 0, 0, 0].length) ∧
    (leValue (([0x01, 0, 0, 0, 0, 0, 0, 0] ++ List.replicate 8 0).take 8) = 1 ∧
      ([(0x01 : Byte), 0, 0, 0, 0, 0, 0, 0] ++ List.replicate 8 0).length < 8 + 5 * 1 + 4) ∧
    (leValue ((List.replicate 12 0).take 8) = 0 ∧ 8 + 5 * 0 + 4 ≤ (List.replicate 12 (0 : Byte)).length) ∧
    (leValue (([0x00, 0x01, 0, 0, 0, 0, 0, 0] ++ List.replicate 1284 0).take 8) = 256 ∧
      8 + 5 * 256 + 4 ≤ ([(0x00 : Byte), 0x01, 0, 0, 0, 0, 0, 0] ++ List.replicate 1284 0).length) := by decide +kernel

end Sys2Proof.Tests
end

section
/-! PROOFS. What one step can do, as one relation per agent: the effect of a host operation and the result of a command.
The statements about every step are read off these two. -/

namespace Sys2Proof.Machine

/-! ### The effect of a host operation -/

/-- What an operation of the host can do to a block in state `s` (10_state R26 to R56, 20_memory R86 to R92,
70_reset_and_hazards R320). -/
inductive HostEffect (s : State) : HostOp → State → Prop where
  /-- A read, an ignored or dropped write, or a write of a register that nothing but the host's accesses look at. -/
  | registers {op : HostOp} {t : State}
      (h : t = { s with dropped := t.dropped, inLen := t.inLen, padIn := t.padIn, ibufPtr := t.ibufPtr, obufPtr := t.obufPtr,
                        ftIndex := t.ftIndex, ctSym := t.ctSym, ctWordsel := t.ctWordsel, nodeSel := t.nodeSel,
                        draws := t.draws, hostQueue := t.hostQueue, hostReads := t.hostReads }) : HostEffect s op t
  /-- A write of CTRL (R27). -/
  | ctrl (w : Word) : HostEffect s (.access (.write Reg.ctrl.offset w)) { s with irqEn := w.getLsbD 0 }
  /-- The acceptance of a command (R26). -/
  | accept (w : Word) (idle : s.busy = false) : HostEffect s (.access (.write Reg.cmd.offset w)) (acceptCommand w s)
  /-- A write of CLEAR (R30). -/
  | clear (w : Word) (idle : s.busy = false) : HostEffect s (.access (.write Reg.clear.offset w)) (clearStatus w s)
  /-- A write of IBUF_DATA (R36). -/
  | ibufData (w : Word) (idle : s.busy = false) :
      HostEffect s (.access (.write Reg.ibufData.offset w)) (writeIbufData w s)
  /-- A write of FT_COUNT, FT_SYM or FT_FREQ, which makes the tree stale (R39, R41, R42, R47). -/
  | table {op : HostOp} {t : State}
      (h : t = invalidateTree { s with ftab := t.ftab, ftCount := t.ftCount, ftIndex := t.ftIndex, draws := t.draws }) :
      HostEffect s op t
  /-- Hardware reset. -/
  | reset : HostEffect s .hardwareReset (hardwareReset s)

/-- A write of FT_SYM stores an entry with the byte written, which keeps the frequency of a written entry, and leaves the
tree stale (10_state R41, R47). -/
theorem writeFtSym_eq (w : Word) (s : State) :
    ∃ e d, writeFtSym w s = invalidateTree (ftabSet e { s with draws := d }) ∧ e.sym = w.extractLsb' 0 8 ∧
      ∀ e0, s.ftab[s.ftIndex.toNat]'s.ftIndex.isLt = some e0 → e.freq = e0.freq := by
  unfold writeFtSym
  split
  · next e0 he0 => exact ⟨_, s.draws, rfl, rfl, by simp [he0]⟩
  · next hnone => exact ⟨_, _, rfl, rfl, by simp [hnone]⟩

/-- A write of FT_FREQ stores an entry with the frequency written, which keeps the symbol of a written entry, advances
FT_INDEX and leaves the tree stale (10_state R42, R47). -/
theorem writeFtFreq_eq (w : Word) (s : State) :
    ∃ e d, writeFtFreq w s = invalidateTree { ftabSet e { s with draws := d } with ftIndex := s.ftIndex + 1 } ∧ e.freq = w ∧
      ∀ e0, s.ftab[s.ftIndex.toNat]'s.ftIndex.isLt = some e0 → e.sym = e0.sym := by
  unfold writeFtFreq
  split
  · next e0 he0 => exact ⟨_, s.draws, rfl, rfl, by simp [he0]⟩
  · next hnone => exact ⟨_, _, rfl, rfl, by simp [hnone]⟩

/-- The write of a register while the block is idle (20_memory R87, R88). -/
theorem hostEffect_writeReg {s : State} (r : Reg) (w : Word) (idle : s.busy = false) :
    HostEffect s (.access (.write r.offset w)) (writeReg r w s) := by
  cases r
  case ctrl => exact .ctrl w
  case cmd => exact .accept w idle
  case clear => exact .clear w idle
  case ibufData => exact .ibufData w idle
  case ftCount => exact .table rfl
  case ftSym =>
    obtain ⟨e, d, h, -⟩ := writeFtSym_eq w s
    rw [writeReg, h]
    exact .table rfl
  case ftFreq =>
    obtain ⟨e, d, h, -⟩ := writeFtFreq_eq w s
    rw [writeReg, h]
    exact .table rfl
  all_goals exact .registers rfl

theorem hostEffect_writeOffset {s : State} (o : BitVec 12) (w : Word) :
    HostEffect s (.access (.write o w)) (writeOffset o w s) := by
  rcases writeOffset_cases o w s with ⟨-, h⟩ | ⟨-, h⟩ | ⟨idle, r, rfl, h⟩ <;> rw [h]
  · exact .registers rfl
  · exact .registers rfl
  · exact hostEffect_writeReg r w idle

/-- A read, whatever the host does next with its value. -/
theorem hostEffect_read {op : HostOp} {o : BitVec 12} {s u : State} {v : Word} (h : readOffset o s = .ok (v, u))
    (ops : List HostOp) : HostEffect s op (pushOps ops (returnToHost v u)) := by
  rcases readOffset_cases h with rfl | ⟨-, rfl⟩ | ⟨-, rfl | rfl | rfl⟩ <;> exact .registers rfl

theorem hostEffect_of_hostOp {op : HostOp} {s t : State} (h : hostOp op s = .next t) : HostEffect s op t := by
  cases op with
  | access tx =>
    cases tx with
    | read o =>
      obtain ⟨-, v, u, hr, rfl⟩ := hostRead_eq_next.mp h
      exact hostEffect_read hr []
    | write o w =>
      simp only [hostOp, hostWrite] at h
      split at h
      · cases h; exact hostEffect_writeOffset o w
      · cases h
  | wrongWidth o b => cases h
  | wait =>
    obtain ⟨-, v, u, hr, rfl⟩ := hostRead_eq_next.mp h
    unfold pollAgain
    split
    · exact hostEffect_read hr _
    · exact hostEffect_read hr []
  | countedReads c setup body =>
    obtain ⟨-, v, u, hr, rfl⟩ := hostRead_eq_next.mp h
    exact hostEffect_read hr _
  | hardwareReset => cases h; exact .reset

/-! ### The result of a command -/

/-- The states a command can end in from `s`, one constructor per way a command's pseudocode ends. -/
inductive ExecResult (s : State) : Instr → State → Prop where
  /-- NOP (45_control R260). -/
  | nop : ExecResult s .nop (complete s)
  /-- SOFT_RESET (45_control R262). -/
  | softReset : ExecResult s .softReset (complete (Machine.softReset s))
  /-- COUNT installs its table (40_frequency_counter R152). -/
  | count (ftab : Vector (Option FtabEntry) 256) (ftCount : BitVec 9) :
      ExecResult s .count (complete (invalidateTree { s with ftab := ftab, ftCount := ftCount, ftIndex := 0 }))
  /-- BUILD installs the tree of the table FTAB holds (41_tree_builder R183). -/
  | build (entries : List FtabEntry) (table : checkedTable s = .ok entries) :
      ExecResult s .build (complete (installTree entries s))
  /-- BUILD rejects the table (41_tree_builder R172). -/
  | buildFailed (c : CmdError) : ExecResult s .build (invalidateTree (raiseCmdError c s))
  /-- GENCODES installs the codes of the current tree (42_code_table R195). -/
  | genCodes (a : List (Byte × BitString)) (tree : s.treeValid = true) (codes : codeAssignments s = .ok a) :
      ExecResult s .genCodes (complete { s with ctab := codeTable a, ctabValid := true })
  /-- COUNT, GENCODES and ILLEGAL fail with nothing but the error record (60_exceptions R285). -/
  | failed {i : Instr} (c : CmdError) : ExecResult s i (raiseCmdError c s)
  /-- PACK and DECODE write bytes that fit OBUF, from address 0 on (43_packer R217, 44_decoder R238). -/
  | output {i : Instr} (owner : i = .pack ∨ i = .decode) (bytes : List Byte) (fits : bytes.length ≤ s.params.obufSize)
      (outLen : Word) (padOut : BitVec 3) :
      ExecResult s i (complete { s with obuf := s.obuf.writeBytes 0 bytes, outLen := outLen, padOut := padOut })
  /-- PACK and DECODE fail with OBUF as it was (60_exceptions R285). -/
  | outputFailed {i : Instr} (owner : i = .pack ∨ i = .decode) (c : CmdError) (padOut : BitVec 3) :
      ExecResult s i { raiseCmdError c s with outLen := 0, padOut := padOut }
  /-- DECODE fails in its walk, and OBUF holds free bytes (93_implementation_defined U4). -/
  | walkFailed (c : CmdError) :
      ExecResult s .decode { raiseCmdError c s with
        outLen := 0, obuf := Memory.drawn s.draws 0 s.params.obufSize, draws := s.draws + 1 }

theorem execResult_of_exec {i : Instr} {s t : State} (h : exec i s = .next t) : ExecResult s i t := by
  cases i with
  | nop => cases h; exact .nop
  | softReset => cases h; exact .softReset
  | count =>
    simp only [exec, execCount] at h
    split at h
    · rcases finishCommand_eq_next.mp h with ⟨u, hu, rfl⟩ | ⟨c, -, rfl⟩
      · obtain ⟨-, bytes, -, rfl⟩ := countBody_eq_ok.mp hu
        exact .count _ _
      · exact .failed c
    · cases h; exact .failed _
  | build =>
    rcases finishCommand_eq_next.mp h with ⟨u, hu, rfl⟩ | ⟨c, -, rfl⟩
    · obtain ⟨es, table, rfl⟩ := buildBody_eq_ok.mp hu
      exact .build es (checkedTable_eq_ok.mpr table)
    · exact .buildFailed c
  | genCodes =>
    rcases finishCommand_eq_next.mp h with ⟨u, hu, rfl⟩ | ⟨c, -, rfl⟩
    · obtain ⟨tree, a, codes, rfl⟩ := genCodesBody_eq_ok.mp hu
      exact .genCodes a tree codes
    · exact .failed c
  | pack =>
    rcases finishCommand_eq_next.mp h with ⟨u, hu, rfl⟩ | ⟨c, -, rfl⟩
    · obtain ⟨-, -, bytes, -, -, fits, rfl⟩ := packBody_eq_ok.mp hu
      exact .output (.inl rfl) _ fits _ _
    · exact .outputFailed (.inl rfl) c 0
  | decode =>
    rcases finishCommand_eq_next.mp h with ⟨u, hu, rfl⟩ | ⟨c, -, rfl⟩
    · obtain ⟨-, w, hw, -, rfl⟩ := decodeBody_eq_ok.mp hu
      obtain ⟨hlen, hfits⟩ := walk_output_fits hw
      exact .output (.inr rfl) _ (by rw [List.length_reverse]; omega) _ s.padOut
    · unfold decodeFailed
      split
      · exact .walkFailed c
      · exact .outputFailed (.inr rfl) c s.padOut

/-! ### The step -/

/-- Everything a step can do (20_memory R90, R93): a decoded command's result, the record of an illegal word, nothing, or
the effect of the host's next operation. -/
theorem step_effect {s t : State} (h : step s = .next t) :
    (engineTurn s = true ∧ ∃ i, decode s.params s.pending = .ok i ∧ ExecResult s i t) ∨
      (engineTurn s = true ∧ t = raiseCmdError .illegalCmd s) ∨ t = s ∨
      (engineTurn s = false ∧ ∃ op rest, s.hostQueue = op :: rest ∧ HostEffect (takeOp rest s) op t) := by
  rcases step_cases h with ⟨hE, i, hi, h⟩ | ⟨hE, -, rfl⟩ | ⟨-, -, rfl⟩ | ⟨hE, op, rest, hq, h⟩
  · exact .inl ⟨hE, i, hi, execResult_of_exec h⟩
  · exact .inr (.inl ⟨hE, rfl⟩)
  · exact .inr (.inr (.inl rfl))
  · exact .inr (.inr (.inr ⟨hE, op, rest, hq, hostEffect_of_hostOp h⟩))

/-! ### The invariant -/

/-- The invariant carries over to buffers in canonical form with no address beyond their sizes (20_memory R80). -/
theorem Inv.withBuffers {s : State} (h : Inv s) {ibuf obuf : Memory} (hi : ibuf.wf ∧ ibuf.within s.params.ibufSize)
    (ho : obuf.wf ∧ obuf.within s.params.obufSize) : Inv { s with ibuf := ibuf, obuf := obuf } where
  params := h.params
  ibuf := hi
  obuf := ho
  accepted := h.accepted
  errOp := h.errOp
  noTree := h.noTree
  tree := fun hv => (h.tree hv).congr rfl rfl rfl rfl rfl rfl
  codes := fun hv => (h.codes hv).congr rfl rfl rfl

/-- The invariant holds at hardware reset, whatever the host's queue, its log and the count of draws are. -/
theorem inv_hardwareReset {s : State} (h : s.params.Legal) : Inv (hardwareReset s) where
  params := h
  ibuf := ⟨List.Pairwise.nil, Memory.within_nil _⟩
  obuf := ⟨List.Pairwise.nil, Memory.within_nil _⟩
  accepted := nofun
  errOp := fun _ => rfl
  noTree := fun _ => ⟨rfl, rfl, rfl, rfl⟩
  tree := nofun
  codes := nofun

theorem Inv.takeOp {s : State} (h : Inv s) (rest : List HostOp) : Inv (takeOp rest s) :=
  h.of_same rfl rfl rfl h.accepted h.errOp rfl rfl rfl rfl rfl rfl rfl rfl rfl

/-- A write of CLEAR while idle keeps the invariant: it clears ERR_OP with ERR_CODE (10_state R30). -/
theorem Inv.clearStatus {s : State} (h : Inv s) (w : Word) (idle : s.busy = false) : Inv (clearStatus w s) := by
  refine h.of_same rfl rfl rfl (fun hb => by simp [idle] at hb) (fun hc => ?_) rfl rfl rfl rfl rfl rfl rfl rfl rfl
  rw [clearStatus_errCode] at hc
  rw [clearStatus_errOp]
  split
  · rfl
  · next hw => exact h.errOp (by rwa [if_neg hw] at hc)

/-- A write of IBUF_DATA keeps IBUF in canonical form and inside the buffer (10_state R36, 20_memory R80). -/
theorem Inv.writeIbufData {s : State} (h : Inv s) (w : Word) : Inv (writeIbufData w s) := by
  have hbuf : (Machine.writeIbufData w s).ibuf.wf ∧ (Machine.writeIbufData w s).ibuf.within s.params.ibufSize := by
    obtain ⟨hwf, hin⟩ := h.ibuf
    unfold Machine.writeIbufData
    dsimp only
    split
    · next hp => exact ⟨Memory.write_wf hwf _ _, Memory.write_within hin hp _⟩
    · exact ⟨hwf, hin⟩
  exact (h.withBuffers hbuf h.obuf).of_same rfl rfl rfl h.accepted h.errOp rfl rfl rfl rfl rfl rfl rfl rfl rfl

/-- Every host operation keeps the invariant. -/
theorem HostEffect.inv {s t : State} {op : HostOp} (he : HostEffect s op t) (h : Inv s) : Inv t := by
  cases he with
  | registers ht =>
    rw [ht]
    exact h.of_same rfl rfl rfl h.accepted h.errOp rfl rfl rfl rfl rfl rfl rfl rfl rfl
  | ctrl w => exact h.of_same rfl rfl rfl h.accepted h.errOp rfl rfl rfl rfl rfl rfl rfl rfl rfl
  | accept w idle =>
    exact h.of_same rfl rfl rfl (fun _ => ⟨rfl, rfl, rfl⟩) (fun _ => rfl) rfl rfl rfl rfl rfl rfl rfl rfl rfl
  | clear w idle => exact h.clearStatus w idle
  | ibufData w idle => exact h.writeIbufData w
  | table ht =>
    rw [ht]
    exact h.of_stale rfl h.ibuf h.obuf h.accepted h.errOp rfl rfl rfl rfl rfl
  | reset => exact inv_hardwareReset h.params

/-- The tree BUILD installs keeps the invariant (41_tree_builder R183). -/
theorem Inv.installTree {s : State} (h : Inv s) {entries : List FtabEntry} (table : checkedTable s = .ok entries) :
    Inv (installTree entries s) where
  params := h.params
  ibuf := h.ibuf
  obuf := h.obuf
  accepted := h.accepted
  errOp := h.errOp
  noTree := nofun
  tree := fun _ => ⟨entries, installTree_treeOf table⟩
  codes := nofun

/-- The codes GENCODES installs keep the invariant (42_code_table R195). -/
theorem Inv.installCodes {s : State} (h : Inv s) {a : List (Byte × BitString)} (tree : s.treeValid = true)
    (codes : codeAssignments s = .ok a) : Inv { s with ctab := codeTable a, ctabValid := true } where
  params := h.params
  ibuf := h.ibuf
  obuf := h.obuf
  accepted := h.accepted
  errOp := h.errOp
  noTree := fun hv => nomatch tree.symm.trans hv
  tree := fun _ => (h.tree tree).congr rfl rfl rfl rfl rfl rfl
  codes := fun _ => ⟨a, by rw [← codes]; exact codeAssignments_congr rfl rfl, rfl⟩

/-- The end of a command keeps the invariant (60_exceptions R284). -/
theorem Inv.complete {s : State} (h : Inv s) : Inv (complete s) :=
  h.of_same rfl rfl rfl nofun h.errOp rfl rfl rfl rfl rfl rfl rfl rfl rfl

/-- Every result of a command keeps the invariant. -/
theorem ExecResult.inv {s t : State} {i : Instr} (he : ExecResult s i t) (h : Inv s) : Inv t := by
  cases he with
  | nop => exact h.complete
  | softReset =>
    exact (h.of_stale (t := Machine.softReset s) rfl h.ibuf h.obuf h.accepted h.errOp rfl rfl rfl rfl rfl).complete
  | count ftab ftCount => exact h.of_stale rfl h.ibuf h.obuf nofun h.errOp rfl rfl rfl rfl rfl
  | build entries table => exact (h.installTree table).complete
  | buildFailed c => exact h.of_stale rfl h.ibuf h.obuf nofun nofun rfl rfl rfl rfl rfl
  | genCodes a tree codes => exact (h.installCodes tree codes).complete
  | failed c => exact h.raiseCmdError c
  | output owner bytes fits outLen padOut =>
    obtain ⟨hwf, hin⟩ := h.obuf
    have hbuf := h.withBuffers h.ibuf ⟨Memory.writeBytes_wf hwf 0 bytes, Memory.writeBytes_within hin bytes (by omega)⟩
    exact hbuf.of_same rfl rfl rfl nofun h.errOp rfl rfl rfl rfl rfl rfl rfl rfl rfl
  | outputFailed owner c padOut =>
    exact (h.raiseCmdError c).of_same rfl rfl rfl nofun nofun rfl rfl rfl rfl rfl rfl rfl rfl rfl
  | walkFailed c =>
    have hbuf := h.withBuffers h.ibuf ⟨Memory.drawn_wf s.draws 0 s.params.obufSize, Memory.drawn_within _ _⟩
    exact hbuf.of_same rfl rfl rfl nofun nofun rfl rfl rfl rfl rfl rfl rfl rfl rfl

/-- Settles O11: by cases on what a step can do, each of which keeps the invariant. -/
theorem everyStepKeepsTheStateCoherent : Obligations.EveryStepKeepsTheStateCoherent := by
  intro s t hs h
  rcases step_effect h with ⟨-, i, -, he⟩ | ⟨-, rfl⟩ | rfl | ⟨-, op, rest, -, he⟩
  · exact he.inv hs
  · exact hs.raiseCmdError _
  · exact hs
  · exact he.inv (hs.takeOp rest)

/-! ### What steps leave alone -/

theorem HostEffect.params_eq {s t : State} {op : HostOp} (he : HostEffect s op t) : t.params = s.params := by
  cases he with
  | registers ht => rw [ht]
  | table ht => rw [ht]; rfl
  | ctrl | accept | clear | ibufData | reset => rfl

theorem ExecResult.params_eq {s t : State} {i : Instr} (he : ExecResult s i t) : t.params = s.params := by
  cases he <;> rfl

theorem step_params {s t : State} (h : step s = .next t) : t.params = s.params := by
  rcases step_effect h with ⟨-, i, -, he⟩ | ⟨-, rfl⟩ | rfl | ⟨-, op, rest, -, he⟩
  · exact he.params_eq
  · rfl
  · rfl
  · exact he.params_eq

/-- Settles O12: the four registers read the parameters alone, and no step changes those. -/
theorem hardwiredRegistersNeverChange : Obligations.HardwiredRegistersNeverChange := by
  refine ⟨fun s => ⟨rfl, rfl, rfl, rfl⟩, fun s t h => ?_⟩
  have hp := step_params h
  refine ⟨hp, fun r hr => ?_⟩
  simp only [List.mem_cons, List.not_mem_nil, or_false] at hr
  rcases hr with rfl | rfl | rfl | rfl <;> exact ⟨_, rfl, by simp only [readReg, hp]⟩

/-- The tree and the codes are stale (10_state R47). -/
def StaleTree (t : State) : Prop :=
  t.treeValid = false ∧ t.ctabValid = false ∧ t.singleLeaf = false ∧ t.root = 0 ∧ t.nodeCount = 0

theorem HostEffect.stale_or_table_eq {s t : State} {op : HostOp} (he : HostEffect s op t) :
    StaleTree t ∨ (t.ftab = s.ftab ∧ t.ftCount = s.ftCount) := by
  cases he with
  | registers ht => rw [ht]; exact .inr ⟨rfl, rfl⟩
  | table ht => rw [ht]; exact .inl ⟨rfl, rfl, rfl, rfl, rfl⟩
  | reset => exact .inl ⟨rfl, rfl, rfl, rfl, rfl⟩
  | ctrl | accept | clear | ibufData => exact .inr ⟨rfl, rfl⟩

theorem ExecResult.stale_or_table_eq {s t : State} {i : Instr} (he : ExecResult s i t) :
    StaleTree t ∨ (t.ftab = s.ftab ∧ t.ftCount = s.ftCount) := by
  cases he with
  | softReset | count | buildFailed => exact .inl ⟨rfl, rfl, rfl, rfl, rfl⟩
  | nop | build | genCodes | failed | output | outputFailed | walkFailed => exact .inr ⟨rfl, rfl⟩

/-- Settles O30: whatever can change FTAB or FT_COUNT leaves the tree stale. -/
theorem tableChangesInvalidateTheTree : Obligations.TableChangesInvalidateTheTree := by
  intro s t h hchange
  have key : StaleTree t ∨ (t.ftab = s.ftab ∧ t.ftCount = s.ftCount) := by
    rcases step_effect h with ⟨-, i, -, he⟩ | ⟨-, rfl⟩ | rfl | ⟨-, op, rest, -, he⟩
    · exact he.stale_or_table_eq
    · exact .inr ⟨rfl, rfl⟩
    · exact .inr ⟨rfl, rfl⟩
    · exact he.stale_or_table_eq
  rcases key with hstale | ⟨hftab, hcount⟩
  · exact hstale
  · rcases hchange with hne | hne
    · exact absurd hftab hne
    · exact absurd hcount hne

/-- A word that decodes to a command is that command's word (30_encoding R124, R125). -/
theorem eq_encode_of_decode {p : Params} {w : Word} {i : Instr} (h : decode p w = .ok i) : w = encode i := by
  unfold decode at h
  split at h
  · cases h
  · next hr =>
    split at h
    · cases h
    · next j hj =>
      split at h
      · cases h
        have hop := opcodeMap_eq_some.mp hj
        apply BitVec.eq_of_toNat_eq
        rw [word_fields w, word_fields (encode i), reservedOf_encode, opcodeOf_encode, not_not.mp hr, hop]
      · cases h

/-- The word of a command that exists on the block decodes to it (30_encoding R124 to R126). -/
theorem decode_encode {p : Params} {i : Instr} (h : i.wf p = true) : decode p (encode i) = .ok i := by
  simp [decode, h]

theorem engineMoves_of_engineTurn {s : State} (h : engineTurn s = true) : EngineMoves s := by
  simpa [engineTurn, EngineMoves] using h

theorem HostEffect.tables_eq {s t : State} {op : HostOp} (he : HostEffect s op t) (hop : op ≠ .hardwareReset) :
    t.node = s.node ∧ t.ctab = s.ctab := by
  cases he with
  | registers ht | table ht => rw [ht]; exact ⟨rfl, rfl⟩
  | reset => exact absurd rfl hop
  | ctrl | accept | clear | ibufData => exact ⟨rfl, rfl⟩

/-- Only a BUILD that made a tree can change NODE (10_state R45). -/
theorem ExecResult.node_eq_or_build {s t : State} {i : Instr} (he : ExecResult s i t) :
    t.node = s.node ∨ (i = .build ∧ t.treeValid = true) := by
  cases he with
  | build => exact .inr ⟨rfl, rfl⟩
  | nop | softReset | count | buildFailed | genCodes | failed | output | outputFailed | walkFailed => exact .inl rfl

/-- Only a GENCODES that made codes can change CTAB (10_state R46). -/
theorem ExecResult.ctab_eq_or_genCodes {s t : State} {i : Instr} (he : ExecResult s i t) :
    t.ctab = s.ctab ∨ (i = .genCodes ∧ t.ctabValid = true) := by
  cases he with
  | genCodes => exact .inr ⟨rfl, rfl⟩
  | nop | softReset | count | build | buildFailed | failed | output | outputFailed | walkFailed => exact .inl rfl

/-- Settles O31: by cases on what a step can do; a command that runs is the word in PENDING. -/
theorem onlyBuildAndGenCodesWriteTheTables : Obligations.OnlyBuildAndGenCodesWriteTheTables := by
  intro s t h hreset
  rcases step_effect h with ⟨hE, i, hi, he⟩ | ⟨-, rfl⟩ | rfl | ⟨-, op, rest, hq, he⟩
  · have hword := eq_encode_of_decode hi
    have hmoves := engineMoves_of_engineTurn hE
    constructor
    · intro hne
      obtain ⟨rfl, hv⟩ := he.node_eq_or_build.resolve_left hne
      exact ⟨hmoves, hword, hv⟩
    · intro hne
      obtain ⟨rfl, hv⟩ := he.ctab_eq_or_genCodes.resolve_left hne
      exact ⟨hmoves, hword, hv⟩
  · exact ⟨absurd rfl, absurd rfl⟩
  · exact ⟨absurd rfl, absurd rfl⟩
  · obtain ⟨hnode, hctab⟩ := he.tables_eq (by rintro rfl; exact hreset rest hq)
    exact ⟨absurd hnode, absurd hctab⟩

end Sys2Proof.Machine
end

section
/-! PROOFS. The register window: what the host's accesses reach, and what each register's read and write do. -/

namespace Sys2Proof.Machine

/-! ### Accesses -/

/-- The host's turn is its next operation (20_memory R90, R93). -/
theorem step_eq_hostOp {s : State} {op : HostOp} {rest : List HostOp} (hm : HostMoves s) (hq : s.hostQueue = op :: rest) :
    step s = hostOp op (takeOp rest s) := by
  have hE : engineTurn s = false := by
    rcases hm with hb | hw
    · simp [engineTurn, hb]
    · simp [engineTurn, hw, hq]
  simp [step, hE, hostTurn, hq]

/-- No register's read changes the host's log (20_memory R88). -/
theorem readReg_hostReads {r : Reg} {s t : State} {v : Word} (h : readReg r s = .ok (v, t)) : t.hostReads = s.hostReads := by
  rcases readReg_cases h with rfl | ⟨-, rfl⟩ | ⟨-, rfl⟩ | ⟨-, rfl⟩ <;> rfl

/-- A read of a mapped register while idle is the register's read, its value returned to the host (20_memory R87). -/
theorem step_read_idle {s t : State} {r : Reg} {rest : List HostOp} {v : Word} (idle : s.busy = false)
    (hq : s.hostQueue = .access (.read r.offset) :: rest) (hr : readReg r (takeOp rest s) = .ok (v, t)) :
    step s = .next (returnToHost v t) := by
  rw [step_eq_hostOp (.inl idle) hq]
  refine hostRead_eq_next.mpr ⟨aligned_offset r, v, t, ?_, rfl⟩
  simp [readOffset, idle, hr]

/-- A write of a mapped register while idle is the register's write (20_memory R87). -/
theorem step_write_idle {s : State} {r : Reg} {rest : List HostOp} {w : Word} (idle : s.busy = false)
    (hq : s.hostQueue = .access (.write r.offset w) :: rest) : step s = .next (writeReg r w (takeOp rest s)) := by
  rw [step_eq_hostOp (.inl idle) hq]
  simp [hostOp, hostWrite, writeOffset, idle]

/-- A write of a mapped register while BUSY = 1 is dropped (20_memory R92). -/
theorem step_write_busy {s : State} {r : Reg} {rest : List HostOp} {w : Word} (busy : s.busy = true)
    (hw : s.engineWait ≠ 0) (hq : s.hostQueue = .access (.write r.offset w) :: rest) :
    step s = .next { takeOp rest s with dropped := true } := by
  rw [step_eq_hostOp (.inr hw) hq]
  simp [hostOp, hostWrite, writeOffset, busy]

/-- Settles O18: the map of the window is the table's, and an idle access is the register's read or write. -/
theorem idleAccessesReachTheRegister : Obligations.IdleAccessesReachTheRegister := by
  refine ⟨by decide, fun p o w => ?_, fun p a d ha => ?_, fun s r rest idle => ⟨fun v t hq hr => ?_, fun w hq => ?_⟩⟩
  · have ho : windowOffset p (p.windowBase + o.toNat) = some o := windowOffset_eq_some.mpr rfl
    simp [accessAt, ho]
  · simp [accessAt, windowOffset_eq_none.mpr ha]
  · rw [step_read_idle idle hq hr, returnToHost, readReg_hostReads hr]
    rfl
  · exact step_write_idle idle hq

/-- Settles O13: a CMD write while idle is the acceptance, and one while busy is dropped. -/
theorem cmdWriteIsAccepted : Obligations.CmdWriteIsAccepted := by
  intro s w rest hq
  have hq : s.hostQueue = .access (.write Reg.cmd.offset w) :: rest := hq
  exact ⟨fun idle => ⟨_, _, step_write_idle idle hq⟩, fun busy hw => step_write_busy busy hw hq, rfl⟩

/-- Settles O4: the latched word is the encoding, and the engine is next, so the step is the decoded command. -/
theorem fetchWordRunsTheCommand : Obligations.FetchWordRunsTheCommand := by
  intro s i hi
  have hlatch : s.withFetchWord 32 (encode i).toNat =
      { s with pending := encode i, lastOp := opcodeByte i, done := false, errCode := none, errOp := 0, busy := true,
               engineWait := 0 } := by
    simp [State.withFetchWord, latchCommand]
  refine ⟨hlatch, ?_⟩
  rw [hlatch]
  simp [step, engineTurn, engineStep, fetchCommand, decode_encode hi]

/-! ### Plain registers, CLEAR and the data ports -/

/-- CTRL reads IRQ_EN in bit 0 (10_state R27). -/
theorem ctrlWord_eq (s : State) : ctrlWord s = if s.irqEn then 1 else 0 := rfl

/-- Settles O60: each access is the field's, and the read of CTRL is IRQ_EN's word. -/
theorem plainRegistersStoreAndRead : Obligations.PlainRegistersStoreAndRead := by
  intro s w
  refine ⟨rfl, rfl, rfl, rfl, rfl, rfl, rfl, rfl, rfl, rfl, ?_, rfl, rfl, rfl, rfl, rfl, rfl, rfl, rfl, rfl, rfl, rfl, rfl,
    rfl⟩
  rw [readReg, ctrlWord_eq]

/-- CLEAR looks at bits 0 to 2 only (10_state R30). -/
theorem clearStatus_mask (w : Word) (s : State) : clearStatus (w &&& 7) s = clearStatus w s := by
  have hbit : ∀ i < 3, (w &&& 7).getLsbD i = w.getLsbD i := by
    intro i hi
    have h7 : ∀ i < 3, (7 : Word).getLsbD i = true := by decide
    rw [BitVec.getLsbD_and, h7 i hi, Bool.and_true]
  simp only [clearStatus, hbit 0 (by omega), hbit 1 (by omega), hbit 2 (by omega)]

/-- Settles O22: CLEAR by its three bits. -/
theorem clearAcknowledges : Obligations.ClearAcknowledges := by
  intro s w
  have hclear : ∀ flag bit : Bool, (flag && !bit) = if bit then false else flag := by decide
  refine ⟨?_, clearStatus_mask w s, rfl⟩
  simp only [writeReg, clearStatus, hclear]

/-- The pointers of the data ports count modulo 2^32 (10_state R36, R38). -/
theorem toNat_add_one (p : Word) : (p + 1).toNat = (p.toNat + 1) % 2 ^ 32 := by
  rw [BitVec.toNat_add]; rfl

/-- A read of IBUF_DATA of a written byte within the buffer (10_state R36). -/
theorem readReg_ibufData {s : State} {b : Byte} (hp : s.ibufPtr.toNat < s.params.ibufSize)
    (hb : s.ibuf.read s.ibufPtr.toNat = some b) :
    readReg .ibufData s = .ok (b.setWidth 32, { s with ibufPtr := s.ibufPtr + 1 }) := by
  simp [readReg, readIbufData, ibufDataValue, hp, readIbuf_eq_ok.mpr hb, Except.map]

/-- A read of OBUF_DATA of a written byte within the buffer (10_state R38). -/
theorem readReg_obufData {s : State} {b : Byte} (hp : s.obufPtr.toNat < s.params.obufSize)
    (hb : s.obuf.read s.obufPtr.toNat = some b) :
    readReg .obufData s = .ok (b.setWidth 32, { s with obufPtr := s.obufPtr + 1 }) := by
  simp [readReg, readObufData, obufDataValue, hp, readObuf, hb, Except.map]

/-- A read of IBUF_DATA beyond the buffer (10_state R36). -/
theorem readReg_ibufData_beyond {s : State} (hp : s.params.ibufSize ≤ s.ibufPtr.toNat) :
    readReg .ibufData s = .ok (0, { s with ibufPtr := s.ibufPtr + 1 }) := by
  rw [readReg, readIbufData, ibufDataValue, if_neg (Nat.not_lt.mpr hp)]
  rfl

/-- A read of OBUF_DATA beyond the buffer (10_state R38). -/
theorem readReg_obufData_beyond {s : State} (hp : s.params.obufSize ≤ s.obufPtr.toNat) :
    readReg .obufData s = .ok (0, { s with obufPtr := s.obufPtr + 1 }) := by
  rw [readReg, readObufData, obufDataValue, if_neg (Nat.not_lt.mpr hp)]
  rfl

/-- Settles O23: within the buffer the byte at IBUF_PTR, and beyond it nothing but the pointer. -/
theorem ibufDataPort : Obligations.IbufDataPort := by
  intro s w
  refine ⟨fun hp => ⟨⟨s.ibuf.write s.ibufPtr.toNat (w.extractLsb' 0 8), ?_, Memory.read_write_same _ _ _,
    fun a ha => Memory.read_write_other _ _ ha⟩, fun b hb => readReg_ibufData hp hb⟩,
    fun hp => ⟨?_, readReg_ibufData_beyond hp⟩, toNat_add_one _⟩
  · rw [writeReg, writeIbufData, if_pos hp]
  · rw [writeReg, writeIbufData, if_neg (Nat.not_lt.mpr hp)]

/-- Settles O24: within the buffer the byte at OBUF_PTR, beyond it 0, and a write does nothing. -/
theorem obufDataPort : Obligations.ObufDataPort := by
  intro s w
  exact ⟨fun hp b hb => readReg_obufData hp hb, readReg_obufData_beyond, rfl, toNat_add_one _⟩

/-! ### FTAB -/

/-- The entry at FT_INDEX after a store of one there. -/
theorem ftabSet_same (e : FtabEntry) (s : State) : (ftabSet e s).ftab[s.ftIndex.toNat]? = some (some e) := by
  simp [ftabSet]

theorem ftabSet_other (e : FtabEntry) (s : State) {j : Nat} (hj : j ≠ s.ftIndex.toNat) :
    (ftabSet e s).ftab[j]? = s.ftab[j]? := by
  simp [ftabSet, hj.symm]

/-- FT_INDEX always selects an entry, so reading it with and without a bounds check is the same. -/
theorem ftab_getElem?_ftIndex (s : State) {x : Option FtabEntry} :
    s.ftab[s.ftIndex.toNat]? = some x ↔ s.ftab[s.ftIndex.toNat]'s.ftIndex.isLt = x := by
  have hlt : s.ftIndex.toNat < 256 := s.ftIndex.isLt
  rw [Vector.getElem?_eq_getElem hlt, Option.some.injEq]

/-- Settles O25: the writes store an entry at FT_INDEX and leave the tree stale; the reads return the entry there. -/
theorem ftabPorts : Obligations.FtabPorts := by
  intro s w
  refine ⟨?_, ?_, fun e he => ⟨?_, ?_⟩, ?_⟩
  · obtain ⟨e, d, hw, hsym, hfreq⟩ := writeFtSym_eq w s
    exact ⟨e, _, d, hw, ftabSet_same e s, hsym, fun e0 he0 => hfreq e0 ((ftab_getElem?_ftIndex s).mp he0),
      fun j hj => ftabSet_other e s hj⟩
  · obtain ⟨e, d, hw, hfreq, hsym⟩ := writeFtFreq_eq w s
    exact ⟨e, _, d, hw, ftabSet_same e s, hfreq, fun e0 he0 => hsym e0 ((ftab_getElem?_ftIndex s).mp he0),
      fun j hj => ftabSet_other e s hj⟩
  · have hr : readFtab s s.ftIndex.toNat = .ok e := readFtab_eq_ok.mpr (by rw [he]; rfl)
    simp [readReg, hr, Except.map]
  · have hr : readFtab s s.ftIndex.toNat = .ok e := readFtab_eq_ok.mpr (by rw [he]; rfl)
    simp [readReg, readFtFreq, hr, Except.map]
  · rw [BitVec.toNat_add]; rfl

/-! ### STATUS and ERR -/

@[simp] theorem flagAt_getLsbD (b : Bool) (i j : Nat) :
    (flagAt b i).getLsbD j = (b && (decide (i < 32) && decide (i = j))) := by
  cases b <;> simp [flagAt, BitVec.getLsbD_twoPow]

@[simp] theorem flagAt_getElem (b : Bool) (i j : Nat) (hj : j < 32) : (flagAt b i)[j] = (b && decide (i = j)) := by
  rw [BitVec.getElem_eq_testBit_toNat, BitVec.testBit_toNat, flagAt_getLsbD]
  by_cases h : i = j
  · simp [h, hj]
  · simp [h]

/-- Each error has a code of the error table, from 0x01 to 0x0C (60_exceptions R281). -/
theorem CmdError.code_range (c : CmdError) : c.code ≠ 0 ∧ c.code.toNat ≤ 0x0C := by
  cases c <;> decide

/-- ERR_CODE is 0 exactly without an error (10_state R29). -/
theorem errCodeByte_eq_zero {s : State} : errCodeByte s = 0 ↔ s.errCode = none := by
  unfold errCodeByte
  cases s.errCode with
  | none => simp
  | some c => simpa using c.code_range.1

theorem errCodeByte_le (s : State) : (errCodeByte s).toNat ≤ 0x0C := by
  unfold errCodeByte
  cases s.errCode with
  | none => simp
  | some c => exact c.code_range.2

theorem errCodeByte_bne_zero (s : State) : (errCodeByte s != 0) = s.errCode.isSome := by
  rw [Bool.eq_iff_iff, bne_iff_ne, Ne, errCodeByte_eq_zero, Option.isSome_iff_ne_none]

/-- A word whose byte [7:0] is that of `x` and whose byte [15:8] is `b`, field by field. -/
theorem twoBytes_fields {x : Word} (hx : ∀ i, 8 ≤ i → x.getLsbD i = false) (b : Byte) :
    (x ||| (b.setWidth 32 <<< 8)).extractLsb' 0 8 = x.setWidth 8 ∧ (x ||| (b.setWidth 32 <<< 8)).extractLsb' 8 8 = b ∧
      (x ||| (b.setWidth 32 <<< 8)).extractLsb' 16 16 = 0 := by
  refine ⟨BitVec.eq_of_getLsbD_eq fun i hi => ?_, BitVec.eq_of_getLsbD_eq fun i hi => ?_,
    BitVec.eq_of_getLsbD_eq fun i hi => ?_⟩
  · simp [hi]
  · have h1 : 8 + i < 32 := by omega
    have h2 : x[8 + i] = false := hx (8 + i) (Nat.le_add_right 8 i)
    simp [hi, h1, h2]
  · have h1 : b.getLsbD (16 + i - 8) = false := BitVec.getLsbD_of_ge _ _ (by omega)
    have h2 : x.getLsbD (16 + i) = false := hx _ (by omega)
    simp [h1, h2]

/-- STATUS[15:0] is LAST_OP over the flags, and STATUS[31:16] is reserved (10_state R28). -/
theorem statusWord_fields (s : State) :
    (statusWord s).extractLsb' 8 8 = s.lastOp ∧ (statusWord s).extractLsb' 16 16 = 0 := by
  refine (twoBytes_fields (fun i hi => ?_) s.lastOp).2
  have hne : ∀ k < 8, k ≠ i := by omega
  simp [hne]

/-- ERR is ERR_OP over ERR_CODE (10_state R29). -/
theorem errWord_fields (s : State) : (errWord s).extractLsb' 0 8 = errCodeByte s ∧ (errWord s).extractLsb' 8 8 = s.errOp ∧
    (errWord s).extractLsb' 16 16 = 0 := by
  obtain ⟨h1, h2, h3⟩ := twoBytes_fields (x := (errCodeByte s).setWidth 32) (fun i hi => by simp [hi]) s.errOp
  exact ⟨h1.trans (by simp), h2, h3⟩

/-- Each bit of STATUS[7:0] is its flag (10_state R28). -/
theorem statusWord_flags (s : State) :
    (statusWord s).getLsbD 0 = s.busy ∧ (statusWord s).getLsbD 1 = s.done ∧
    (statusWord s).getLsbD 2 = s.errCode.isSome ∧ (statusWord s).getLsbD 3 = s.dropped ∧
    (statusWord s).getLsbD 4 = s.treeValid ∧ (statusWord s).getLsbD 5 = s.ctabValid ∧
    (statusWord s).getLsbD 6 = s.singleLeaf ∧ (statusWord s).getLsbD 7 = false := by
  refine ⟨?_, ?_, ?_, ?_, ?_, ?_, ?_, ?_⟩ <;>
    simp only [statusWord, BitVec.getLsbD_or, flagAt_getLsbD, BitVec.getLsbD_shiftLeft, errCodeByte_bne_zero] <;> simp

/-- The code of each error is that of the error table (60_exceptions R281). -/
theorem errCodeByte_of_errCode {s : State} {c : CmdError} (h : s.errCode = some c) : errCodeByte s = c.code := by
  rw [errCodeByte, h]; rfl

/-- Settles O21: the flags and fields of the two words; without an error the invariant makes ERR_OP 0. -/
theorem statusAndErrFields : Obligations.StatusAndErrFields := by
  intro s
  obtain ⟨f0, f1, f2, f3, f4, f5, f6, f7⟩ := statusWord_flags s
  obtain ⟨hop, hres⟩ := statusWord_fields s
  obtain ⟨ecode, eop, eres⟩ := errWord_fields s
  refine ⟨rfl, rfl, f0, f1, f2, f3, f4, f5, f6, f7, hop, hres, ecode, eop, eres, errCodeByte_le s, errCodeByte_eq_zero,
    fun x hx he => ?_, fun hinv hz => ?_⟩
  · rw [errCodeByte_of_errCode he]
    clear he
    revert x
    decide
  · rw [eop, hinv.errOp (errCodeByte_eq_zero.mp hz)]

/-! ### The codes and the tree -/

/-- Bit `31 - j` of a word of 32 bits packed first bit first is bit `j` of them (10_state R51). -/
theorem ofNat_bitsValue_getLsbD (bits : BitString) (h : bits.length = 32) {j : Nat} (hj : j < 32) :
    (BitVec.ofNat 32 (bitsValue bits)).getLsbD (31 - j) = bits[j]?.getD false := by
  rw [BitVec.getLsbD_ofNat, testBit_bitsValue, List.getElem?_reverse (by omega)]
  have h1 : 31 - j < 32 := by omega
  have h2 : bits.length - 1 - (31 - j) = j := by omega
  simp [h1, h2]

/-- Settles O27: CT_BITS packs the selected 32 code bits first bit first. -/
theorem codeReadBack : Obligations.CodeReadBack := by
  intro s
  refine ⟨_, _, rfl, rfl, rfl, fun j hj => ?_⟩
  rw [ctBitsWord, ofNat_bitsValue_getLsbD _ (by simp) hj]
  simp [hj]

/-- A node of the current tree is selected (10_state R55). -/
theorem selectedNode_valid {s : State} {n : Node} (hv : s.treeValid = true) (hsel : s.nodeSel.toNat < s.nodeCount.toNat)
    (hn : s.node[s.nodeSel.toNat]? = some n) : selectedNode s = .ok (some n) := by
  simp [selectedNode, hv, hsel, readNode_eq_ok.mpr hn, Except.map]

/-- No node is selected without a tree or from NODE_COUNT on (10_state R55). -/
theorem selectedNode_invalid {s : State} (h : s.treeValid = false ∨ s.nodeCount.toNat ≤ s.nodeSel.toNat) :
    selectedNode s = .ok none := by
  rw [selectedNode, if_neg]
  rw [Bool.and_eq_true, decide_eq_true_eq]
  rintro ⟨hv, hlt⟩
  rcases h with h | h
  · simp [hv] at h
  · omega

/-- What the three registers of a selected node read (10_state R55, R56). -/
theorem readReg_node {s : State} {x : Option Node} (h : selectedNode s = .ok x) :
    readReg .nodeInfo s = .ok (nodeInfoWord x, s) ∧ readReg .nodeFreqLo s = .ok (nodeFreqLoWord x, s) ∧
      readReg .nodeFreqHi s = .ok (nodeFreqHiWord x, s) := by
  simp [readReg, h, Except.map]

/-- The bits NODE_INFO[17:0] of a node: its symbol, or its children (10_state R55). -/
def Node.infoField (n : Node) : Word := if n.leaf then n.sym.setWidth 32 else n.left.setWidth 32 ||| (n.right.setWidth 32 <<< 9)

theorem nodeInfoWord_some (n : Node) : nodeInfoWord (some n) = flagAt true 31 ||| flagAt n.leaf 30 ||| n.infoField := rfl

theorem Node.infoField_beyond (n : Node) {i : Nat} (hi : 18 ≤ i) : n.infoField.getLsbD i = false := by
  unfold infoField
  split
  · have h1 : n.sym.getLsbD i = false := BitVec.getLsbD_of_ge _ _ (by omega)
    simp [h1]
  · have h1 : n.left.getLsbD i = false := BitVec.getLsbD_of_ge _ _ (by omega)
    have h2 : n.right.getLsbD (i - 9) = false := BitVec.getLsbD_of_ge _ _ (by omega)
    simp [h1, h2]

/-- NODE_INFO of a node: VALID, LEAF and the reserved bits (10_state R55). -/
theorem nodeInfoWord_flags (n : Node) :
    (nodeInfoWord (some n)).getLsbD 31 = true ∧ (nodeInfoWord (some n)).getLsbD 30 = n.leaf ∧
      (nodeInfoWord (some n)).extractLsb' 18 12 = 0 := by
  rw [nodeInfoWord_some]
  refine ⟨?_, ?_, BitVec.eq_of_getLsbD_eq fun i hi => ?_⟩
  · rw [BitVec.getLsbD_or, n.infoField_beyond (by omega)]; simp
  · rw [BitVec.getLsbD_or, n.infoField_beyond (by omega)]; simp
  · have h1 : 31 ≠ 18 + i := by omega
    have h2 : 30 ≠ 18 + i := by omega
    rw [BitVec.getLsbD_extractLsb', BitVec.getLsbD_or, n.infoField_beyond (by omega)]
    simp [h1, h2]

/-- Below VALID and LEAF, NODE_INFO is the symbol or the children (10_state R55). -/
theorem nodeInfoWord_extract (n : Node) {start len : Nat} (h : start + len ≤ 18) :
    (nodeInfoWord (some n)).extractLsb' start len = n.infoField.extractLsb' start len := by
  apply BitVec.eq_of_getLsbD_eq
  intro i hi
  have h1 : 31 ≠ start + i := by omega
  have h2 : 30 ≠ start + i := by omega
  simp [nodeInfoWord_some, h1, h2]

/-- NODE_INFO of a leaf: the symbol (10_state R55). -/
theorem nodeInfoWord_leaf {n : Node} (h : n.leaf = true) :
    (nodeInfoWord (some n)).extractLsb' 0 8 = n.sym ∧ (nodeInfoWord (some n)).extractLsb' 8 10 = 0 := by
  rw [nodeInfoWord_extract n (by omega), nodeInfoWord_extract n (by omega), Node.infoField, if_pos h]
  refine ⟨BitVec.eq_of_getLsbD_eq fun i hi => ?_, BitVec.eq_of_getLsbD_eq fun i hi => ?_⟩
  · have h1 : i < 32 := by omega
    simp [hi, h1]
  · simp

/-- NODE_INFO of an internal node: the children (10_state R55). -/
theorem nodeInfoWord_internal {n : Node} (h : n.leaf = false) :
    (nodeInfoWord (some n)).extractLsb' 0 9 = n.left ∧ (nodeInfoWord (some n)).extractLsb' 9 9 = n.right := by
  rw [nodeInfoWord_extract n (by omega), nodeInfoWord_extract n (by omega), Node.infoField, if_neg (by simp [h])]
  refine ⟨BitVec.eq_of_getLsbD_eq fun i hi => ?_, BitVec.eq_of_getLsbD_eq fun i hi => ?_⟩
  · have h1 : i < 32 := by omega
    simp [hi, h1]
  · have h1 : 9 + i < 32 := by omega
    simp [hi, h1]

/-- NODE_FREQ_HI and NODE_FREQ_LO hold the 40 bits of the frequency (10_state R56). -/
theorem nodeFreq_words (n : Node) :
    (nodeFreqHiWord (some n)).toNat * 2 ^ 32 + (nodeFreqLoWord (some n)).toNat = n.freq.toNat := by
  have := n.freq.isLt
  simp only [nodeFreqHiWord, nodeFreqLoWord, BitVec.toNat_setWidth, BitVec.extractLsb'_toNat, Nat.shiftRight_eq_div_pow]
  omega

/-- Settles O28: the words of the selected node, or of none. -/
theorem nodeReadBack : Obligations.NodeReadBack := by
  intro s
  refine ⟨fun n hv hsel hn => ?_, fun h => readReg_node (selectedNode_invalid h)⟩
  obtain ⟨hinfo, hlo, hhi⟩ := readReg_node (selectedNode_valid hv hsel hn)
  obtain ⟨hvalid, hleaf, hres⟩ := nodeInfoWord_flags n
  exact ⟨_, _, _, hinfo, hlo, hhi, hvalid, hleaf, hres, nodeInfoWord_leaf, nodeInfoWord_internal, nodeFreq_words n⟩

end Sys2Proof.Machine
end

section
/-! PROOFS. Reads of what nothing has written: where BUILD, PACK and DECODE stop with a fault (93_implementation_defined U1).
The rules for DECODE's walk say what it does with a whole path of the tree, bit by bit. -/

namespace Sys2Proof.Machine

/-! ### The tables and the input -/

/-- Reading the entries in order stops at the first one that nothing has written, when those before it pass their check
(41_tree_builder R171). -/
theorem readEntries_unwritten {s : State} {i : Nat} (hi : s.ftab[i]? = some none) {a n : Nat} (ha : a ≤ i) (hn : i < a + n)
    (hbefore : ∀ j, a ≤ j → j < i → ∃ e, s.ftab[j]? = some (some e) ∧ 1 ≤ e.freq.toNat ∧ e.freq.toNat < 2 ^ 31) :
    readEntries s a n = .error (.fault (.unwrittenFtab i)) := by
  induction n generalizing a with
  | zero => omega
  | succ n ih =>
    rw [readEntries]
    rcases Nat.eq_or_lt_of_le ha with rfl | hlt
    · rw [readFtab_eq_error.mpr ⟨by rw [hi]; rfl, rfl⟩]
      rfl
    · obtain ⟨e, he, h1, h2⟩ := hbefore a (Nat.le_refl a) hlt
      have hcheck : ¬ (e.freq.toNat = 0 ∨ e.freq.toNat ≥ Config.freqLimit) := by rw [Config.freqLimit]; omega
      rw [readFtab_eq_ok.mpr (by rw [he]; rfl), orFault_ok, ok_bind, raiseIf_false hcheck, ok_bind,
        ih hlt (by omega) fun j hj => hbefore j (by omega)]
      rfl

/-- Reading the codes of the input in order stops at the first byte that nothing has written, when those before it have codes
(43_packer R212). -/
theorem inputCodes_unwritten {s : State} {i : Nat} (hi : s.ibuf.read i = none) {a n : Nat} (ha : a ≤ i) (hn : i < a + n)
    (hbefore : ∀ j, a ≤ j → j < i → ∃ b, s.ibuf.read j = some b ∧ (ctabAt s.ctab b).len ≠ 0) :
    inputCodes s a n = .error (.fault (.unwrittenIbuf i)) := by
  induction n generalizing a with
  | zero => omega
  | succ n ih =>
    rw [inputCodes]
    rcases Nat.eq_or_lt_of_le ha with rfl | hlt
    · rw [readIbuf_eq_error.mpr ⟨hi, rfl⟩]
      rfl
    · obtain ⟨b, hb, hcode⟩ := hbefore a (Nat.le_refl a) hlt
      rw [readIbuf_eq_ok.mpr hb, orFault_ok, ok_bind, raiseIf_false hcode, ok_bind,
        ih hlt (by omega) fun j hj => hbefore j (by omega)]
      rfl

theorem execBuild_unwritten {s : State} {i : Nat} (hcount : s.ftCount.toNat ≤ 256) (hlt : i < s.ftCount.toNat)
    (hi : s.ftab[i]? = some none)
    (hbefore : ∀ j, j < i → ∃ e, s.ftab[j]? = some (some e) ∧ 1 ≤ e.freq.toNat ∧ e.freq.toNat < 2 ^ 31) :
    exec .build s = .fault (.unwrittenFtab i) := by
  refine finishCommand_eq_fault.mpr ?_
  have hsize : ¬ s.ftCount.toNat > Config.nsym := by rw [Config.nsym]; omega
  rw [buildBody, checkedTable, raiseIf_false (by omega), ok_bind, raiseIf_false hsize, ok_bind,
    readEntries_unwritten hi (Nat.zero_le i) (by omega) fun j _ => hbefore j]
  rfl

theorem execPack_unwritten {s : State} {a : Nat} (hcodes : s.ctabValid = true) (hlen : s.inLen.toNat ≤ s.params.ibufSize)
    (hlt : a < s.inLen.toNat) (ha : s.ibuf.read a = none)
    (hbefore : ∀ a', a' < a → ∃ b, s.ibuf.read a' = some b ∧ (ctabAt s.ctab b).len ≠ 0) :
    exec .pack s = .fault (.unwrittenIbuf a) := by
  refine finishCommand_eq_fault.mpr ?_
  rw [packBody, raiseIf_false (by simp [hcodes]), ok_bind, (checkInLen_eq_ok (u := ())).mpr hlen, ok_bind,
    inputCodes_unwritten ha (Nat.zero_le a) (by omega) fun j _ => hbefore j]
  rfl

/-! ### DECODE's walk -/

/-- `w` after emitting `syms` in order, with the cursor at `k` (44_decoder R237). -/
def Walk.emitAll (w : Walk) (k : BitVec 9) (syms : List Byte) : Walk :=
  { cursor := k, count := w.count + syms.length, emitted := syms.reverse ++ w.emitted }

theorem Walk.emitAll_append (w : Walk) (j k : BitVec 9) (xs ys : List Byte) :
    (w.emitAll j xs).emitAll k ys = w.emitAll k (xs ++ ys) := by
  simp [emitAll, Nat.add_assoc]

/-- A symbol is emitted while OBUF has room (44_decoder R237). -/
theorem emit_of_lt {s : State} {w : Walk} (sym : Byte) (h : w.count < s.params.obufSize) :
    emit s sym w = .ok (w.emitAll w.cursor [sym]) :=
  emit_eq_ok.mpr ⟨by omega, rfl⟩

/-- On a single leaf each bit emits its symbol, while OBUF has room (44_decoder R236). -/
theorem foldlM_stepBit_single {s : State} {n : Node} (hs : s.singleLeaf = true) (hn : s.node[s.root.toNat]? = some n)
    (bits : BitString) (w : Walk) (hroom : w.count + bits.length ≤ s.params.obufSize) :
    bits.foldlM (stepBit s) w = .ok (w.emitAll w.cursor (List.replicate bits.length n.sym)) := by
  induction bits generalizing w with
  | nil => rfl
  | cons b bits ih =>
    rw [List.length_cons] at hroom
    have hstep : stepBit s w b = .ok (w.emitAll w.cursor [n.sym]) := by
      rw [stepBit, if_pos hs, stepSingle, readNode_eq_ok.mpr hn, orFault_ok, ok_bind, emit_of_lt _ (by omega)]
    rw [List.foldlM_cons, hstep, ok_bind, ih _ (by show w.count + 1 + bits.length ≤ _; omega), Walk.emitAll_append]
    rfl

/-- A path whose every node is internal starts at an internal node. -/
theorem node_of_internalAlong {s : State} {k k' : BitVec 9} {p : BitString} (h : internalAlong s k p = some k') :
    ∃ n, s.node[k.toNat]? = some n ∧ n.leaf = false := by
  cases p with
  | nil =>
    obtain ⟨n, hn, h⟩ := Option.bind_eq_some_iff.mp h
    exact ⟨n, hn, (by simpa using h : n.leaf = false ∧ k = k').1⟩
  | cons b p =>
    obtain ⟨n, hn, h⟩ := Option.bind_eq_some_iff.mp h
    exact ⟨n, hn, (by simpa using h : n.leaf = false ∧ internalAlong s (childOn n b) p = some k').1⟩

section Multi

variable {s : State} (hs : s.singleLeaf = false)
include hs

/-- A bit moves from an internal node to its child, and emits there when the child is a leaf (44_decoder R235). -/
theorem stepBit_multi {w : Walk} {n m : Node} {b : Bool} (hn : s.node[w.cursor.toNat]? = some n) (hleaf : n.leaf = false)
    (hm : s.node[(childOn n b).toNat]? = some m) :
    stepBit s w b =
      if m.leaf then emit s m.sym { w with cursor := s.root } else .ok { w with cursor := childOn n b } := by
  rw [childOn] at hm
  rw [stepBit, if_neg (by simp [hs]), stepMulti, readNode_eq_ok.mpr hn, orFault_ok, ok_bind,
    raiseIf_false (by simp [hleaf]), ok_bind]
  simp only [readNode_eq_ok.mpr hm, orFault_ok, ok_bind, childOn]

/-- A whole path to a leaf emits that leaf's symbol and returns to the root, while OBUF has room (44_decoder R235, R237). -/
theorem foldlM_stepBit_leafAlong {p : BitString} {sym : Byte} {w : Walk} (hp : p ≠ [])
    (h : leafAlong s w.cursor p = some sym) (hroom : w.count < s.params.obufSize) :
    p.foldlM (stepBit s) w = .ok (w.emitAll s.root [sym]) := by
  induction p generalizing w with
  | nil => exact absurd rfl hp
  | cons b p ih =>
    obtain ⟨n, hn, h⟩ := Option.bind_eq_some_iff.mp h
    split at h
    · cases h
    · next hleaf =>
      have hleaf : n.leaf = false := by simpa using hleaf
      cases p with
      | nil =>
        obtain ⟨m, hm, h⟩ := Option.bind_eq_some_iff.mp h
        split at h
        · next hmleaf =>
          cases h
          rw [List.foldlM_cons, stepBit_multi hs hn hleaf hm, if_pos hmleaf,
            emit_of_lt (w := { w with cursor := s.root }) _ hroom]
          rfl
        · cases h
      | cons b' p =>
        obtain ⟨m, hm, hrest⟩ := Option.bind_eq_some_iff.mp h
        split at hrest
        · cases hrest
        · next hmleaf =>
          rw [List.foldlM_cons, stepBit_multi hs hn hleaf hm, if_neg hmleaf, ok_bind]
          exact ih (w := { w with cursor := childOn n b }) (by simp) h hroom

/-- A path of internal nodes only moves the cursor (44_decoder R235). -/
theorem foldlM_stepBit_internalAlong {p : BitString} {k : BitVec 9} {w : Walk} (h : internalAlong s w.cursor p = some k) :
    p.foldlM (stepBit s) w = .ok { w with cursor := k } := by
  induction p generalizing w with
  | nil =>
    obtain ⟨n, -, h⟩ := Option.bind_eq_some_iff.mp h
    split at h
    · cases h
    · cases h; rfl
  | cons b p ih =>
    obtain ⟨n, hn, h⟩ := Option.bind_eq_some_iff.mp h
    split at h
    · cases h
    · next hleaf =>
      have hleaf : n.leaf = false := by simpa using hleaf
      obtain ⟨m, hm, hmleaf⟩ := node_of_internalAlong h
      rw [List.foldlM_cons, stepBit_multi hs hn hleaf hm, if_neg (by simp [hmleaf]), ok_bind]
      exact ih (w := { w with cursor := childOn n b }) h

/-- Whole paths to leaves emit the symbols of those leaves in order, while OBUF has room (44_decoder R235, R237). -/
theorem foldlM_stepBit_words {words : List (BitString × Byte)} {w : Walk} (hw : w.cursor = s.root)
    (h : ∀ x ∈ words, x.1 ≠ [] ∧ leafAlong s s.root x.1 = some x.2) (hroom : w.count + words.length ≤ s.params.obufSize) :
    (words.flatMap Prod.fst).foldlM (stepBit s) w = .ok (w.emitAll s.root (words.map Prod.snd)) := by
  induction words generalizing w with
  | nil => rw [← hw]; rfl
  | cons x words ih =>
    rw [List.length_cons] at hroom
    obtain ⟨hne, hx⟩ := h x List.mem_cons_self
    rw [List.flatMap_cons, List.foldlM_append, foldlM_stepBit_leafAlong hs hne (hw ▸ hx) (by omega), ok_bind,
      ih rfl (fun y hy => h y (List.mem_cons_of_mem x hy)) (by show w.count + 1 + words.length ≤ _; omega),
      Walk.emitAll_append]
    rfl

end Multi

/-- A byte that is not the last has eight data bits (44_decoder R234). -/
theorem dataBits_false (p : Nat) (b : Byte) : dataBits false p b = byteBits b := by
  simp [dataBits, List.take_of_length_le]

/-- The walk over written bytes that are not the last of the input takes all their bits in stream order (44_decoder R234). -/
theorem walkBytes_of_written {s : State} {p i n : Nat} {w w' : Walk} {bytes : List Byte}
    (hbytes : ∀ j (h : j < bytes.length), s.ibuf.read (i + j) = some bytes[j])
    (hfold : (bytes.flatMap byteBits).foldlM (stepBit s) w = .ok w') :
    walkBytes s p i (bytes.length + (n + 1)) w = walkBytes s p (i + bytes.length) (n + 1) w' := by
  induction bytes generalizing i w with
  | nil =>
    obtain rfl := Except.ok.inj hfold
    simp
  | cons b bytes ih =>
    rw [List.flatMap_cons, List.foldlM_append, bind_eq_ok] at hfold
    obtain ⟨w1, hb, hrest⟩ := hfold
    have hlen : (b :: bytes).length + (n + 1) = (bytes.length + (n + 1)) + 1 := by rw [List.length_cons]; omega
    have hlast : (bytes.length + (n + 1) == 0) = false := by simp
    have hread : s.ibuf.read i = some b := hbytes 0 (by simp)
    rw [hlen, walkBytes, readIbuf_eq_ok.mpr hread, orFault_ok, ok_bind, hlast, dataBits_false, hb, ok_bind,
      ih (fun j hj => ?_) hrest, List.length_cons, Nat.add_right_comm, Nat.add_assoc]
    have := hbytes (j + 1) (by simpa using hj)
    rwa [Nat.add_right_comm, Nat.add_assoc]

/-- DECODE stops at the first byte that nothing has written, when the bits before it walk without an error. -/
theorem execDecode_unwritten {s : State} {bytes : List Byte} {w : Walk} (hchecks : decodeChecks s = .ok ())
    (hlen : bytes.length < s.inLen.toNat) (hbytes : ∀ a (h : a < bytes.length), s.ibuf.read a = some bytes[a])
    (hnone : s.ibuf.read bytes.length = none)
    (hfold : (bytes.flatMap byteBits).foldlM (stepBit s) (startWalk s) = .ok w) :
    exec .decode s = .fault (.unwrittenIbuf bytes.length) := by
  refine finishCommand_eq_fault.mpr ?_
  obtain ⟨n, hn⟩ : ∃ n, s.inLen.toNat = bytes.length + (n + 1) := ⟨s.inLen.toNat - bytes.length - 1, by omega⟩
  rw [decodeBody, hchecks, ok_bind, hn, walkBytes_of_written (by simpa using hbytes) hfold, walkBytes, Nat.zero_add,
    readIbuf_eq_error.mpr ⟨hnone, rfl⟩]
  rfl

/-! ### The reads of the host -/

theorem readReg_ibufData_unwritten {s : State} (hp : s.ibufPtr.toNat < s.params.ibufSize)
    (hnone : s.ibuf.read s.ibufPtr.toNat = none) : readReg .ibufData s = .error (.unwrittenIbuf s.ibufPtr.toNat) := by
  simp [readReg, readIbufData, ibufDataValue, hp, readIbuf_eq_error.mpr ⟨hnone, rfl⟩, Except.map]

theorem readReg_obufData_unwritten {s : State} (hp : s.obufPtr.toNat < s.params.obufSize)
    (hnone : s.obuf.read s.obufPtr.toNat = none) : readReg .obufData s = .error (.unwrittenObuf s.obufPtr.toNat) := by
  simp [readReg, readObufData, obufDataValue, hp, readObuf, hnone, Except.map]

theorem readReg_ftab_unwritten {s : State} (hnone : s.ftab[s.ftIndex.toNat]? = some none) :
    readReg .ftSym s = .error (.unwrittenFtab s.ftIndex.toNat) ∧
      readReg .ftFreq s = .error (.unwrittenFtab s.ftIndex.toNat) := by
  have hr : readFtab s s.ftIndex.toNat = .error (.unwrittenFtab s.ftIndex.toNat) :=
    readFtab_eq_error.mpr ⟨by rw [hnone]; rfl, rfl⟩
  simp [readReg, readFtFreq, hr, Except.map]

/-- Settles O26: each read faults where nothing was written, and each command at the first such read, since what comes before
it succeeds. -/
theorem unwrittenReadsFault : Obligations.UnwrittenReadsFault := by
  intro s
  refine ⟨readReg_ibufData_unwritten, readReg_obufData_unwritten, readReg_ftab_unwritten,
    fun i hcount hlt hi hbefore => execBuild_unwritten hcount hlt hi hbefore,
    fun a hcodes hlen hlt ha hbefore => execPack_unwritten hcodes hlen hlt ha hbefore, ?_⟩
  intro bytes htree hpad hlen hlt hbytes hnone
  have hchecks : decodeChecks s = .ok () := decodeChecks_eq_ok.mpr ⟨htree, hpad, hlen, .inl (by omega)⟩
  constructor
  · intro n hs hn hroom
    refine execDecode_unwritten hchecks hlt hbytes hnone (foldlM_stepBit_single hs hn _ _ ?_)
    simpa [startWalk, List.length_flatMap, Nat.mul_comm] using hroom
  · intro words rest k hs hwords hbits hrest hroom
    refine execDecode_unwritten (w := { (startWalk s).emitAll s.root (words.map Prod.snd) with cursor := k }) hchecks hlt hbytes
      hnone ?_
    rw [← hbits, List.foldlM_append, foldlM_stepBit_words hs rfl hwords (by simpa [startWalk] using hroom), ok_bind]
    exact foldlM_stepBit_internalAlong hs hrest

end Sys2Proof.Machine
end

section
/-! PROOFS. Whose turn a step is, and what the host's accesses do at unmapped offsets, at offsets that are not admitted and
while a command is pending. -/

namespace Sys2Proof.Machine

/-! ### The engine's turn -/

/-- The engine's turn is the engine step (20_memory R90). -/
theorem step_eq_engineStep {s : State} (h : EngineMoves s) : step s = engineStep s := by
  rw [step, if_pos]
  simpa [engineTurn, EngineMoves] using h

/-- Settles O3: it is the engine's turn, and PENDING decodes to the command. -/
theorem stepRunsTheDecodedCommand : Obligations.StepRunsTheDecodedCommand := by
  intro s i hmoves hi
  rw [step_eq_engineStep hmoves, engineStep, fetchCommand, hi]

/-- Every command ends its own pending state (60_exceptions R284, R285). -/
theorem ExecResult.busy_eq {s t : State} {i : Instr} (he : ExecResult s i t) : t.busy = false := by
  cases he <;> rfl

/-- A host operation leaves a pending command pending with its count of accesses, or abandons it by hardware reset
(20_memory R92, 70_reset_and_hazards R322). -/
theorem HostEffect.pending {s t : State} {op : HostOp} (he : HostEffect s op t) (busy : s.busy = true) :
    t.busy = false ∨ (t.busy = true ∧ t.engineWait = s.engineWait) := by
  cases he with
  | registers ht | table ht => rw [ht]; exact .inr ⟨busy, rfl⟩
  | ctrl => exact .inr ⟨busy, rfl⟩
  | reset => exact .inl rfl
  | accept w idle | clear w idle | ibufData w idle => exact absurd (idle.symm.trans busy) Bool.false_ne_true

/-- A step from a state with a pending command ends the command or uses up one of the host accesses before it
(20_memory R90). -/
theorem step_pending {s t : State} (busy : s.busy = true) (h : step s = .next t) :
    t.busy = false ∨ (t.busy = true ∧ t.engineWait + 1 = s.engineWait) := by
  rcases step_cases h with ⟨-, i, -, h⟩ | ⟨-, -, rfl⟩ | ⟨hE, hq, -⟩ | ⟨hE, op, rest, -, h⟩
  · exact .inl (execResult_of_exec h).busy_eq
  · exact .inl rfl
  · exact absurd hq (hostTurn_waits hE busy).2
  · obtain ⟨hw, -⟩ := hostTurn_waits hE busy
    refine ((hostEffect_of_hostOp h).pending busy).imp_right fun ⟨hb, hwait⟩ => ⟨hb, ?_⟩
    rw [hwait]
    exact Nat.sub_add_cancel (Nat.pos_of_ne_zero hw)

/-- After `k` steps from `s` nothing is pending, or the run has stopped. -/
def IdleOrStopped (k : Nat) (s : State) : Prop :=
  (∃ t, core.run k s = .next t ∧ t.busy = false) ∨ (∃ f, core.run k s = .fault f) ∨ ∃ q, core.run k s = .refused q

/-- A run of `k + 1` steps is a step and a run of `k`. -/
theorem core_run_succ {k : Nat} {s t : State} (h : step s = .next t) : core.run (k + 1) s = core.run k t := by
  rw [Nat.add_comm]
  exact core_run_trans (core_run_one h) rfl

theorem IdleOrStopped.succ {k : Nat} {s t : State} (h : step s = .next t) (ht : IdleOrStopped k t) :
    IdleOrStopped (k + 1) s := by
  rwa [IdleOrStopped, core_run_succ h]

theorem core_run_one_eq_step (s : State) : core.run 1 s = step s := by
  have hstep : core.step s = step s := rfl
  simp only [Host.Core.run, hstep]
  cases step s <;> rfl

/-- One step leaves nothing pending, stops, or goes on with one host access less before the command (20_memory R90). -/
theorem idleOrStopped_one_or_next {s : State} (busy : s.busy = true) :
    IdleOrStopped 1 s ∨ ∃ t, step s = .next t ∧ t.busy = true ∧ t.engineWait + 1 = s.engineWait := by
  have hrun := core_run_one_eq_step s
  cases h : step s with
  | next t => exact (step_pending busy h).imp (fun hb => .inl ⟨t, hrun.trans h, hb⟩) fun hwait => ⟨t, rfl, hwait⟩
  | fault f => exact .inl (.inr (.inl ⟨f, hrun.trans h⟩))
  | refused q => exact .inl (.inr (.inr ⟨q, hrun.trans h⟩))

/-- Settles O7: by induction on the host accesses left before the command, each step using up one. -/
theorem engineStepComes : Obligations.EngineStepComes := by
  intro s busy
  show ∃ k, k ≤ s.engineWait + 1 ∧ IdleOrStopped k s
  induction hn : s.engineWait generalizing s with
  | zero =>
    rcases idleOrStopped_one_or_next busy with h | ⟨t, -, -, hwait⟩
    · exact ⟨1, Nat.le_refl 1, h⟩
    · omega
  | succ n ih =>
    rcases idleOrStopped_one_or_next busy with h | ⟨t, hstep, hb, hwait⟩
    · exact ⟨1, by omega, h⟩
    · obtain ⟨k, hk, hidle⟩ := ih t hb (by omega)
      exact ⟨k + 1, by omega, hidle.succ hstep⟩

/-! ### Offsets -/

/-- An offset is admitted exactly when it is a multiple of 4 (20_memory R83). -/
theorem aligned_eq_true {o : BitVec 12} : aligned o = true ↔ o.toNat % 4 = 0 := by
  rw [aligned, beq_iff_eq, ← BitVec.toNat_inj, BitVec.extractLsb'_toNat]
  rfl

/-- The mapped registers end at 0x078 (10_state R22). -/
theorem Reg.offset_le (r : Reg) : r.offset.toNat ≤ 0x078 := by
  cases r <;> decide

/-- No register is mapped from 0x07C on (20_memory R86). -/
theorem regAt_eq_none {o : BitVec 12} (h : 0x07C ≤ o.toNat) : regAt o = none := by
  rw [Option.eq_none_iff_forall_ne_some]
  intro r hr
  rw [regAt_eq_some.mp hr] at h
  have := r.offset_le
  omega

/-- The multiples of 4 from IN_LEN to NODE_FREQ_HI are the registers that R91 does not list. -/
theorem exists_reg_of_not_readableWhileBusy {o : BitVec 12} (h4 : o.toNat % 4 = 0) (hlow : 0x024 ≤ o.toNat)
    (hhigh : o.toNat ≤ 0x078) : ∃ r : Reg, o = r.offset ∧ r.readableWhileBusy = false := by
  have htable : ∀ k < 22, ∃ r ∈ allRegs, BitVec.ofNat 12 (0x024 + 4 * k) = r.offset ∧ r.readableWhileBusy = false := by
    decide
  obtain ⟨r, -, ho, hr⟩ := htable ((o.toNat - 0x024) / 4) (by omega)
  refine ⟨r, ?_, hr⟩
  rw [← ho, ← BitVec.toNat_inj, BitVec.toNat_ofNat]
  omega

/-- Settles O17: the host's turn refuses the operation. -/
theorem narrowAndMisalignedAccessesAreRefused : Obligations.NarrowAndMisalignedAccessesAreRefused := by
  intro s op rest hm hq hop
  rw [step_eq_hostOp hm hq]
  rcases hop with ⟨o, rfl, ho⟩ | ⟨o, w, rfl, ho⟩ | ⟨o, b, rfl⟩
  · rw [hostOp, hostRead, if_neg (mt aligned_eq_true.mp ho)]
  · rw [hostOp, hostWrite, if_neg (mt aligned_eq_true.mp ho)]
  · rfl

/-! ### Reads by offset, idle or while BUSY = 1 -/

/-- A read at an admitted offset returns its value to the host (20_memory R83, R93). -/
theorem step_read {s t : State} {o : BitVec 12} {rest : List HostOp} {v : Word} (hm : HostMoves s) (h4 : o.toNat % 4 = 0)
    (hq : s.hostQueue = .access (.read o) :: rest) (hr : readOffset o (takeOp rest s) = .ok (v, t)) :
    step s = .next (returnToHost v t) := by
  rw [step_eq_hostOp hm hq]
  exact hostRead_eq_next.mpr ⟨aligned_eq_true.mpr h4, v, t, hr, rfl⟩

theorem readOffset_unmapped {o : BitVec 12} (h : 0x07C ≤ o.toNat) (s : State) : readOffset o s = .ok (0, s) := by
  rw [readOffset, regAt_eq_none h]

theorem writeOffset_unmapped {o : BitVec 12} (h : 0x07C ≤ o.toNat) (w : Word) (s : State) : writeOffset o w s = s := by
  rw [writeOffset, regAt_eq_none h]

/-- While BUSY = 1 a register of the list of R91 is read as it is while idle. -/
theorem readOffset_readableWhileBusy {r : Reg} (h : r.readableWhileBusy = true) (s : State) :
    readOffset r.offset s = readReg r s := by
  simp [readOffset, h]

/-- While BUSY = 1 a register outside the list of R91 returns a free draw (93_implementation_defined U3). -/
theorem readOffset_busy_free {r : Reg} (h : r.readableWhileBusy = false) {s : State} (busy : s.busy = true) :
    readOffset r.offset s = .ok (Config.freeWord s.draws, { s with draws := s.draws + 1 }) := by
  simp [readOffset, h, busy]

/-- Settles O16: no register is mapped at the offset, idle or busy. -/
theorem unmappedOffsetsReadZero : Obligations.UnmappedOffsetsReadZero := by
  intro s o w rest hm h4 hhigh
  refine ⟨fun hq => step_read hm h4 hq (readOffset_unmapped hhigh _), fun hq => ?_⟩
  rw [step_eq_hostOp hm hq, hostOp, hostWrite, if_pos (aligned_eq_true.mpr h4), writeOffset_unmapped hhigh]
  rfl

/-- Settles O14: the write of a mapped register is dropped. -/
theorem busyWritesAreDropped : Obligations.BusyWritesAreDropped := by
  intro s r w rest busy hw hq
  exact step_write_busy busy hw hq

/-- While a command is pending ERR reads 0 (20_memory R91): its acceptance cleared it. -/
theorem errWord_busy {s : State} (h : Inv s) (busy : s.busy = true) : errWord s = 0 := by
  obtain ⟨-, hcode, -⟩ := h.accepted busy
  rw [errWord, errCodeByte_eq_zero.mpr hcode, h.errOp hcode]
  rfl

/-- A read of a register of R91's list, whose read has no side effect, changes nothing of the block, idle or busy. -/
theorem step_read_busy {s : State} {r : Reg} {rest : List HostOp} {v : Word} (hm : HostMoves s)
    (hlist : r.readableWhileBusy = true) (hq : s.hostQueue = .access (.read r.offset) :: rest)
    (hr : readReg r (takeOp rest s) = .ok (v, takeOp rest s)) :
    step s = .next { afterAccess rest s with hostReads := s.hostReads ++ [v] } :=
  step_read hm (aligned_eq_true.mp (aligned_offset r)) hq ((readOffset_readableWhileBusy hlist _).trans hr)

/-- Settles O15: by the three groups of offsets, of which one is unmapped and one is outside R91's list. -/
theorem busyReads : Obligations.BusyReads := by
  intro s o rest busy hw h4 hq
  have hm : HostMoves s := .inr hw
  refine ⟨fun r hr ho => ?_, fun ho => ?_, fun hlow hhigh => ?_⟩
  · subst ho
    have hstatic : ∃ v, readReg r s = .ok (v, s) ∧ readReg r (takeOp rest s) = .ok (v, takeOp rest s) ∧
        r.readableWhileBusy = true ∧ (r = .err → v = errWord s) := by
      simp only [List.mem_cons, List.not_mem_nil, or_false] at hr
      rcases hr with rfl | rfl | rfl | rfl | rfl | rfl | rfl <;> exact ⟨_, rfl, rfl, rfl, by simp⟩
    obtain ⟨v, hv, hv', hlist, herr⟩ := hstatic
    exact ⟨v, hv, fun hinv hr => (herr hr).trans (errWord_busy hinv busy), step_read_busy hm hlist hq hv'⟩
  · rcases ho with rfl | rfl | hhigh
    · exact step_read_busy hm rfl hq rfl
    · exact step_read_busy hm rfl hq rfl
    · exact step_read hm h4 hq (readOffset_unmapped hhigh _)
  · obtain ⟨r, rfl, hlist⟩ := exists_reg_of_not_readableWhileBusy h4 hlow hhigh
    exact ⟨_, step_read hm h4 hq (readOffset_busy_free hlist busy)⟩

end Sys2Proof.Machine
end

section
/-! PROOFS. What accesses and steps leave alone: side effects and reserved fields of the registers, and the bytes of the
buffers. -/

namespace Sys2Proof.Machine

/-! ### Side effects of accesses -/

/-- A write of a read-only register is ignored (20_memory R87). -/
theorem writeReg_readOnly {r : Reg} (h : readOnly r = true) (w : Word) (s : State) : writeReg r w s = s := by
  cases r
  case ctrl | cmd | clear | inLen | padIn | ibufPtr | ibufData | obufPtr | ftCount | ftIndex | ftSym | ftFreq | ctSym |
      ctWordsel | nodeSel => cases h
  all_goals rfl

/-- A read that maps what it finds to a value beside a fixed state leaves that state. -/
theorem state_eq_of_map {α : Type} {x : Except Fault α} {value : α → Word} {t u : State} {v : Word}
    (h : (x.map fun a => (value a, u)) = .ok (v, t)) : t = u := by
  obtain ⟨a, -, hv⟩ := map_eq_ok.mp h
  exact (Prod.mk.inj hv).2.symm

/-- Settles O19: by the register read; the three data ports are the reads that map a value to an advanced pointer. -/
theorem accessesWithSideEffects : Obligations.AccessesWithSideEffects := by
  refine ⟨fun r s t v h => ⟨fun hi ho hf => ?_, ?_, ?_, ?_⟩, fun r w s hr => writeReg_readOnly hr w s⟩
  · rcases readReg_cases h with ht | ⟨hr, -⟩ | ⟨hr, -⟩ | ⟨hr, -⟩
    · exact ht
    · exact absurd hr hi
    · exact absurd hr ho
    · exact absurd hr hf
  · rintro rfl
    exact state_eq_of_map h
  · rintro rfl
    exact state_eq_of_map h
  · rintro rfl
    exact state_eq_of_map h

/-! ### Reserved fields -/

/-- No bit of `v` lies outside `mask`. -/
def Within (mask v : Word) : Prop := v &&& ~~~mask = 0

theorem within_of_getLsbD {mask v : Word} (h : ∀ i, v.getLsbD i = true → mask.getLsbD i = true) : Within mask v := by
  refine BitVec.eq_of_getLsbD_eq fun i hi => ?_
  cases hv : v.getLsbD i with
  | false => simp [hv]
  | true => simp [h i hv]

theorem within_zero (mask : Word) : Within mask 0 := BitVec.zero_and

/-- A register of 32 bits has no reserved fields. -/
theorem within_full (v : Word) : Within 0xFFFFFFFF v := BitVec.and_zero

theorem Within.or {mask a b : Word} (ha : Within mask a) (hb : Within mask b) : Within mask (a ||| b) := by
  unfold Within at *
  rw [BitVec.and_or_distrib_right, ha, hb]
  rfl

theorem within_flagAt {mask : Word} {i : Nat} (h : mask.getLsbD i = true) (b : Bool) : Within mask (flagAt b i) := by
  refine within_of_getLsbD fun j hj => ?_
  obtain ⟨-, -, rfl⟩ : b = true ∧ i < 32 ∧ i = j := by simpa using hj
  exact h

/-- A field of `n` bits at bits `k` to `k + n - 1` lies within a mask that has these bits. -/
theorem within_field {mask : Word} {n : Nat} (x : BitVec n) {k : Nat} (h : ∀ i < n, mask.getLsbD (k + i) = true) :
    Within mask (x.setWidth 32 <<< k) := by
  refine within_of_getLsbD fun j hj => ?_
  obtain ⟨⟨-, hk⟩, -, hx⟩ : (j < 32 ∧ k ≤ j) ∧ j - k < 32 ∧ x.getLsbD (j - k) = true := by simpa using hj
  have := h (j - k) (BitVec.lt_of_getLsbD hx)
  rwa [Nat.add_sub_cancel' hk] at this

/-- A field of `n` bits from bit 0 on. -/
theorem within_lowField {mask : Word} {n : Nat} (x : BitVec n) (h : ∀ i < n, mask.getLsbD i = true) :
    Within mask (x.setWidth 32) := by
  simpa using within_field x (k := 0) (by simpa using h)

theorem within_statusWord (s : State) : Within (fieldMask .status) (statusWord s) :=
  (((((((within_flagAt rfl _).or (within_flagAt rfl _)).or (within_flagAt rfl _)).or (within_flagAt rfl _)).or
    (within_flagAt rfl _)).or (within_flagAt rfl _)).or (within_flagAt rfl _)).or (within_field s.lastOp (by decide))

theorem within_errWord (s : State) : Within (fieldMask .err) (errWord s) :=
  (within_lowField _ (by decide)).or (within_field s.errOp (by decide))

theorem within_capWord (p : Params) : Within (fieldMask .cap) (capWord p) :=
  ((within_flagAt rfl _).or (by rw [Within]; decide)).or (by rw [Within]; decide)

theorem within_nodeInfoWord (x : Option Node) : Within (fieldMask .nodeInfo) (nodeInfoWord x) := by
  cases x with
  | none => exact within_zero _
  | some n =>
    rw [nodeInfoWord_some, Node.infoField]
    refine ((within_flagAt rfl _).or (within_flagAt rfl _)).or ?_
    split
    · exact within_lowField _ (by decide)
    · exact (within_lowField _ (by decide)).or (within_field _ (by decide))

/-- A data port returns a byte, or 0 beyond the buffer (10_state R36, R38). -/
theorem within_dataValue {c : Prop} [Decidable c] {x : Except Fault Byte} {v : Word}
    (h : (if c then x.map (BitVec.setWidth 32) else .ok 0) = .ok v) : Within 0x000000FF v := by
  split at h
  · obtain ⟨b, -, rfl⟩ := map_eq_ok.mp h
    exact within_lowField b (by decide)
  · cases h; exact within_zero _

/-- A read of a register returns no set reserved bit (20_memory R87). -/
theorem readReg_within {r : Reg} {s t : State} {v : Word} (h : readReg r s = .ok (v, t)) : Within (fieldMask r) v := by
  cases r
  case cap => cases h; exact within_capWord _
  case ctrl => cases h; exact within_flagAt rfl _
  case cmd => cases h; exact within_zero _
  case status => cases h; exact within_statusWord s
  case err => cases h; exact within_errWord s
  case clear => cases h; exact within_zero _
  case ibufData =>
    obtain ⟨u, hu, hv⟩ := map_eq_ok.mp h
    cases hv
    exact within_dataValue hu
  case obufData =>
    obtain ⟨u, hu, hv⟩ := map_eq_ok.mp h
    cases hv
    exact within_dataValue hu
  case ftSym =>
    obtain ⟨e, -, hv⟩ := map_eq_ok.mp h
    cases hv
    exact within_lowField e.sym (by decide)
  case ctLen =>
    cases h
    unfold ctLenWord
    split
    · exact within_lowField _ (by decide)
    · exact within_zero _
  case nodeInfo =>
    obtain ⟨x, -, hv⟩ := map_eq_ok.mp h
    cases hv
    exact within_nodeInfoWord x
  case nodeFreqHi =>
    obtain ⟨x, -, hv⟩ := map_eq_ok.mp h
    cases hv
    cases x with
    | none => exact within_zero _
    | some n => exact within_lowField _ (by decide)
  case padOut | ftCount | ftIndex | ctSym | ctWordsel | root | nodeCount | nodeSel =>
    cases h; exact within_lowField _ (by decide)
  case id | ibufSize | obufSize | inLen | padIn | outLen | ibufPtr | obufPtr | ftFreq | ctBits | nodeFreqLo =>
    exact within_full v

/-- The low field of a word is not changed by a mask that keeps its bits. -/
theorem extractLsb'_and_mask {mask : Word} {n : Nat} (h : ∀ i < n, mask.getLsbD i = true) (w : Word) :
    (w &&& mask).extractLsb' 0 n = w.extractLsb' 0 n := by
  refine BitVec.eq_of_getLsbD_eq fun i hi => ?_
  simp [h i hi]

theorem and_full (w : Word) : w &&& 0xFFFFFFFF = w := BitVec.and_allOnes

/-- A write stores nothing of the reserved bits, CMD apart (20_memory R87). -/
theorem writeReg_and_fieldMask {r : Reg} (h : r ≠ .cmd) (w : Word) (s : State) :
    writeReg r (w &&& fieldMask r) s = writeReg r w s := by
  cases r
  case cmd => exact absurd rfl h
  case clear => exact clearStatus_mask w s
  case ctrl =>
    have hbit : (w &&& fieldMask .ctrl).getLsbD 0 = w.getLsbD 0 := by
      rw [BitVec.getLsbD_and, show (fieldMask .ctrl).getLsbD 0 = true from rfl, Bool.and_true]
    rw [writeReg, writeReg, hbit]
  case ibufData => simp only [writeReg, writeIbufData, fieldMask, extractLsb'_and_mask (n := 8) (mask := 0xFF) (by decide)]
  case ftSym => simp only [writeReg, writeFtSym, fieldMask, extractLsb'_and_mask (n := 8) (mask := 0xFF) (by decide)]
  case ftCount => simp only [writeReg, fieldMask, extractLsb'_and_mask (n := 9) (mask := 0x1FF) (by decide)]
  case ftIndex => simp only [writeReg, fieldMask, extractLsb'_and_mask (n := 8) (mask := 0xFF) (by decide)]
  case ctSym => simp only [writeReg, fieldMask, extractLsb'_and_mask (n := 8) (mask := 0xFF) (by decide)]
  case ctWordsel => simp only [writeReg, fieldMask, extractLsb'_and_mask (n := 3) (mask := 7) (by decide)]
  case nodeSel => simp only [writeReg, fieldMask, extractLsb'_and_mask (n := 9) (mask := 0x1FF) (by decide)]
  case inLen | padIn | ibufPtr | obufPtr | ftFreq => rw [fieldMask, and_full]
  all_goals rfl

/-- Settles O20: by the reads and writes of the registers; the decoder looks at the reserved field first. -/
theorem reservedFields : Obligations.ReservedFields := by
  refine ⟨fun r s t v h => readReg_within h, fun r w s hr => writeReg_and_fieldMask hr w s,
    fun r w s hr => writeReg_readOnly hr w s, fun s => ⟨rfl, rfl⟩, fun w s => ⟨rfl, fun hres => ?_⟩⟩
  exact if_pos hres

/-! ### The buffers -/

/-- Settles O36: COUNT reads its input in order and stops at the first byte that nothing has written. -/
theorem countFaultsOnUnwrittenInput : Obligations.CountFaultsOnUnwrittenInput := by
  intro s a hcounter hlen hlt hnone hbefore
  have hread : readIbufBytes s 0 s.inLen.toNat = .error (.unwrittenIbuf a) :=
    readIbufBytes_eq_error.mpr ⟨a, hlt, by rwa [Nat.zero_add], by simpa using hbefore, by rw [Nat.zero_add]⟩
  rw [exec, execCount, if_pos hcounter, finishCommand_eq_fault, countBody, checkInLen_eq_ok (u := ()).mpr hlen, hread]
  rfl

/-- Of the host's operations only a write of IBUF_DATA while idle can change IBUF, hardware reset apart (20_memory R80). -/
theorem HostEffect.ibuf_eq_or_write {s t : State} {op : HostOp} (he : HostEffect s op t) (hop : op ≠ .hardwareReset) :
    t.ibuf = s.ibuf ∨ (s.busy = false ∧ ∃ w, op = .access (.write Reg.ibufData.offset w)) := by
  cases he with
  | registers ht | table ht => rw [ht]; exact .inl rfl
  | ibufData w idle => exact .inr ⟨idle, w, rfl⟩
  | reset => exact absurd rfl hop
  | ctrl | accept | clear => exact .inl rfl

/-- No operation of the host changes OBUF, hardware reset apart (20_memory R80). -/
theorem HostEffect.obuf_eq {s t : State} {op : HostOp} (he : HostEffect s op t) (hop : op ≠ .hardwareReset) :
    t.obuf = s.obuf := by
  cases he with
  | registers ht => rw [ht]
  | table ht => rw [ht]; rfl
  | reset => exact absurd rfl hop
  | ctrl | accept | clear | ibufData => rfl

theorem ExecResult.ibuf_eq {s t : State} {i : Instr} (he : ExecResult s i t) : t.ibuf = s.ibuf := by
  cases he <;> rfl

/-- Of the commands only PACK and DECODE can change OBUF (20_memory R82). -/
theorem ExecResult.obuf_eq_or_owner {s t : State} {i : Instr} (he : ExecResult s i t) :
    t.obuf = s.obuf ∨ i = .pack ∨ i = .decode := by
  cases he with
  | output owner => exact .inr owner
  | walkFailed => exact .inr (.inr rfl)
  | nop | softReset | count | build | buildFailed | genCodes | failed | outputFailed => exact .inl rfl

/-- Settles O32: by cases on what a step can do; a command that runs is the word in PENDING. -/
theorem onlyTheirOwnersWriteTheBuffers : Obligations.OnlyTheirOwnersWriteTheBuffers := by
  intro s t h hreset
  have differ : ∀ {m m' : Memory}, (∃ a, m.read a ≠ m'.read a) → m ≠ m' := by
    rintro m _ ⟨a, ha⟩ rfl
    exact ha rfl
  suffices key :
      (t.ibuf ≠ s.ibuf → s.busy = false ∧ ∃ w rest, s.hostQueue = .access (.write Reg.ibufData.offset w) :: rest) ∧
      (t.obuf ≠ s.obuf → EngineMoves s ∧ (s.pending = 0x00000004 ∨ s.pending = 0x00000005)) from
    ⟨fun ha => key.1 (differ ha), fun ha => key.2 (differ ha)⟩
  rcases step_effect h with ⟨hE, i, hi, he⟩ | ⟨-, rfl⟩ | rfl | ⟨-, op, rest, hq, he⟩
  · refine ⟨absurd he.ibuf_eq, fun hne => ⟨engineMoves_of_engineTurn hE, ?_⟩⟩
    have hword := eq_encode_of_decode hi
    rcases he.obuf_eq_or_owner.resolve_left hne with rfl | rfl
    · exact .inl hword
    · exact .inr hword
  · exact ⟨absurd rfl, absurd rfl⟩
  · exact ⟨absurd rfl, absurd rfl⟩
  · have hop : op ≠ .hardwareReset := by rintro rfl; exact hreset rest hq
    refine ⟨fun hne => ?_, absurd (he.obuf_eq hop)⟩
    obtain ⟨idle, w, rfl⟩ := (he.ibuf_eq_or_write hop).resolve_left hne
    exact ⟨idle, w, rest, hq⟩

end Sys2Proof.Machine
end

section
/-! PROOFS. The bytes of a container: its little-endian fields, where each lies, what parsing rejects and what it gives
back. -/

namespace Sys2Proof.Machine

/-! ### Little-endian fields -/

@[simp] theorem leBytes_length (n v : Nat) : (leBytes n v).length = n := by
  induction n generalizing v with
  | zero => rfl
  | succ n ih => simp [leBytes, ih]

/-- Byte `j` of a field holds bits `8j` to `8j + 7` of its number (20_memory R101). -/
theorem leBytes_getElem? {n j : Nat} (hj : j < n) (v : Nat) : (leBytes n v)[j]? = some (BitVec.ofNat 8 (v / 256 ^ j)) := by
  induction n generalizing v j with
  | zero => omega
  | succ n ih =>
    cases j with
    | zero => simp [leBytes]
    | succ j => rw [leBytes, List.getElem?_cons_succ, ih (by omega), Nat.div_div_eq_div_mul, ← Nat.pow_succ']

/-- A field gives back its number, as far as its bytes hold it (20_memory R101). -/
theorem leValue_leBytes (n v : Nat) : leValue (leBytes n v) = v % 256 ^ n := by
  induction n generalizing v with
  | zero => simp [leBytes, leValue, Nat.mod_one]
  | succ n ih => rw [leBytes, leValue, ih, Nat.pow_succ', Nat.mod_mul, BitVec.toNat_ofNat]

/-- A field of four bytes gives back its word. -/
theorem ofNat_leValue_leBytes (w : Word) : BitVec.ofNat 32 (leValue (leBytes 4 w.toNat)) = w := by
  have hmod : w.toNat % 256 ^ 4 = w.toNat := Nat.mod_eq_of_lt w.isLt
  rw [leValue_leBytes, hmod, BitVec.ofNat_toNat, BitVec.setWidth_eq]

/-- Byte `j` of a word's field is its bits `8j` to `8j + 7` (20_memory R101). -/
theorem ofNat_div_eq_extractLsb' (w : Word) (j : Nat) : BitVec.ofNat 8 (w.toNat / 256 ^ j) = w.extractLsb' (8 * j) 8 := by
  rw [BitVec.extractLsb', Nat.shiftRight_eq_div_pow, Nat.pow_mul]

/-! ### The table -/

@[simp] theorem entryBytes_length (e : FtabEntry) : (entryBytes e).length = 5 := by simp [entryBytes, Config.freqBytes]

theorem flatMap_entryBytes_length (es : List FtabEntry) : (es.flatMap entryBytes).length = 5 * es.length := by
  simp [List.length_flatMap, Nat.mul_comm]

/-- The table bytes from entry `i` on are those of the entries from `i` on. -/
theorem drop_flatMap_entryBytes (es : List FtabEntry) (i : Nat) :
    (es.flatMap entryBytes).drop (5 * i) = (es.drop i).flatMap entryBytes := by
  induction es generalizing i with
  | nil => simp
  | cons e es ih =>
    cases i with
    | zero => rfl
    | succ i =>
      rw [List.flatMap_cons, List.drop_succ_cons, ← ih, Nat.mul_succ, Nat.add_comm, ← List.drop_drop,
        List.drop_left' (entryBytes_length e)]

/-- Parsing the bytes of a table gives back its entries (20_memory R104). -/
theorem parseEntries_flatMap (es : List FtabEntry) (rest : List Byte) :
    parseEntries es.length (es.flatMap entryBytes ++ rest) = es := by
  induction es with
  | nil => rfl
  | cons e es ih =>
    simp only [List.flatMap_cons, entryBytes, List.cons_append, List.append_assoc, List.length_cons, parseEntries]
    rw [List.take_left' (leBytes_length _ _), List.drop_left' (leBytes_length _ _), ih, Config.freqBytes,
      ofNat_leValue_leBytes]

/-- Parsing `n` entries of enough bytes gives `n` entries. -/
theorem parseEntries_length {n : Nat} {bs : List Byte} (h : 5 * n ≤ bs.length) : (parseEntries n bs).length = n := by
  induction n generalizing bs with
  | zero => rfl
  | succ n ih =>
    cases bs with
    | nil => simp at h
    | cons sym bs =>
      rw [List.length_cons] at h
      rw [parseEntries, List.length_cons, ih]
      rw [List.length_drop, Config.freqBytes]
      omega

/-! ### What parsing rejects and accepts -/

theorem parseContainer_short {bytes : List Byte} (h : bytes.length < 8) : parseContainer bytes = .error .truncated :=
  if_pos h

theorem parseContainer_tableTooLarge {bytes : List Byte} (h : 8 ≤ bytes.length) (hn : 256 < leValue (bytes.take 8)) :
    parseContainer bytes = .error .tableTooLarge :=
  (if_neg (Nat.not_lt.mpr h)).trans (if_pos hn)

theorem parseContainer_truncated {bytes : List Byte} (h : 8 ≤ bytes.length) (hn : leValue (bytes.take 8) ≤ 256)
    (hlen : bytes.length < 8 + 5 * leValue (bytes.take 8) + 4) : parseContainer bytes = .error .truncated :=
  (if_neg (Nat.not_lt.mpr h)).trans ((if_neg (Nat.not_lt.mpr hn)).trans (if_pos hlen))

/-- The bytes of a whole container parse to its three parts (20_memory R104). -/
theorem parseContainer_ok {bytes : List Byte} {n : Nat} (hn : leValue (bytes.take 8) = n) (hle : n ≤ 256)
    (hlen : 8 + 5 * n + 4 ≤ bytes.length) :
    parseContainer bytes = .ok
      { entries := parseEntries n (bytes.drop 8)
        padding := BitVec.ofNat 32 (leValue ((bytes.drop (8 + 5 * n)).take 4))
        packed := bytes.drop (8 + 5 * n + 4) } := by
  subst hn
  have h8 : ¬ bytes.length < 8 := by omega
  exact (if_neg h8).trans ((if_neg (Nat.not_lt.mpr hle)).trans (if_neg (Nat.not_lt.mpr hlen)))

/-- Settles O59: the last access of the load is IN_LEN's write, and parsing checks the two lengths and the table size. -/
theorem containerRejects : Obligations.ContainerRejects := by
  refine ⟨fun c p hp => ⟨inLenWord c.packed.length, ?_, ?_, ?_⟩, fun bytes n hn => ?_⟩
  · rw [Container.loadOps, loadinOps, ← List.append_assoc, List.getLast?_concat]
    rfl
  · intro h
    rw [inLenWord_toNat]
    omega
  · obtain ⟨⟨-, hsize⟩, -⟩ := hp
    rw [inLenWord_toNat]
    omega
  · subst hn
    refine ⟨parseContainer_short, parseContainer_tableTooLarge, parseContainer_truncated, fun h8 hle hlen => ?_⟩
    refine ⟨_, parseContainer_ok rfl hle hlen, parseEntries_length ?_, ?_⟩
    · rw [List.length_drop]; omega
    · show bytes.drop _ = _
      rw [Nat.add_right_comm]

/-! ### Where the fields of a container lie -/

theorem Container.serialize_eq (c : Container) :
    c.serialize = leBytes 8 c.entries.length ++ (c.entries.flatMap entryBytes ++ (leBytes 4 c.padding.toNat ++ c.packed)) := by
  rw [serialize, List.append_assoc, List.append_assoc]
  rfl

theorem Container.serialize_length (c : Container) :
    c.serialize.length = 8 + 5 * c.entries.length + 4 + c.packed.length := by
  simp only [serialize_eq, List.length_append, leBytes_length, flatMap_entryBytes_length]
  omega

/-- From byte 8 on lie the table, the padding and the packed bytes (20_memory R100). -/
theorem Container.drop_serialize_size (c : Container) :
    c.serialize.drop 8 = c.entries.flatMap entryBytes ++ (leBytes 4 c.padding.toNat ++ c.packed) := by
  rw [serialize_eq, List.drop_left' (leBytes_length 8 _)]

/-- After the table lie the padding and the packed bytes (20_memory R100). -/
theorem Container.drop_serialize_table (c : Container) :
    c.serialize.drop (8 + 5 * c.entries.length) = leBytes 4 c.padding.toNat ++ c.packed := by
  rw [← List.drop_drop, drop_serialize_size, List.drop_left' (flatMap_entryBytes_length _)]

/-- After the padding lie the packed bytes (20_memory R100). -/
theorem Container.drop_serialize_padding (c : Container) :
    c.serialize.drop (8 + 5 * c.entries.length + 4) = c.packed := by
  rw [← List.drop_drop, drop_serialize_table, List.drop_left' (leBytes_length 4 _)]

/-- Entry `i` lies at byte `8 + 5i` (20_memory R100). -/
theorem Container.drop_serialize_entry (c : Container) {i : Nat} (h : i < c.entries.length) :
    ∃ rest, c.serialize.drop (8 + 5 * i) = entryBytes c.entries[i] ++ rest := by
  rw [← List.drop_drop, drop_serialize_size,
    List.drop_append_of_le_length (by rw [flatMap_entryBytes_length]; omega), drop_flatMap_entryBytes,
    List.drop_eq_getElem_cons h, List.flatMap_cons, List.append_assoc]
  exact ⟨_, rfl⟩

/-- Parsing the bytes of a container gives it back (20_memory R104). -/
theorem Container.parse_serialize {c : Container} (h : c.entries.length ≤ 256) : parseContainer c.serialize = .ok c := by
  have hsize : leValue (c.serialize.take 8) = c.entries.length := by
    rw [serialize_eq, List.take_left' (leBytes_length 8 _), leValue_leBytes]
    exact Nat.mod_eq_of_lt (by omega)
  rw [parseContainer_ok hsize h (by rw [serialize_length]; omega), drop_serialize_size, drop_serialize_table,
    drop_serialize_padding, parseEntries_flatMap, List.take_left' (leBytes_length 4 _), ofNat_leValue_leBytes]

/-- The bytes of a field that begins at `k`. -/
theorem getElem?_of_drop_eq {bytes rest : List Byte} {k n v : Nat} (h : bytes.drop k = leBytes n v ++ rest) {j : Nat}
    (hj : j < n) : bytes[k + j]? = some (BitVec.ofNat 8 (v / 256 ^ j)) := by
  rw [← List.getElem?_drop, h, List.getElem?_append_left (by rwa [leBytes_length]), leBytes_getElem? hj]

/-- The bytes of entry `i` (20_memory R100, R101). -/
theorem Container.serialize_entry (c : Container) {i : Nat} (h : i < c.entries.length) :
    c.serialize[8 + 5 * i]? = some c.entries[i].sym ∧
      ∀ j, j < 4 → c.serialize[9 + 5 * i + j]? = some (c.entries[i].freq.extractLsb' (8 * j) 8) := by
  obtain ⟨rest, hdrop⟩ := c.drop_serialize_entry h
  constructor
  · rw [← Nat.add_zero (8 + 5 * i), ← List.getElem?_drop, hdrop]
    rfl
  · intro j hj
    have hfreq : c.serialize.drop (9 + 5 * i) = leBytes 4 c.entries[i].freq.toNat ++ rest := by
      rw [show 9 + 5 * i = 8 + 5 * i + 1 by omega, ← List.drop_drop, hdrop]
      rfl
    rw [getElem?_of_drop_eq hfreq hj, ofNat_div_eq_extractLsb']

end Sys2Proof.Machine
end

section
/-! PROOFS. How the host builds a container: the values its reads of an idle block return, in order, and what is left
changed. -/

namespace Sys2Proof.Machine

/-! ### What the block holds -/

theorem readObuf_eq_ok {s : State} {a : Nat} {b : Byte} : readObuf s a = .ok b ↔ s.obuf.read a = some b := by
  unfold readObuf; split <;> simp_all

/-- Items read in ascending order of index are each the item at its index. -/
theorem readInOrder_eq_ok {α : Type} {item : Nat → Except Fault α} {items : Nat → Nat → Except Fault (List α)}
    (hzero : ∀ i, items i 0 = .ok [])
    (hsucc : ∀ i n, items i (n + 1) = item i >>= fun a => items (i + 1) n >>= fun l => .ok (a :: l)) {i n : Nat}
    {l : List α} (h : items i n = .ok l) : l.length = n ∧ ∀ j (hj : j < l.length), item (i + j) = .ok l[j] := by
  induction n generalizing i l with
  | zero =>
    obtain rfl := Except.ok.inj ((hzero i).symm.trans h)
    simp
  | succ n ih =>
    simp only [hsucc, bind_eq_ok, Except.ok.injEq] at h
    obtain ⟨a, ha, l', hl', rfl⟩ := h
    obtain ⟨hlen, hitems⟩ := ih hl'
    refine ⟨by rw [List.length_cons, hlen], fun j hj => ?_⟩
    cases j with
    | zero => exact ha
    | succ j =>
      have := hitems j (by simpa using hj)
      rwa [Nat.add_right_comm] at this

/-- The container of the block, part by part (20_memory R103). -/
theorem containerOf_eq_ok {s : State} {c : Container} (h : containerOf s = .ok c) :
    c.entries.length = s.ftCount.toNat ∧ c.packed.length = s.outLen.toNat ∧ c.padding = s.padOut.setWidth 32 ∧
    (∀ i (h : i < c.entries.length), s.ftab[i]? = some (some c.entries[i])) ∧
    ∀ a (h : a < c.packed.length), s.obuf.read a = some c.packed[a] := by
  simp only [containerOf, bind_eq_ok, Except.ok.injEq] at h
  obtain ⟨entries, hentries, packed, hpacked, rfl⟩ := h
  obtain ⟨hcount, htable⟩ := readInOrder_eq_ok (items := tableEntries s) (fun _ => rfl) (fun _ _ => rfl) hentries
  obtain ⟨hlen, hbytes⟩ := readInOrder_eq_ok (items := outputBytes s) (fun _ => rfl) (fun _ _ => rfl) hpacked
  refine ⟨hcount, hlen, rfl, fun i hi => ?_, fun a ha => ?_⟩
  · have := readFtab_eq_ok.mp (htable i hi)
    rwa [Option.join_eq_some_iff, Nat.zero_add] at this
  · have := readObuf_eq_ok.mp (hbytes a ha)
    rwa [Nat.zero_add] at this

/-- A table that FTAB holds from entry 0 on has at most 256 entries. -/
theorem length_le_of_ftab {s : State} {es : List FtabEntry} (h : ∀ i (hi : i < es.length), s.ftab[i]? = some (some es[i])) :
    es.length ≤ 256 := by
  by_contra hlong
  obtain ⟨hlt, -⟩ := Vector.getElem?_eq_some_iff.mp (h 256 (by omega))
  omega

/-- The reads of FT_SYM and FT_FREQ of a written entry (10_state R41, R42). -/
theorem readReg_ftab {s : State} {e : FtabEntry} (h : s.ftab[s.ftIndex.toNat]? = some (some e)) :
    readReg .ftSym s = .ok (e.sym.setWidth 32, s) ∧
      readReg .ftFreq s = .ok (e.freq, { s with ftIndex := s.ftIndex + 1 }) := by
  obtain ⟨-, -, hread, -⟩ := ftabPorts s 0
  exact hread e h

/-- While idle a read at a register's offset is the register's read (20_memory R87). -/
theorem readOffset_idle {r : Reg} {s : State} (idle : s.busy = false) : readOffset r.offset s = readReg r s := by
  simp [readOffset, idle]

/-! ### Runs of the host alone -/

/-- What the reads of R103 change of a block: the host's queue, OBUF_PTR and FT_INDEX. -/
structure ReadProgress where
  queue : List HostOp
  obufPtr : Word
  ftIndex : BitVec 8

/-- The block `s` while the host reads a container's parts from it, with the values returned so far and the model's count of
accesses before an engine step, which an idle block does not look at. -/
def duringReads (s : State) (x : ReadProgress) (log : List Word) (wait : Nat) : State :=
  { s with hostQueue := x.queue, obufPtr := x.obufPtr, ftIndex := x.ftIndex, hostReads := log, engineWait := wait }

/-- The host's operations take the block from `x` to `y`, and its reads return `values`, in order. -/
def HostReads (s : State) (x : ReadProgress) (values : List Word) (y : ReadProgress) : Prop :=
  ∀ log wait, ∃ k wait', core.run k (duringReads s x log wait) = .next (duringReads s y (log ++ values) wait')

theorem HostReads.refl (s : State) (x : ReadProgress) : HostReads s x [] x := fun log wait =>
  ⟨0, wait, by rw [List.append_nil]; rfl⟩

theorem HostReads.trans {s : State} {x y z : ReadProgress} {vs ws : List Word} (h : HostReads s x vs y)
    (h' : HostReads s y ws z) : HostReads s x (vs ++ ws) z := by
  intro log wait
  obtain ⟨j, w, hj⟩ := h log wait
  obtain ⟨k, w', hk⟩ := h' (log ++ vs) w
  rw [← List.append_assoc]
  exact ⟨j + k, w', core_run_trans hj hk⟩

section Idle

variable {s : State} {r : Reg} {ops : List HostOp} {v : Word} {p p' : Word} {i i' : BitVec 8} (idle : s.busy = false)
include idle

/-- A write of a register (20_memory R87). -/
theorem hostReads_write
    (hw : ∀ log wait, writeReg r v (duringReads s ⟨ops, p, i⟩ log wait) = duringReads s ⟨ops, p', i'⟩ log wait) :
    HostReads s ⟨.access (.write r.offset v) :: ops, p, i⟩ [] ⟨ops, p', i'⟩ := by
  intro log wait
  refine ⟨1, wait - 1, core_run_one ?_⟩
  rw [List.append_nil, ← hw]
  exact step_write_idle idle rfl

/-- A read of a register (20_memory R87). -/
theorem hostReads_read
    (hr : ∀ log wait, readReg r (duringReads s ⟨ops, p, i⟩ log wait) = .ok (v, duringReads s ⟨ops, p', i'⟩ log wait)) :
    HostReads s ⟨.access (.read r.offset) :: ops, p, i⟩ [v] ⟨ops, p', i'⟩ := by
  intro log wait
  have hstep := step_read_idle (s := duringReads s ⟨.access (.read r.offset) :: ops, p, i⟩ log wait) idle rfl
    (hr log (wait - 1))
  exact ⟨1, wait - 1, core_run_one hstep⟩

/-- The read of a count, which queues the accesses it counts (30_encoding R131). -/
theorem hostReads_count {setup : List BusTxn} {body : List (BitVec 12)}
    (hr : ∀ log wait, readReg r (duringReads s ⟨ops, p, i⟩ log wait) = .ok (v, duringReads s ⟨ops, p, i⟩ log wait)) :
    HostReads s ⟨.countedReads r.offset setup body :: ops, p, i⟩ [v] ⟨countedOps setup body v ++ ops, p, i⟩ := by
  intro log wait
  refine ⟨1, wait - 1, core_run_one ((step_eq_hostOp (s := duringReads s _ log wait) (.inl idle) rfl).trans ?_)⟩
  have hread := (readOffset_idle (r := r) (s := duringReads s ⟨ops, p, i⟩ log (wait - 1)) idle).trans (hr _ _)
  exact hostRead_eq_next.mpr ⟨aligned_offset r, v, _, hread, rfl⟩

/-- A read of OBUF_DATA returns the byte at OBUF_PTR and advances OBUF_PTR (10_state R38). -/
theorem hostReads_obufByte {b : Byte} (hlt : p.toNat < s.params.obufSize) (hb : s.obuf.read p.toNat = some b) :
    HostReads s ⟨.access (.read Reg.obufData.offset) :: ops, p, i⟩ [b.setWidth 32] ⟨ops, p + 1, i⟩ :=
  hostReads_read idle fun log wait => readReg_obufData (s := duringReads s ⟨ops, p, i⟩ log wait) hlt hb

/-- Reads of FT_SYM and FT_FREQ return the entry at FT_INDEX and advance FT_INDEX (10_state R41, R42). -/
theorem hostReads_entry {e : FtabEntry} (he : s.ftab[i.toNat]? = some (some e)) :
    HostReads s ⟨.access (.read Reg.ftSym.offset) :: .access (.read Reg.ftFreq.offset) :: ops, p, i⟩
      [e.sym.setWidth 32, e.freq] ⟨ops, p, i + 1⟩ := by
  have hread (q : List HostOp) (log : List Word) (wait : Nat) := readReg_ftab (s := duringReads s ⟨q, p, i⟩ log wait) he
  exact (hostReads_read idle fun log wait => (hread _ log wait).1).trans
    (hostReads_read idle fun log wait => (hread _ log wait).2)

/-- Reads of OBUF_DATA return the bytes from OBUF_PTR on and leave OBUF_PTR after the last of them (10_state R38). -/
theorem hostReads_obufData {bs : List Byte} {a : Nat} (hword : a + bs.length < 2 ^ 32)
    (hsize : a + bs.length ≤ s.params.obufSize) (hbytes : ∀ j (h : j < bs.length), s.obuf.read (a + j) = some bs[j]) :
    HostReads s ⟨(List.replicate bs.length [.access (.read Reg.obufData.offset)]).flatten ++ ops, BitVec.ofNat 32 a, i⟩
      (bs.map (BitVec.setWidth 32)) ⟨ops, BitVec.ofNat 32 (a + bs.length), i⟩ := by
  induction bs generalizing a with
  | nil => exact .refl s _
  | cons b bs ih =>
    rw [List.length_cons] at hword hsize
    have hp : (BitVec.ofNat 32 a).toNat = a := Nat.mod_eq_of_lt (by omega)
    have hlt : (BitVec.ofNat 32 a).toNat < s.params.obufSize := by omega
    have hb : s.obuf.read (BitVec.ofNat 32 a).toNat = some b := by rw [hp]; exact hbytes 0 (by simp)
    have hrest := ih (a := a + 1) (by omega) (by omega) fun j hj => by
      rw [Nat.add_right_comm]
      exact hbytes (j + 1) (by simpa using hj)
    rw [BitVec.ofNat_add, Nat.add_right_comm] at hrest
    exact (hostReads_obufByte idle hlt hb).trans hrest

/-- Reads of FT_SYM and FT_FREQ in turn return the entries from FT_INDEX on and leave FT_INDEX after the last of them
(10_state R41, R42). -/
theorem hostReads_ftab {es : List FtabEntry} {a : Nat} (hsize : a + es.length ≤ 256)
    (htable : ∀ j (h : j < es.length), s.ftab[a + j]? = some (some es[j])) :
    HostReads s
      ⟨(List.replicate es.length [.access (.read Reg.ftSym.offset), .access (.read Reg.ftFreq.offset)]).flatten ++ ops,
        p, BitVec.ofNat 8 a⟩
      (es.flatMap fun e => [e.sym.setWidth 32, e.freq]) ⟨ops, p, BitVec.ofNat 8 (a + es.length)⟩ := by
  induction es generalizing a with
  | nil => exact .refl s _
  | cons e es ih =>
    rw [List.length_cons] at hsize
    have hp : (BitVec.ofNat 8 a).toNat = a := Nat.mod_eq_of_lt (by omega)
    have he : s.ftab[(BitVec.ofNat 8 a).toNat]? = some (some e) := by rw [hp]; exact htable 0 (by simp)
    have hrest := ih (a := a + 1) (by omega) fun j hj => by
      rw [Nat.add_right_comm]
      exact htable (j + 1) (by simpa using hj)
    rw [BitVec.ofNat_add, Nat.add_right_comm] at hrest
    exact (hostReads_entry idle he).trans hrest

/-- `readout` returns OUT_LEN and the output bytes, and leaves OBUF_PTR after the last of them (30_encoding R131). -/
theorem hostReads_readout {bs : List Byte} (hlen : bs.length = s.outLen.toNat) (hsize : s.outLen.toNat ≤ s.params.obufSize)
    (hbytes : ∀ a (h : a < bs.length), s.obuf.read a = some bs[a]) :
    HostReads s ⟨readoutOps ++ ops, p, i⟩ (s.outLen :: bs.map (BitVec.setWidth 32)) ⟨ops, s.outLen, i⟩ := by
  have hword := s.outLen.isLt
  have hdata := hostReads_obufData (ops := ops) (i := i) (bs := bs) (a := 0) idle (by omega) (by omega)
    (by simpa using hbytes)
  rw [Nat.zero_add, hlen, BitVec.ofNat_toNat, BitVec.setWidth_eq] at hdata
  have hptr : HostReads s ⟨readoutOps ++ ops, p, i⟩ [] ⟨_, 0, i⟩ := hostReads_write idle fun _ _ => rfl
  exact (hptr.trans (hostReads_count idle fun _ _ => rfl)).trans hdata

/-- `readft` returns FT_COUNT and the entries, and leaves FT_INDEX after the last of them (30_encoding R131). -/
theorem hostReads_readft {es : List FtabEntry} (hcount : es.length = s.ftCount.toNat)
    (htable : ∀ j (h : j < es.length), s.ftab[j]? = some (some es[j])) :
    HostReads s ⟨readftOps ++ ops, p, i⟩ (s.ftCount.setWidth 32 :: es.flatMap fun e => [e.sym.setWidth 32, e.freq])
      ⟨ops, p, BitVec.ofNat 8 es.length⟩ := by
  have hsize := length_le_of_ftab htable
  have hdata := hostReads_ftab (ops := ops) (p := p) (es := es) (a := 0) idle (by omega) (by simpa using htable)
  rw [Nat.zero_add] at hdata
  have hread : HostReads s ⟨readftOps ++ ops, p, i⟩ [s.ftCount.setWidth 32] ⟨_, p, i⟩ := hostReads_count idle fun _ _ => rfl
  rw [countedOps, BitVec.toNat_setWidth_of_le (by omega), ← hcount] at hread
  exact (hread.trans (hostReads_write idle fun _ _ => rfl)).trans hdata

end Idle

/-- The low bits of a word that holds a narrow field are that field. -/
theorem extractLsb'_setWidth {n : Nat} (hn : n ≤ 32) (x : BitVec n) : (x.setWidth 32).extractLsb' 0 n = x := by
  refine BitVec.eq_of_getLsbD_eq fun i hi => ?_
  have h32 : i < 32 := by omega
  simp [hi, h32]

/-- The values of the host's reads of a container's parts, in the order of R103. -/
def readsOfContainer (outLen : Word) (padOut : BitVec 3) (ftCount : BitVec 9) (c : Container) : List Word :=
  outLen :: (c.packed.map (BitVec.setWidth 32) ++ (padOut.setWidth 32 :: ftCount.setWidth 32 ::
    c.entries.flatMap fun e => [e.sym.setWidth 32, e.freq]))

/-- These values give the container back (20_memory R103). -/
theorem containerOfReads_readsOfContainer {c : Container} {outLen : Word} {padOut : BitVec 3} {ftCount : BitVec 9}
    (hlen : c.packed.length = outLen.toNat) (hpad : c.padding = padOut.setWidth 32)
    (hcount : c.entries.length = ftCount.toNat) :
    containerOfReads (readsOfContainer outLen padOut ftCount c) = some c := by
  have hmap : (c.packed.map (BitVec.setWidth 32)).length = outLen.toNat := by rw [List.length_map, hlen]
  have hbytes : (c.packed.map (BitVec.setWidth 32)).map (fun v : Word => v.extractLsb' 0 8) = c.packed := by
    simp [Function.comp_def, extractLsb'_setWidth (n := 8) (by omega)]
  have htable : (c.entries.flatMap fun e => [e.sym.setWidth 32, e.freq]).length = 2 * (ftCount.setWidth 32).toNat := by
    rw [BitVec.toNat_setWidth_of_le (by omega), ← hcount]
    simp [List.length_flatMap, Nat.mul_comm]
  rw [readsOfContainer, containerOfReads, List.drop_left' hmap]
  simp only
  rw [if_pos htable, List.take_left' hmap, hbytes, entriesOfReads_flatMap, extractLsb'_setWidth (by omega), ← hpad]

/-- The host's accesses of R103 on an idle block return the container's parts, in order, and leave the two pointers after the
last byte and the last entry (20_memory R103). -/
theorem hostReads_container {s : State} {c : Container} {rest : List HostOp} {p : Word} {i : BitVec 8}
    (idle : s.busy = false) (hsize : s.outLen.toNat ≤ s.params.obufSize) (hc : containerOf s = .ok c) :
    HostReads s ⟨readContainerOps ++ rest, p, i⟩ (readsOfContainer s.outLen s.padOut s.ftCount c)
      ⟨rest, s.outLen, BitVec.ofNat 8 c.entries.length⟩ := by
  obtain ⟨hcount, hlen, -, htable, hbytes⟩ := containerOf_eq_ok hc
  have hout := hostReads_readout (ops := rd .padOut :: readftOps ++ rest) (p := p) (i := i) idle hlen hsize hbytes
  have hpad : HostReads s ⟨rd .padOut :: readftOps ++ rest, s.outLen, i⟩ [s.padOut.setWidth 32]
      ⟨readftOps ++ rest, s.outLen, i⟩ := hostReads_read idle fun _ _ => rfl
  exact hout.trans (hpad.trans (hostReads_readft idle hcount htable))

/-- Settles O58: the host's reads return the container's parts in order, and each field of the bytes lies where the ones before
it end. -/
theorem containerRoundTrip : Obligations.ContainerRoundTrip := by
  refine ⟨fun s c rest idle hq hsize hc => ?_, fun c hle => ?_⟩
  · obtain ⟨hcount, hlen, hpad, htable, hbytes⟩ := containerOf_eq_ok hc
    obtain ⟨k, w, hrun⟩ := hostReads_container (rest := rest) (p := s.obufPtr) (i := s.ftIndex) idle hsize hc s.hostReads
      s.engineWait
    rw [← hq] at hrun
    exact ⟨hcount, hlen, hpad, htable, hbytes, k, _, _, hrun, containerOfReads_readsOfContainer hlen hpad hcount, rfl⟩
  · refine ⟨c.parse_serialize hle, c.serialize_length, fun j hj => ?_, fun i hi => c.serialize_entry hi, fun j hj => ?_, ?_⟩
    · rw [c.serialize_eq, List.getElem?_append_left (by rwa [leBytes_length]), leBytes_getElem? hj]
    · rw [getElem?_of_drop_eq c.drop_serialize_table hj, ofNat_div_eq_extractLsb']
    · rw [← c.drop_serialize_padding, Nat.add_right_comm]

end Sys2Proof.Machine
end

section
/-! PROOFS. The decoder: which words have each of its outcomes. -/

namespace Sys2Proof

open Machine (eq_encode_of_decode decode_encode)

/-! ### The opcode map -/

/-- Every command but COUNT is on every block (30_encoding R124, R126). -/
theorem Instr.wf_iff {p : Params} {i : Instr} : i.wf p = true ↔ (i = .count → p.hasCounter = true) := by
  cases i <;> simp [Instr.wf]

/-- The opcodes of no command are the reserved ones (30_encoding R128). -/
theorem opcodeMap_eq_none {op : Byte} :
    opcodeMap op = none ↔ (0x06 ≤ op.toNat ∧ op.toNat ≤ 0x0E) ∨ 0x10 ≤ op.toNat := by
  unfold opcodeMap
  split
  case h_8 =>
    simp only [imp_false, true_iff] at *
    omega
  all_goals
    simp only [reduceCtorEq, false_iff]
    omega

/-- A word is a command's by its two fields (30_encoding R121, R124). -/
theorem eq_encode_iff {w : Word} {i : Instr} : w = encode i ↔ reservedOf w = 0 ∧ opcodeMap (opcodeOf w) = some i := by
  constructor
  · rintro rfl
    simp
  · rintro ⟨hr, ho⟩
    apply BitVec.eq_of_toNat_eq
    rw [word_fields w, word_fields (encode i), hr, opcodeMap_eq_some.mp ho, reservedOf_encode, opcodeOf_encode]

/-! ### The outcomes -/

/-- Decoding gives the commands that exist on the block, each for its own word (30_encoding R125). -/
theorem decode_eq_ok {p : Params} {w : Word} {i : Instr} : decode p w = .ok i ↔ i.wf p = true ∧ w = encode i := by
  constructor
  · intro h
    obtain rfl := eq_encode_of_decode h
    cases hwf : i.wf p with
    | true => exact ⟨rfl, rfl⟩
    | false => simp [decode, hwf] at h
  · rintro ⟨hwf, rfl⟩
    exact decode_encode hwf

/-- Decoding rejects a word for the first of three reasons that applies, the last COUNT's alone (30_encoding R125 to R128). -/
theorem decode_eq_error {p : Params} {w : Word} {e : IllegalWord} :
    decode p w = .error e ↔
      (e = .reservedBits ∧ reservedOf w ≠ 0) ∨
      (e = .reservedOpcode ∧ reservedOf w = 0 ∧ opcodeMap (opcodeOf w) = none) ∨
      (e = .noCounter ∧ w = encode .count ∧ p.hasCounter = false) := by
  constructor
  · intro h
    unfold decode at h
    split at h
    · next hr =>
      cases h
      exact .inl ⟨rfl, hr⟩
    · next hr =>
      split at h
      · next ho =>
        cases h
        exact .inr (.inl ⟨rfl, not_not.mp hr, ho⟩)
      · next i ho =>
        split at h
        · cases h
        · next hwf =>
          cases h
          rw [Instr.wf_iff, Classical.not_imp, Bool.not_eq_true] at hwf
          obtain ⟨rfl, hc⟩ := hwf
          exact .inr (.inr ⟨rfl, eq_encode_iff.mpr ⟨not_not.mp hr, ho⟩, hc⟩)
  · rintro (⟨rfl, hr⟩ | ⟨rfl, hr, ho⟩ | ⟨rfl, rfl, hc⟩)
    · exact if_pos hr
    · simp [decode, hr, ho]
    · simp [decode, Instr.wf, hc]

/-- Settles O1: the accepted words by `decode_eq_ok`, the rejected ones by `decode_eq_error`. -/
theorem decoderReadsExactlyTheOpcodeMap : Obligations.DecoderReadsExactlyTheOpcodeMap := by
  refine ⟨⟨rfl, rfl, rfl, rfl, rfl, rfl, rfl⟩, fun p w => ⟨fun i => ?_, ?_, ?_, ?_⟩⟩
  · rw [decode_eq_ok, Instr.wf_iff]
  · simp [decode_eq_error, reservedOf]
  · simp [decode_eq_error, show encode .count = 1 from rfl]
  · simp [decode_eq_error, opcodeMap_eq_none, reservedOf, opcodeOf]

/-! ### The opcode table -/

/-- Each command's word is a row of the table, since the default block has a counter (30_encoding R124). -/
theorem decodeTableWord_encode (i : Instr) : decodeTableWord 32 (encode i).toNat = some i := by
  have hwf : i.wf Params.default = true := Instr.wf_iff.mpr fun _ => rfl
  rw [decodeTableWord, if_pos (encode i).isLt, BitVec.ofNat_toNat, BitVec.setWidth_eq, decode_encode hwf]
  rfl

/-- Settles O2: seven of the words are the commands' words, and 0x00000107 has a reserved bit set (30_encoding R127). -/
theorem tableWordsDecode : Obligations.TableWordsDecode := by
  have hrej : decode Params.default (BitVec.ofNat 32 0x107) = .error .reservedBits :=
    decode_eq_error.mpr (.inl ⟨rfl, by decide⟩)
  refine ⟨decodeTableWord_encode .nop, decodeTableWord_encode .count, decodeTableWord_encode .build,
    decodeTableWord_encode .genCodes, decodeTableWord_encode .pack, decodeTableWord_encode .decode,
    decodeTableWord_encode .softReset, ?_⟩
  rw [decodeTableWord, if_pos (by decide), hrej]
  rfl

end Sys2Proof
end

section
/-! PROOFS. The frequency counter: which entries COUNT makes of its input, where FTAB holds them, and how the command ends. -/

namespace Sys2Proof.Machine

/-! ### The entries -/

/-- The entries are those of the byte values that occur, each with its number of occurrences (40_frequency_counter R152). -/
theorem mem_countEntries {bytes : List Byte} {e : FtabEntry} :
    e ∈ countEntries bytes ↔ e.sym ∈ bytes ∧ e.freq = BitVec.ofNat 32 (bytes.count e.sym) := by
  rw [countEntries, List.mem_filterMap, ← List.count_pos_iff]
  constructor
  · rintro ⟨k, -, he⟩
    obtain ⟨-, hfreq, hpos⟩ := countEntry_sym he
    exact ⟨hpos, hfreq⟩
  · rintro ⟨hpos, hfreq⟩
    refine ⟨e.sym.toNat, List.mem_range.mpr e.sym.isLt, ?_⟩
    simp [countEntry, hpos, ← hfreq]

/-- The symbols that have an entry are the byte values that occur (R152). -/
theorem mem_countEntries_sym {bytes : List Byte} {b : Byte} : b ∈ (countEntries bytes).map FtabEntry.sym ↔ b ∈ bytes := by
  rw [List.mem_map]
  constructor
  · rintro ⟨e, he, rfl⟩
    exact (mem_countEntries.mp he).1
  · intro hb
    exact ⟨⟨b, BitVec.ofNat 32 (bytes.count b)⟩, mem_countEntries.mpr ⟨hb, rfl⟩, rfl⟩

/-- The entries come in ascending order of their symbols, so no symbol comes twice (R152, R154). -/
theorem countEntries_ascending (bytes : List Byte) :
    ((countEntries bytes).map FtabEntry.sym).Pairwise fun a b => a.toNat < b.toNat := by
  have hrange : (List.range Config.nsym).Pairwise fun j k => j < k ∧ k < Config.nsym :=
    List.pairwise_lt_range.imp_of_mem fun _ hk hlt => ⟨hlt, List.mem_range.mp hk⟩
  refine List.pairwise_map.mpr (List.pairwise_filterMap.mpr (hrange.imp ?_))
  rintro j k ⟨hlt, hk⟩ a ha b hb
  rw [Config.nsym] at hk
  rw [(countEntry_sym ha).1, (countEntry_sym hb).1, BitVec.toNat_ofNat, BitVec.toNat_ofNat]
  omega

/-- A count of at most 2^32 - 1 bytes is exact (R153). -/
theorem countEntries_freq {bytes : List Byte} (hlen : bytes.length < 2 ^ 32) {e : FtabEntry} (he : e ∈ countEntries bytes) :
    e.freq.toNat = bytes.count e.sym := by
  rw [(mem_countEntries.mp he).2, BitVec.toNat_ofNat]
  exact Nat.mod_eq_of_lt (List.count_le_length.trans_lt hlen)

/-- FT_COUNT holds the number of entries without loss, 256 included (R152). -/
theorem countEntries_length_ofNat (bytes : List Byte) :
    (BitVec.ofNat 9 (countEntries bytes).length).toNat = (countEntries bytes).length := by
  have := countEntries_length_le bytes
  rw [BitVec.toNat_ofNat]
  omega

/-! ### The table -/

/-- FTAB starts with the entries, in order (R152). -/
theorem countTable_entry {bytes : List Byte} {i : Nat} (hi : i < (countEntries bytes).length) :
    (countTable bytes)[i]? = some (some (countEntries bytes)[i]) := by
  have := countEntries_length_le bytes
  rw [Vector.getElem?_eq_getElem (by omega), countTable, overwrite_getElem, dif_pos (by simpa using hi), List.getElem_map]

/-- FTAB holds (0, 0) beyond the entries (R152). -/
theorem countTable_beyond {bytes : List Byte} {i : Nat} (hi : (countEntries bytes).length ≤ i) (hlt : i < 256) :
    (countTable bytes)[i]? = some (some { sym := 0, freq := 0 }) := by
  rw [Vector.getElem?_eq_getElem hlt, countTable, overwrite_getElem, dif_neg (by simpa using hi), Vector.getElem_replicate]

/-! ### The command -/

/-- `s` after COUNT of `bytes` (R152). -/
def afterCount (bytes : List Byte) (s : State) : State :=
  complete (invalidateTree { s with
    ftab := countTable bytes, ftCount := BitVec.ofNat 9 (countEntries bytes).length, ftIndex := 0 })

theorem exec_count_of_holdsInput {s : State} {bytes : List Byte} (hcounter : s.params.hasCounter = true)
    (hlen : s.inLen.toNat ≤ s.params.ibufSize) (hin : HoldsInput s bytes) :
    exec .count s = .next (afterCount bytes s) := by
  rw [exec, execCount, if_pos hcounter, countBody_eq_ok.mpr ⟨hlen, bytes, hin, rfl⟩, finishCommand_ok, afterCount]

/-- The table in use after COUNT is that of the input's entries (R152). -/
theorem holdsTable_afterCount (bytes : List Byte) (s : State) : HoldsTable (afterCount bytes s) (countEntries bytes) := by
  refine ⟨countEntries_length_ofNat bytes, fun i hi => ?_⟩
  rw [show (afterCount bytes s).ftab = countTable bytes from rfl, countTable_entry hi, Option.join_some]

/-- Settles O34: COUNT installs the table of the input's entries, and the counts are exact since IN_LEN is a word. -/
theorem countCompletes : Obligations.CountCompletes := by
  intro s bytes _ hcounter hlen hin
  have hword : bytes.length < 2 ^ 32 := hin.1 ▸ s.inLen.isLt
  exact ⟨afterCount bytes s, countEntries bytes, exec_count_of_holdsInput hcounter hlen hin, rfl,
    holdsTable_afterCount bytes s, fun _ hi hlt => countTable_beyond hi hlt, countEntries_ascending bytes,
    fun _ => mem_countEntries_sym, fun _ he => countEntries_freq hword he, fun _ => ⟨rfl, rfl⟩⟩

/-- Settles O35: the length check comes before anything is read, and R285 adds nothing for COUNT. -/
theorem countRejectsALongInput : Obligations.CountRejectsALongInput := by
  intro s hcounter hlong
  rw [exec, execCount, if_pos hcounter, countBody_eq_cmdError.mpr ⟨hlong, rfl⟩]
  rfl

end Sys2Proof.Machine
end

section
/-! PROOFS. The merge loop of BUILD: LIVE lists the keys of the nodes that no pass has removed, so each pass makes the node that
41_tree_builder R174 asks for, and the frequencies in LIVE keep their sum (R178). `nodes` is the arena BUILD ends with; the
forest after each pass is a first part of it. -/

namespace Sys2Proof.Machine

variable {nodes : Nat → Node} {es : List FtabEntry}

/-! ### LIVE as a set of arena indices -/

/-- `l` lists the keys (41_tree_builder R175) of the nodes whose arena index is in `live`, each once. -/
structure ListsKeys (nodes : Nat → Node) (live : Nat → Prop) (l : List Key) : Prop where
  nodup : l.Nodup
  mem : ∀ x, x ∈ l ↔ live x.index ∧ x.freq = (nodes x.index).freq

/-- Two keys of one arena with the same index are the same (41_tree_builder R175). -/
theorem Key.eq_of_index {x y : Key} (hx : x.freq = (nodes x.index).freq) (hy : y.freq = (nodes y.index).freq)
    (h : x.index = y.index) : x = y := by
  have hfreq : x.freq = y.freq := by rw [hx, hy, h]
  calc x = ⟨x.freq, x.index⟩ := rfl
    _ = y := by rw [hfreq, h]

theorem ListsKeys.congr {live live' : Nat → Prop} {l : List Key} (hl : ListsKeys nodes live l)
    (h : ∀ j, live j ↔ live' j) : ListsKeys nodes live' l :=
  ⟨hl.nodup, fun x => by rw [hl.mem, h]⟩

/-- The key taken is that of the lowest node in LIVE, and the others stay (41_tree_builder R174, R175). -/
theorem ListsKeys.takeMin {live : Nat → Prop} {l rest : List Key} {m : Key} (hl : ListsKeys nodes live l)
    (h : takeMin l = some (m, rest)) :
    (live m.index ∧ m.freq = (nodes m.index).freq) ∧ (∀ j, live j → j ≠ m.index → KeyBefore nodes m.index j) ∧
      ListsKeys nodes (fun j => live j ∧ j ≠ m.index) rest := by
  have hperm := takeMin_perm h
  obtain ⟨hm, hrest⟩ := List.nodup_cons.mp (hperm.nodup_iff.mp hl.nodup)
  have hmem : live m.index ∧ m.freq = (nodes m.index).freq :=
    (hl.mem m).mp (hperm.mem_iff.mpr List.mem_cons_self)
  have hothers : ∀ x, x ∈ rest ↔ (live x.index ∧ x.index ≠ m.index) ∧ x.freq = (nodes x.index).freq := by
    intro x
    have hx := hl.mem x
    rw [hperm.mem_iff, List.mem_cons] at hx
    constructor
    · intro hin
      obtain ⟨hlive, hfreq⟩ := hx.mp (.inr hin)
      exact ⟨⟨hlive, fun hi => hm (Key.eq_of_index hfreq hmem.2 hi ▸ hin)⟩, hfreq⟩
    · rintro ⟨⟨hlive, hi⟩, hfreq⟩
      exact (hx.mpr ⟨hlive, hfreq⟩).resolve_left fun heq => hi (heq ▸ rfl)
  refine ⟨hmem, fun j hj hne => ?_, hrest, hothers⟩
  have hbefore := takeMin_min h ⟨(nodes j).freq, j⟩ ((hothers _).mpr ⟨⟨hj, hne⟩, rfl⟩)
  rw [← Bool.not_eq_true, Key.before_iff, hmem.2] at hbefore
  rw [KeyBefore]
  simp only at hbefore
  omega

/-- LIVE with the node made last (41_tree_builder R174). -/
theorem ListsKeys.append {live : Nat → Prop} {l : List Key} (hl : ListsKeys nodes live l) {x : Key}
    (hx : ¬ live x.index) (hfreq : x.freq = (nodes x.index).freq) :
    ListsKeys nodes (fun j => live j ∨ j = x.index) (l ++ [x]) where
  nodup := by
    refine List.nodup_append.mpr ⟨hl.nodup, List.nodup_singleton x, fun y hy z hz => ?_⟩
    rw [List.mem_singleton.mp hz]
    rintro rfl
    exact hx ((hl.mem y).mp hy).1
  mem y := by
    rw [List.mem_append, List.mem_singleton, hl.mem]
    constructor
    · rintro (⟨hlive, hf⟩ | rfl)
      · exact ⟨.inl hlive, hf⟩
      · exact ⟨.inr rfl, hfreq⟩
    · rintro ⟨hlive | hi, hf⟩
      · exact .inl ⟨hlive, hf⟩
      · exact .inr (Key.eq_of_index hf hfreq hi)

/-! ### What a pass makes -/

/-- Internal node `k` of a tree over `n` leaves is over the two lowest members of LIVE (41_tree_builder R174). -/
structure MergedAt (nodes : Nat → Node) (n k : Nat) : Prop where
  sum : (nodes k).leaf = false ∧ (nodes k).sym = 0 ∧
    (nodes k).freq.toNat = (nodes (nodes k).left.toNat).freq.toNat + (nodes (nodes k).right.toNat).freq.toNat
  first : LiveAt nodes n k (nodes k).left.toNat ∧
    ∀ j, LiveAt nodes n k j → j ≠ (nodes k).left.toNat → KeyBefore nodes (nodes k).left.toNat j
  second : LiveAt nodes n k (nodes k).right.toNat ∧ (nodes k).right ≠ (nodes k).left ∧
    ∀ j, LiveAt nodes n k j → j ≠ (nodes k).left.toNat → j ≠ (nodes k).right.toNat →
      KeyBefore nodes (nodes k).right.toNat j

/-- The pass that makes node `k` removes its two children from LIVE and adds `k` (41_tree_builder R174). -/
theorem liveAt_succ_iff {n k j : Nat} (hk : n ≤ k) (hmerged : ∀ i, n ≤ i → i ≤ k → MergedAt nodes n i) :
    LiveAt nodes n (k + 1) j ↔
      ((LiveAt nodes n k j ∧ j ≠ (nodes k).left.toNat) ∧ j ≠ (nodes k).right.toNat) ∨ j = k := by
  constructor
  · rintro ⟨hj, hkept⟩
    rcases Nat.eq_or_lt_of_le (Nat.le_of_lt_succ hj) with rfl | hlt
    · exact .inr rfl
    · obtain ⟨hleft, hright⟩ := hkept k hk (Nat.lt_succ_self k)
      exact .inl ⟨⟨⟨hlt, fun i hi hik => hkept i hi (by omega)⟩, hleft.symm⟩, hright.symm⟩
  · rintro (⟨⟨⟨hj, hkept⟩, hleft⟩, hright⟩ | rfl)
    · refine ⟨by omega, fun i hi hik => ?_⟩
      rcases Nat.eq_or_lt_of_le (Nat.le_of_lt_succ hik) with rfl | hlt
      · exact ⟨hleft.symm, hright.symm⟩
      · exact hkept i hi hlt
    · refine ⟨Nat.lt_succ_self j, fun i hi hij => ?_⟩
      have hm := hmerged i hi (by omega)
      have hleft := hm.first.1.1
      have hright := hm.second.1.1
      omega

/-- The node over the two keys taken is the one R174 asks for, when its frequency and its children fit their fields. -/
theorem mergedAt_of_takeMin {n k : Nat} {l rest others : List Key} {a b : Key} (hlive : ListsKeys nodes (LiveAt nodes n k) l)
    (ha : takeMin l = some (a, rest)) (hb : takeMin rest = some (b, others)) (hnode : nodes k = internalNode a b)
    (hk : k < 512) (hfits : a.freq.toNat + b.freq.toNat < 2 ^ 40) :
    MergedAt nodes n k ∧ ListsKeys nodes
      (fun j => (LiveAt nodes n k j ∧ j ≠ (nodes k).left.toNat) ∧ j ≠ (nodes k).right.toNat) others := by
  obtain ⟨⟨hlivea, hfreqa⟩, hmina, hrest⟩ := hlive.takeMin ha
  obtain ⟨⟨⟨hliveb, hne⟩, hfreqb⟩, hminb, hothers⟩ := hrest.takeMin hb
  have hleft : (nodes k).left.toNat = a.index := by
    rw [hnode, internalNode, BitVec.toNat_ofNat, Nat.mod_eq_of_lt (by have := hlivea.1; omega)]
  have hright : (nodes k).right.toNat = b.index := by
    rw [hnode, internalNode, BitVec.toNat_ofNat, Nat.mod_eq_of_lt (by have := hliveb.1; omega)]
  have hdistinct : (nodes k).right ≠ (nodes k).left := fun h => hne (by rw [← hleft, ← hright, h])
  have hsum : (nodes k).freq.toNat = a.freq.toNat + b.freq.toNat := by
    rw [hnode, internalNode, BitVec.toNat_add_of_lt hfits]
  refine ⟨⟨⟨by rw [hnode]; rfl, by rw [hnode]; rfl, ?_⟩, ?_, ?_⟩, ?_⟩
  · rw [hsum, hleft, hright, hfreqa, hfreqb]
  · rw [hleft]
    exact ⟨hlivea, hmina⟩
  · rw [hleft, hright]
    exact ⟨hliveb, hdistinct, fun j hj hja => hminb j ⟨hj, hja⟩⟩
  · rw [hleft, hright]
    exact hothers

/-! ### The frequencies of a table -/

/-- The sum of the table's frequencies (41_tree_builder R178). -/
def totalFreq (es : List FtabEntry) : Nat := (es.map fun e => e.freq.toNat).sum

theorem freq_le_totalFreq {e : FtabEntry} (he : e ∈ es) : e.freq.toNat ≤ totalFreq es :=
  List.le_sum_of_mem (List.mem_map.mpr ⟨e, he, rfl⟩)

/-- At most 256 frequencies below 2^31 sum to less than 2^39 (41_tree_builder R178). -/
theorem totalFreq_lt (h : GoodTable es) : totalFreq es < 2 ^ 39 := by
  obtain ⟨-, hlen, hfreq, -⟩ := h
  have hsum : totalFreq es ≤ (es.map fun e => e.freq.toNat).length • (2 ^ 31 - 1) := by
    refine List.sum_le_card_nsmul _ _ fun x hx => ?_
    obtain ⟨e, he, rfl⟩ := List.mem_map.mp hx
    have := hfreq e he
    omega
  rw [List.length_map, smul_eq_mul] at hsum
  omega

/-! ### The invariant of the merge loop -/

/-- The nodes of the forest are the first ones of the arena. -/
def ArenaOf (nodes : Nat → Node) (f : Forest) : Prop := ∀ k (h : k < f.nodes.length), nodes k = f.nodes[k]

/-- The forest after some passes over the table `es`: LIVE lists what no pass has removed, each internal node is the one R174
asks for, and the frequencies in LIVE sum to the table's total, which bounds every frequency (R178). -/
structure Built (nodes : Nat → Node) (es : List FtabEntry) (f : Forest) : Prop where
  sizes : f.nodes.length + f.live.length = 2 * es.length
  seeded : es.length ≤ f.nodes.length
  live : ListsKeys nodes (LiveAt nodes es.length f.nodes.length) f.live
  merged : ∀ k, es.length ≤ k → k < f.nodes.length → MergedAt nodes es.length k
  total : (f.live.map fun x => x.freq.toNat).sum = totalFreq es
  bounded : ∀ k, k < f.nodes.length → (nodes k).freq.toNat ≤ totalFreq es

/-- The arena of a later forest holds the nodes of an earlier one (41_tree_builder R174). -/
theorem ArenaOf.of_append {f g : Forest} (h : ArenaOf nodes g) (hmore : ∃ more, g.nodes = f.nodes ++ more) :
    ArenaOf nodes f := by
  obtain ⟨more, hmore⟩ := hmore
  intro k hk
  rw [h k (by rw [hmore, List.length_append]; omega), List.getElem_of_eq hmore, List.getElem_append_left hk]

/-- Seeding makes one leaf per entry (41_tree_builder R173). -/
theorem ArenaOf.leaf (h : ArenaOf nodes (seed es)) {i : Nat} (hi : i < es.length) : nodes i = leafNode es[i] := by
  rw [h i (by simpa [seed] using hi)]
  simp [seed]

theorem leafNode_freq (e : FtabEntry) : (leafNode e).freq.toNat = e.freq.toNat := BitVec.toNat_setWidth_of_le (by omega)

/-- After seeding every leaf is in LIVE (41_tree_builder R173). -/
theorem built_seed (h : ArenaOf nodes (seed es)) : Built nodes es (seed es) := by
  have hnodes : (seed es).nodes.length = es.length := by simp [seed]
  have hlive : (seed es).live.length = es.length := by simp [seed]
  refine ⟨by omega, by omega, ⟨?_, fun x => ?_⟩, fun k hk hlt => by omega, ?_, fun k hk => ?_⟩
  · refine List.Nodup.of_map Key.index ?_
    have : (seed es).live.map Key.index = List.range es.length := by
      apply List.ext_getElem <;> simp [seed]
    exact this ▸ List.nodup_range
  · rw [hnodes]
    simp only [seed, List.mem_mapIdx]
    constructor
    · rintro ⟨i, hi, rfl⟩
      exact ⟨⟨hi, fun j hj hji => by omega⟩, by rw [h.leaf hi, leafNode]⟩
    · rintro ⟨⟨hi, -⟩, hfreq⟩
      rw [h.leaf hi] at hfreq
      exact ⟨x.index, hi, congrArg (Key.mk · x.index) hfreq.symm⟩
  · rw [totalFreq]
    congr 1
    refine List.ext_getElem (by simp [seed]) fun i h1 h2 => ?_
    simp only [seed, List.getElem_map, List.getElem_mapIdx]
    exact leafNode_freq _
  · rw [hnodes] at hk
    rw [h.leaf hk, leafNode_freq]
    exact freq_le_totalFreq (List.getElem_mem hk)

/-- A pass with at least two members in LIVE keeps the invariant (41_tree_builder R174). -/
theorem Built.mergePass {f : Forest} (hf : Built nodes es f) (hgood : GoodTable es) (htwo : 2 ≤ f.live.length)
    (harena : ArenaOf nodes (mergePass f)) : Built nodes es (mergePass f) := by
  obtain ⟨a, b, rest, others, ha, hb, hpass⟩ := mergePass_two htwo
  have hsum : a.freq.toNat + (b.freq.toNat + (others.map fun x => x.freq.toNat).sum) = totalFreq es := by
    have hperm := (takeMin_perm ha).trans ((takeMin_perm hb).cons a)
    rw [← hf.total, (hperm.map _).sum_eq, List.map_cons, List.map_cons, List.sum_cons, List.sum_cons]
  have hlt := totalFreq_lt hgood
  have hlen := hgood.2.1
  have hsizes := hf.sizes
  have hseeded := hf.seeded
  rw [hpass] at harena ⊢
  have hnode : nodes f.nodes.length = internalNode a b := by simpa using harena f.nodes.length (by simp)
  obtain ⟨hnew, hothers⟩ := mergedAt_of_takeMin hf.live ha hb hnode (by omega) (by omega)
  have hfreq : (a.freq + b.freq).toNat = a.freq.toNat + b.freq.toNat := BitVec.toNat_add_of_lt (by omega)
  have hmerged : ∀ k, es.length ≤ k → k ≤ f.nodes.length → MergedAt nodes es.length k := by
    intro k hk hle
    rcases Nat.eq_or_lt_of_le hle with rfl | hlt
    · exact hnew
    · exact hf.merged k hk hlt
  have hmore : (f.nodes ++ [internalNode a b]).length = f.nodes.length + 1 := List.length_append
  refine ⟨?_, hmore ▸ Nat.le_succ_of_le hseeded, ?_,
    fun k hk hlt => hmerged k hk (Nat.le_of_lt_succ (Nat.lt_of_lt_of_eq hlt hmore)), ?_, fun k hk => ?_⟩
  · have := takeMin_length ha
    have := takeMin_length hb
    rw [hmore, List.length_append, List.length_singleton]
    omega
  · rw [hmore]
    refine (hothers.append (x := ⟨a.freq + b.freq, f.nodes.length⟩) (fun h => ?_) ?_).congr fun j =>
      (liveAt_succ_iff hf.seeded hmerged).symm
    · exact Nat.lt_irrefl _ h.1.1.1
    · rw [hnode, internalNode]
  · rw [List.map_append, List.sum_append, List.map_singleton, List.sum_singleton, hfreq]
    omega
  · rw [hmore] at hk
    rcases Nat.eq_or_lt_of_le (Nat.le_of_lt_succ hk) with rfl | hlt
    · rw [hnode, internalNode, hfreq]
      omega
    · exact hf.bounded k hlt

theorem Built.mergePasses {m : Nat} {f : Forest} (hf : Built nodes es f) (hgood : GoodTable es)
    (hlive : m + 1 ≤ f.live.length) (harena : ArenaOf nodes (mergePasses m f)) : Built nodes es (mergePasses m f) := by
  induction m generalizing f with
  | zero => exact hf
  | succ m ih =>
    have hpass := mergePass_lengths (f := f) (by omega)
    exact ih (hf.mergePass hgood (by omega) (harena.of_append (mergePasses_nodes m _))) (by omega) harena

/-- The whole construction (41_tree_builder R173, R174). -/
theorem built_buildForest (hgood : GoodTable es) (harena : ArenaOf nodes (buildForest es)) :
    Built nodes es (buildForest es) := by
  have hseed : ArenaOf nodes (seed es) := harena.of_append (mergePasses_nodes _ _)
  have hlen := hgood.1
  exact (built_seed hseed).mergePasses hgood (by simp [seed]; omega) harena

end Sys2Proof.Machine
end

section
/-! PROOFS. The current tree: what the invariant says of the arena, ROOT and NODE_COUNT, and the shape and the frequencies that
follow (41_tree_builder R173 to R178). -/

namespace Sys2Proof.Machine

/-! ### The Huffman arena -/

section
variable {nodes : Nat → Node} {es : List FtabEntry}

/-- The forest of the whole construction is the arena of R173 to R175. -/
theorem huffmanArena_of_arenaOf (hgood : GoodTable es) (harena : ArenaOf nodes (buildForest es)) :
    HuffmanArena nodes es := by
  have hbuilt := built_buildForest hgood harena
  have hlen := (buildForest_lengths hgood.1).1
  have hmerged : ∀ k, es.length ≤ k → k < 2 * es.length - 1 → MergedAt nodes es.length k :=
    fun k hk hlt => hbuilt.merged k hk (hlen ▸ hlt)
  refine ⟨fun i hi => ?_, fun k hk hlt => (hmerged k hk hlt).sum, fun k hk hlt => (hmerged k hk hlt).first,
    fun k hk hlt => (hmerged k hk hlt).second⟩
  rw [(harena.of_append (mergePasses_nodes _ _)).leaf hi]
  exact ⟨rfl, rfl, leafNode_freq _, rfl, rfl⟩

/-- After the last pass only node 2n - 2 is in LIVE, and its frequency is the table's total (41_tree_builder R176, R178). -/
theorem Built.root (hgood : GoodTable es) (hbuilt : Built nodes es (buildForest es)) :
    rootIndex (buildForest es) = 2 * es.length - 2 ∧ (nodes (2 * es.length - 2)).freq.toNat = totalFreq es ∧
      ∀ j, LiveAt nodes es.length (2 * es.length - 1) j → j = 2 * es.length - 2 := by
  obtain ⟨hnodes, hone⟩ := buildForest_lengths hgood.1
  obtain ⟨r, hr⟩ := List.length_eq_one_iff.mp hone
  have hlive := hbuilt.live
  have htotal := hbuilt.total
  rw [hr, hnodes] at hlive
  have honly : ∀ j, LiveAt nodes es.length (2 * es.length - 1) j → j = r.index := fun j hj =>
    congrArg Key.index (List.mem_singleton.mp ((hlive.mem ⟨(nodes j).freq, j⟩).mpr ⟨hj, rfl⟩))
  have hlast : LiveAt nodes es.length (2 * es.length - 1) (2 * es.length - 2) := by
    have hpos := hgood.1
    refine ⟨by omega, fun i hi hlt => ?_⟩
    have hm := hbuilt.merged i hi (hnodes ▸ hlt)
    have hleft := hm.first.1.1
    have hright := hm.second.1.1
    omega
  have hroot : 2 * es.length - 2 = r.index := honly _ hlast
  refine ⟨by rw [rootIndex, hr, hroot]; rfl, ?_, fun j hj => hroot ▸ honly j hj⟩
  rw [hroot, ← ((hlive.mem r).mp List.mem_cons_self).2, ← htotal, hr]
  simp

end

/-! ### The tree of a state -/

theorem nodeAt_eq_getElem (s : State) {k : Nat} (hk : k < 511) : nodeAt s k = s.node[k] := by
  simp [nodeAt, hk]

/-- The arena of a table fits NODE (41_tree_builder R176, R181). -/
theorem buildForest_nodes_length_le {es : List FtabEntry} (hgood : GoodTable es) : (buildForest es).nodes.length ≤ 511 := by
  have := (buildForest_lengths hgood.1).1
  have := hgood.2.1
  omega

/-- Two tables that FTAB holds are the same (10_state R44). -/
theorem HoldsTable.unique {s : State} {es es' : List FtabEntry} (h : HoldsTable s es) (h' : HoldsTable s es') : es = es' := by
  refine List.ext_getElem (h.1.symm.trans h'.1) fun i hi hi' => ?_
  exact Option.some.inj ((h.2 i hi).symm.trans (h'.2 i hi'))

/-- A valid tree is the one of the table FTAB holds (10_state R43). -/
theorem Inv.treeOf {s : State} {es : List FtabEntry} (hinv : Inv s) (hvalid : s.treeValid = true) (htable : HoldsTable s es) :
    TreeOf s es := by
  obtain ⟨es', htree⟩ := hinv.tree hvalid
  rwa [htable.unique (checkedTable_eq_ok.mp htree.table).1]

section
variable {s : State} {es : List FtabEntry} (htree : TreeOf s es)
include htree

theorem TreeOf.goodTable : GoodTable es := (checkedTable_eq_ok.mp htree.table).2

theorem TreeOf.arenaOf : ArenaOf (nodeAt s) (buildForest es) := by
  intro k hk
  have hlt : k < 511 := Nat.lt_of_lt_of_le hk (buildForest_nodes_length_le htree.goodTable)
  rw [nodeAt_eq_getElem s hlt, ← htree.nodes, overwrite_getElem, dif_pos hk]

theorem TreeOf.huffmanArena : HuffmanArena (nodeAt s) es := huffmanArena_of_arenaOf htree.goodTable htree.arenaOf

theorem TreeOf.built : Built (nodeAt s) es (buildForest es) := built_buildForest htree.goodTable htree.arenaOf

theorem TreeOf.root_toNat : s.root.toNat = 2 * es.length - 2 := by
  have hlen := htree.goodTable.2.1
  rw [htree.root, (htree.built.root htree.goodTable).1, BitVec.toNat_ofNat, Nat.mod_eq_of_lt (by omega)]

theorem TreeOf.nodeCount_toNat : s.nodeCount.toNat = 2 * es.length - 1 := by
  have hlen := htree.goodTable.2.1
  rw [htree.nodeCount, BitVec.toNat_ofNat, Nat.mod_eq_of_lt (by omega)]

end

/-! ### BUILD of a good table -/

theorem execBuild_of_goodTable {s : State} {es : List FtabEntry} (htable : HoldsTable s es) (hgood : GoodTable es) :
    exec .build s = .next (complete (installTree es s)) := by
  rw [exec, execBuild, buildBody_eq_ok.mpr ⟨es, ⟨htable, hgood⟩, rfl⟩, finishCommand_ok]

/-- `complete()` changes nothing of the tree (60_exceptions R284). -/
theorem TreeOf.complete {s : State} {es : List FtabEntry} (h : TreeOf s es) : TreeOf (complete s) es :=
  ⟨(checkedTable_congr (s := s) (t := Machine.complete s) rfl rfl).trans h.table, h.nodes, h.root, h.nodeCount, h.singleLeaf⟩

theorem treeOf_complete_installTree {s : State} {es : List FtabEntry} (htable : HoldsTable s es) (hgood : GoodTable es) :
    TreeOf (complete (installTree es s)) es :=
  (installTree_treeOf (checkedTable_eq_ok.mpr ⟨htable, hgood⟩)).complete

/-- BUILD leaves the nodes after its own alone (41_tree_builder R181). -/
theorem nodeAt_installTree_beyond (s : State) {es : List FtabEntry} {k : Nat} (hk : (buildForest es).nodes.length ≤ k)
    (hlt : k < 511) : nodeAt (complete (installTree es s)) k = nodeAt s k := by
  rw [nodeAt_eq_getElem _ hlt, nodeAt_eq_getElem _ hlt]
  show (overwrite s.node _)[k] = _
  rw [overwrite_getElem, dif_neg (by omega)]

/-- Settles O37: the arena is that of the merge loop's invariant after the last pass. -/
theorem buildMakesTheHuffmanTree : Obligations.BuildMakesTheHuffmanTree := by
  intro s es htable hgood
  have htree := treeOf_complete_installTree htable hgood
  have hlen := (buildForest_lengths hgood.1).1
  exact ⟨complete (installTree es s), execBuild_of_goodTable htable hgood, rfl, htree.huffmanArena, htree.root_toNat,
    htree.nodeCount_toNat, fun k hk hlt => nodeAt_installTree_beyond s (hlen ▸ hk) hlt, fun _ => ⟨rfl, rfl⟩⟩

/-- Settles O39: both trees are installed from the same forest. -/
theorem buildDependsOnTheTableAlone : Obligations.BuildDependsOnTheTableAlone := by
  intro s s' es htable htable' hgood
  have htree := treeOf_complete_installTree htable hgood
  have htree' := treeOf_complete_installTree htable' hgood
  refine ⟨_, _, execBuild_of_goodTable htable hgood, execBuild_of_goodTable htable' hgood, rfl, rfl, fun k hk => ?_⟩
  rw [← (buildForest_lengths hgood.1).1] at hk
  rw [htree.arenaOf k hk, htree'.arenaOf k hk]

/-! ### The shape of the tree -/

section
variable {nodes : Nat → Node} {es : List FtabEntry}

/-- A node is a child of at most one internal node, since the pass that makes that one removes it from LIVE
(41_tree_builder R176). -/
theorem HuffmanArena.parent_unique (h : HuffmanArena nodes es) {j k k' : Nat} (hk : es.length ≤ k)
    (hklt : k < 2 * es.length - 1) (hchild : (nodes k).left.toNat = j ∨ (nodes k).right.toNat = j) (hk' : es.length ≤ k')
    (hklt' : k' < 2 * es.length - 1) (hchild' : (nodes k').left.toNat = j ∨ (nodes k').right.toNat = j) : k' = k := by
  have hlater : ∀ {x y}, es.length ≤ x → y < 2 * es.length - 1 → x < y →
      ((nodes x).left.toNat = j ∨ (nodes x).right.toNat = j) → ¬ ((nodes y).left.toNat = j ∨ (nodes y).right.toNat = j) := by
    intro x y hx hy hxy hc
    have hleft := (h.first y (by omega) hy).1.2 x hx hxy
    have hright := (h.second y (by omega) hy).1.2 x hx hxy
    omega
  rcases Nat.lt_trichotomy k' k with hlt | heq | hlt
  · exact absurd hchild (hlater hk' hklt hlt hchild')
  · exact heq
  · exact absurd hchild' (hlater hk hklt' hlt hchild)

/-- The left child's key is lower than the right child's (41_tree_builder R177). -/
theorem HuffmanArena.left_before_right (h : HuffmanArena nodes es) {k : Nat} (hk : es.length ≤ k)
    (hlt : k < 2 * es.length - 1) : KeyBefore nodes (nodes k).left.toNat (nodes k).right.toNat := by
  obtain ⟨hlive, hne, -⟩ := h.second k hk hlt
  exact (h.first k hk hlt).2 _ hlive fun heq => hne (BitVec.eq_of_toNat_eq heq)

/-- A node that no internal node has as a child is still in LIVE after the last pass, so it is the root
(41_tree_builder R176). -/
theorem Built.parent_exists (hgood : GoodTable es) (hbuilt : Built nodes es (buildForest es)) {j : Nat}
    (hj : j < 2 * es.length - 2) :
    ∃ k, es.length ≤ k ∧ k < 2 * es.length - 1 ∧ ((nodes k).left.toNat = j ∨ (nodes k).right.toNat = j) := by
  by_contra hnone
  push Not at hnone
  have := (hbuilt.root hgood).2.2 j ⟨by omega, hnone⟩
  omega

end

/-- The path to a leaf goes down through internal nodes of ever lower index, so it is no longer than the number of internal
nodes from its start down (41_tree_builder R176). -/
theorem HuffmanArena.path_length_le {s : State} {es : List FtabEntry} (h : HuffmanArena (nodeAt s) es) {p : BitString}
    {k : BitVec 9} {sym : Byte} (hk : k.toNat < 2 * es.length - 1) (hpath : leafAlong s k p = some sym) :
    p.length ≤ k.toNat + 1 - es.length := by
  induction p generalizing k with
  | nil => exact Nat.zero_le _
  | cons b p ih =>
    obtain ⟨n, hn, hrest⟩ := Option.bind_eq_some_iff.mp hpath
    have hnode : nodeAt s k.toNat = n := by rw [nodeAt, hn, Option.getD_some]
    split at hrest
    · cases hrest
    · rename_i hinternal
      have hle : es.length ≤ k.toNat := by
        by_contra hlt
        exact hinternal (hnode ▸ (h.leaves _ (by omega)).1)
      have hchild : (childOn n b).toNat < k.toNat := by
        cases b
        · exact hnode ▸ (h.first _ hle hk).1.1
        · exact hnode ▸ (h.second _ hle hk).1.1
      have := ih (by omega) hrest
      rw [List.length_cons]
      omega

/-- Settles O40: leaves and children by the arena, the one parent by LIVE, and the depth by the falling indices. -/
theorem treeShape : Obligations.TreeShape := by
  intro s es hinv hvalid htable
  have htree := hinv.treeOf hvalid htable
  have harena := htree.huffmanArena
  have hroot := htree.root_toNat
  obtain ⟨hpos, hlen, -⟩ := htree.goodTable
  refine ⟨hroot, htree.nodeCount_toNat, fun i hi => ?_, fun k hk hlt => ?_, fun j hj => ?_, fun p sym hpath => ?_, by omega⟩
  · obtain ⟨hleaf, hsym, -⟩ := harena.leaves i hi
    exact ⟨hleaf, hsym⟩
  · exact ⟨(harena.sums k hk hlt).1, (harena.first k hk hlt).1.1, (harena.second k hk hlt).1.1,
      harena.left_before_right hk hlt⟩
  · obtain ⟨k, hk, hlt, hchild⟩ := htree.built.parent_exists htree.goodTable hj
    exact ⟨k, ⟨hk, hlt, hchild⟩, fun k' hk' hlt' hchild' => harena.parent_unique hk hlt hchild hk' hlt' hchild'⟩
  · have := harena.path_length_le (by omega) hpath
    omega

/-- Settles O41: the root is alone in LIVE after the last pass, and the frequencies in LIVE keep their sum. -/
theorem rootFrequencyIsTheTotal : Obligations.RootFrequencyIsTheTotal := by
  intro s es hinv hvalid htable
  have htree := hinv.treeOf hvalid htable
  have hgood := htree.goodTable
  refine ⟨?_, fun k hk => ?_⟩
  · rw [htree.root_toNat]
    exact (htree.built.root hgood).2.1
  · rw [← (buildForest_lengths hgood.1).1] at hk
    exact Nat.lt_of_le_of_lt (htree.built.bounded k hk) (totalFreq_lt hgood)

/-! ### BUILD's checks -/

/-- BUILD raises `c`: the tree is stale and nothing else changes (41_tree_builder R172). -/
theorem execBuild_of_checkedTable_error {s : State} {c : CmdError} (h : checkedTable s = .error (.cmdError c)) :
    exec .build s = .next (staleTree (failedWith c s)) := by
  rw [exec, execBuild, buildBody, h, error_bind, finishCommand_cmdError]
  rfl

/-- Reading the entries in order raises BAD_TABLE when one of them has a bad frequency and those before it are written
(41_tree_builder R171). -/
theorem readEntries_badFreq {s : State} {i : Nat} {e : FtabEntry} (hi : s.ftab[i]?.join = some e)
    (hbad : e.freq.toNat = 0 ∨ 2 ^ 31 ≤ e.freq.toNat) {a n : Nat} (ha : a ≤ i) (hn : i < a + n)
    (hbefore : ∀ j, a ≤ j → j < i → s.ftab[j]?.join ≠ none) : readEntries s a n = .error (.cmdError .badTable) := by
  induction n generalizing a with
  | zero => omega
  | succ n ih =>
    have hfirst : ∃ e', s.ftab[a]?.join = some e' := by
      rcases Nat.eq_or_lt_of_le ha with rfl | hlt
      · exact ⟨e, hi⟩
      · exact Option.ne_none_iff_exists'.mp (hbefore a (Nat.le_refl a) hlt)
    obtain ⟨e', he'⟩ := hfirst
    rw [readEntries, readFtab_eq_ok.mpr he', orFault_ok, ok_bind]
    by_cases hfreq : e'.freq.toNat = 0 ∨ e'.freq.toNat ≥ Config.freqLimit
    · rw [raiseIf_true hfreq, error_bind]
    · have hlt : a < i := by
        refine Nat.lt_of_le_of_ne ha fun heq => hfreq ?_
        obtain rfl : e' = e := Option.some.inj (he'.symm.trans (heq ▸ hi))
        exact hbad
      rw [raiseIf_false hfreq, ok_bind, ih hlt (by omega) fun j hj => hbefore j (by omega), error_bind]

/-- BUILD of a table in use with a bad frequency, every entry before it written (41_tree_builder R171). -/
theorem execBuild_badFreq {s : State} {i : Nat} {e : FtabEntry} (hsize : s.ftCount.toNat ≤ 256) (hlt : i < s.ftCount.toNat)
    (hi : s.ftab[i]?.join = some e) (hbad : e.freq.toNat = 0 ∨ 2 ^ 31 ≤ e.freq.toNat)
    (hbefore : ∀ j, j < i → s.ftab[j]?.join ≠ none) : exec .build s = .next (staleTree (failedWith .badTable s)) := by
  refine execBuild_of_checkedTable_error ?_
  have hsize : ¬ s.ftCount.toNat > Config.nsym := Nat.not_lt.mpr hsize
  rw [checkedTable, raiseIf_false (by omega), ok_bind, raiseIf_false hsize, ok_bind,
    readEntries_badFreq hi hbad (Nat.zero_le i) (by omega) fun j _ => hbefore j, error_bind]

/-- BUILD of a table with a symbol twice: BAD_TABLE, for the symbol or for a frequency read before (41_tree_builder R171). -/
theorem execBuild_symbolTwice {s : State} {es : List FtabEntry} (hsize : s.ftCount.toNat ≤ 256) (htable : HoldsTable s es)
    (htwice : ¬ (es.map FtabEntry.sym).Nodup) : exec .build s = .next (staleTree (failedWith .badTable s)) := by
  obtain ⟨hcount, hentries⟩ := htable
  by_cases hfreq : ∀ j (h : j < es.length), 1 ≤ es[j].freq.toNat ∧ es[j].freq.toNat < 2 ^ 31
  · refine execBuild_of_checkedTable_error ?_
    have hsize : ¬ s.ftCount.toNat > Config.nsym := Nat.not_lt.mpr hsize
    have hpos : s.ftCount.toNat ≠ 0 := by
      rw [hcount]
      rintro h0
      exact htwice (by simp [List.length_eq_zero_iff.mp h0])
    have hread : readEntries s 0 s.ftCount.toNat = .ok es :=
      readEntries_eq_ok.mpr ⟨hcount.symm, fun j hj => ⟨by rw [Nat.zero_add]; exact hentries j hj, hfreq j hj⟩⟩
    rw [checkedTable, raiseIf_false hpos, ok_bind, raiseIf_false hsize, ok_bind, hread, ok_bind, raiseIf_true htwice,
      error_bind]
  · push Not at hfreq
    obtain ⟨i, hi, hbad⟩ := hfreq
    refine execBuild_badFreq hsize (hcount ▸ hi) (hentries i hi) (by omega) fun j hj => ?_
    rw [hentries j (by omega)]
    exact Option.some_ne_none _

/-- Settles O38: each check in turn; with a symbol twice a frequency may be what BUILD rejects, with the same error. -/
theorem buildRejectsBadTables : Obligations.BuildRejectsBadTables := by
  intro s
  refine ⟨fun h0 => execBuild_of_checkedTable_error ?_, fun hsize => execBuild_of_checkedTable_error ?_,
    fun i e hsize hlt hi hbad hbefore => execBuild_badFreq hsize hlt (by rw [hi]; rfl) hbad fun j hj => ?_,
    fun es hsize htable htwice => execBuild_symbolTwice hsize htable htwice⟩
  · rw [checkedTable, raiseIf_true h0, error_bind]
  · have hlarge : s.ftCount.toNat > Config.nsym := hsize
    rw [checkedTable, raiseIf_false (by omega), ok_bind, raiseIf_true hlarge, error_bind]
  · have hj256 : j < 256 := by omega
    have := hbefore j hj
    rw [Vector.getElem?_eq_getElem hj256] at this ⊢
    simpa using this

end Sys2Proof.Machine
end

section
/-! PROOFS. The code table: the paths of the current tree, one to each of its nodes (41_tree_builder R176), the assignments
GENCODES makes along them (42_code_table R192, R194), and what CTAB then holds (R196 to R198). -/

namespace Sys2Proof.Machine

/-! ### Paths -/

section
variable {s : State}

/-- The node at which the path `p` from node `k` ends, if every node before it is internal (42_code_table R192). -/
def nodeAlong (s : State) : BitVec 9 → BitString → Option (BitVec 9)
  | k, [] => some k
  | k, b :: p => s.node[k.toNat]?.bind fun n => if n.leaf then none else nodeAlong s (childOn n b) p

theorem leafAlong_nil_eq_some {k : BitVec 9} {sym : Byte} :
    leafAlong s k [] = some sym ↔ ∃ n, s.node[k.toNat]? = some n ∧ n.leaf = true ∧ n.sym = sym := by
  simp [leafAlong, Option.bind_eq_some_iff]

theorem leafAlong_cons_eq_some {k : BitVec 9} {b : Bool} {p : BitString} {sym : Byte} :
    leafAlong s k (b :: p) = some sym ↔
      ∃ n, s.node[k.toNat]? = some n ∧ n.leaf = false ∧ leafAlong s (childOn n b) p = some sym := by
  simp [leafAlong, Option.bind_eq_some_iff]

theorem nodeAlong_cons_eq_some {k j : BitVec 9} {b : Bool} {p : BitString} :
    nodeAlong s k (b :: p) = some j ↔
      ∃ n, s.node[k.toNat]? = some n ∧ n.leaf = false ∧ nodeAlong s (childOn n b) p = some j := by
  simp [nodeAlong, Option.bind_eq_some_iff]

/-- From a leaf only the empty path leads to a leaf, itself (42_code_table R192). -/
theorem leafAlong_of_leaf {k : BitVec 9} {n : Node} {p : BitString} {sym : Byte} (hn : s.node[k.toNat]? = some n)
    (hleaf : n.leaf = true) : leafAlong s k p = some sym ↔ p = [] ∧ n.sym = sym := by
  cases p with
  | nil => simp [leafAlong, hn, hleaf]
  | cons b p => simp [leafAlong, hn, hleaf]

/-- From an internal node a path to a leaf goes on through one of its children (42_code_table R192). -/
theorem leafAlong_of_internal {k : BitVec 9} {n : Node} {p : BitString} {sym : Byte} (hn : s.node[k.toNat]? = some n)
    (hleaf : n.leaf = false) :
    leafAlong s k p = some sym ↔ ∃ b q, p = b :: q ∧ leafAlong s (childOn n b) q = some sym := by
  cases p with
  | nil => simp [leafAlong, hn, hleaf]
  | cons b p => simp [leafAlong, hn, hleaf]

/-- A path to a leaf goes to the node at the end of each of its first parts and on from there. -/
theorem leafAlong_append_eq_some {k : BitVec 9} {p q : BitString} {sym : Byte} :
    leafAlong s k (p ++ q) = some sym ↔ ∃ j, nodeAlong s k p = some j ∧ leafAlong s j q = some sym := by
  induction p generalizing k with
  | nil => simp [nodeAlong]
  | cons b p ih =>
    simp only [List.cons_append, leafAlong_cons_eq_some, nodeAlong_cons_eq_some, ih]
    constructor
    · rintro ⟨n, hn, hleaf, j, hp, hq⟩
      exact ⟨j, ⟨n, hn, hleaf, hp⟩, hq⟩
    · rintro ⟨j, ⟨n, hn, hleaf, hp⟩, hq⟩
      exact ⟨n, hn, hleaf, j, hp, hq⟩

theorem leafAlong_eq_some_iff {k : BitVec 9} {p : BitString} {sym : Byte} :
    leafAlong s k p = some sym ↔ ∃ j n, nodeAlong s k p = some j ∧ s.node[j.toNat]? = some n ∧ n.leaf = true ∧ n.sym = sym := by
  rw [← List.append_nil p, leafAlong_append_eq_some]
  simp only [leafAlong_nil_eq_some, exists_and_left, List.append_nil]

/-- The last step of a path goes from an internal node to its child on the last bit. -/
theorem nodeAlong_concat_eq_some {k j : BitVec 9} {p : BitString} {b : Bool} :
    nodeAlong s k (p ++ [b]) = some j ↔
      ∃ i n, nodeAlong s k p = some i ∧ s.node[i.toNat]? = some n ∧ n.leaf = false ∧ childOn n b = j := by
  induction p generalizing k with
  | nil => simp [nodeAlong, Option.bind_eq_some_iff]
  | cons c p ih =>
    simp only [List.cons_append, nodeAlong_cons_eq_some, ih]
    constructor
    · rintro ⟨n, hn, hleaf, i, m, hp, hm⟩
      exact ⟨i, m, ⟨n, hn, hleaf, hp⟩, hm⟩
    · rintro ⟨i, m, ⟨n, hn, hleaf, hp⟩, hm⟩
      exact ⟨n, hn, hleaf, i, m, hp, hm⟩

/-- No path to a leaf goes on beyond another (42_code_table R196 (b)). -/
theorem eq_of_leafAlong_prefix {k : BitVec 9} {p q : BitString} {x y : Byte} (hp : leafAlong s k p = some x)
    (hq : leafAlong s k q = some y) (h : p <+: q) : x = y := by
  obtain ⟨r, rfl⟩ := h
  obtain ⟨j, n, hj, hn, hleaf, rfl⟩ := leafAlong_eq_some_iff.mp hp
  obtain ⟨j', hj', hr⟩ := leafAlong_append_eq_some.mp hq
  obtain rfl := Option.some.inj (hj.symm.trans hj')
  exact ((leafAlong_of_leaf hn hleaf).mp hr).2

end

/-! ### Paths of the current tree -/

theorem node_getElem? (s : State) {k : Nat} (hk : k < 511) : s.node[k]? = some (nodeAt s k) := by
  rw [nodeAt_eq_getElem s hk, Vector.getElem?_eq_getElem hk]

theorem nodeAt_of_getElem? {s : State} {k : Nat} {n : Node} (h : s.node[k]? = some n) : nodeAt s k = n := by
  rw [nodeAt, h, Option.getD_some]

section
variable {s : State} {es : List FtabEntry} (harena : HuffmanArena (nodeAt s) es)
include harena

/-- The nodes of the arena that are leaves are the first ones (41_tree_builder R176). -/
theorem HuffmanArena.leaf_iff {k : Nat} (hk : k < 2 * es.length - 1) : (nodeAt s k).leaf = true ↔ k < es.length := by
  refine ⟨fun hleaf => ?_, fun hlt => (harena.leaves k hlt).1⟩
  by_contra hge
  rw [(harena.sums k (by omega) hk).1] at hleaf
  cases hleaf

/-- The children of an internal node have lower indices (41_tree_builder R176). -/
theorem HuffmanArena.childOn_lt {k : Nat} (hge : es.length ≤ k) (hk : k < 2 * es.length - 1) (b : Bool) :
    (childOn (nodeAt s k) b).toNat < k := by
  cases b
  · exact (harena.first k hge hk).1.1
  · exact (harena.second k hge hk).1.1

/-- The indices fall along a path (41_tree_builder R176). -/
theorem HuffmanArena.nodeAlong_add_length_le {k j : BitVec 9} {p : BitString} (hk : k.toNat < 2 * es.length - 1)
    (h : nodeAlong s k p = some j) : j.toNat + p.length ≤ k.toNat := by
  induction p generalizing k with
  | nil => rw [Option.some.inj h]; exact Nat.le_refl _
  | cons b p ih =>
    obtain ⟨n, hn, hleaf, hp⟩ := nodeAlong_cons_eq_some.mp h
    obtain rfl := nodeAt_of_getElem? hn
    rw [← Bool.not_eq_true, harena.leaf_iff hk] at hleaf
    have hchild := harena.childOn_lt (by omega) hk b
    have := ih (by omega) hp
    rw [List.length_cons]
    omega

end

section
variable {s : State} {es : List FtabEntry} (htree : TreeOf s es)
include htree

theorem TreeOf.root_lt : s.root.toNat < 2 * es.length - 1 := by
  have := htree.goodTable.1
  have := htree.root_toNat
  omega

theorem TreeOf.node_getElem? {k : Nat} (hk : k < 2 * es.length - 1) : s.node[k]? = some (nodeAt s k) := by
  have := htree.goodTable.2.1
  exact Machine.node_getElem? s (by omega)

theorem TreeOf.root_leaf : (nodeAt s s.root.toNat).leaf = s.singleLeaf := by
  have := htree.goodTable.1
  have := htree.root_toNat
  rw [htree.singleLeaf, Bool.eq_iff_iff, htree.huffmanArena.leaf_iff htree.root_lt, beq_iff_eq]
  omega

/-- The last node of a path from the root that has a step is a child of an internal node, on the path's last bit
(41_tree_builder R176). -/
theorem TreeOf.parent_of_nodeAlong {p : BitString} {b : Bool} {j : BitVec 9} (h : nodeAlong s s.root (p ++ [b]) = some j) :
    ∃ i, nodeAlong s s.root p = some i ∧ es.length ≤ i.toNat ∧ i.toNat < 2 * es.length - 1 ∧
      childOn (nodeAt s i.toNat) b = j := by
  obtain ⟨i, n, hp, hn, hleaf, hchild⟩ := nodeAlong_concat_eq_some.mp h
  obtain rfl := nodeAt_of_getElem? hn
  have hle := htree.huffmanArena.nodeAlong_add_length_le htree.root_lt hp
  have hroot := htree.root_lt
  rw [← Bool.not_eq_true, htree.huffmanArena.leaf_iff (by omega)] at hleaf
  exact ⟨i, hp, by omega, by omega, hchild⟩

/-- Two internal nodes with a common child are the same, and have it on the same side (41_tree_builder R176). -/
theorem TreeOf.parent_unique {i i' : BitVec 9} {b b' : Bool} (hi : es.length ≤ i.toNat) (hlt : i.toNat < 2 * es.length - 1)
    (hi' : es.length ≤ i'.toNat) (hlt' : i'.toNat < 2 * es.length - 1)
    (h : childOn (nodeAt s i.toNat) b = childOn (nodeAt s i'.toNat) b') : i = i' ∧ b = b' := by
  have harena := htree.huffmanArena
  have hchild : ∀ (n : Node) (c : Bool), n.left.toNat = (childOn n c).toNat ∨ n.right.toNat = (childOn n c).toNat := by
    intro n c; cases c
    · exact .inl rfl
    · exact .inr rfl
  obtain rfl : i = i' := BitVec.eq_of_toNat_eq
    (harena.parent_unique hi' hlt' (hchild _ b') hi hlt (h ▸ hchild _ b))
  have hne := (harena.second _ hi hlt).2.1
  refine ⟨rfl, ?_⟩
  cases b <;> cases b'
  · rfl
  · exact absurd h.symm hne
  · exact absurd h hne
  · rfl

/-- A node is at the end of at most one path from the root (41_tree_builder R176). -/
theorem TreeOf.nodeAlong_unique {p q : BitString} {j : BitVec 9} (hp : nodeAlong s s.root p = some j)
    (hq : nodeAlong s s.root q = some j) : p = q := by
  have hnil : ∀ {q}, nodeAlong s s.root q = some s.root → [] = q := fun h => by
    have := htree.huffmanArena.nodeAlong_add_length_le htree.root_lt h
    exact (List.length_eq_zero_iff.mp (by omega)).symm
  induction p using List.reverseRecOn generalizing q j with
  | nil =>
    obtain rfl := Option.some.inj hp
    exact hnil hq
  | append_singleton p b ih =>
    induction q using List.reverseRecOn with
    | nil =>
      obtain rfl := Option.some.inj hq
      exact (hnil hp).symm
    | append_singleton q c _ =>
      obtain ⟨i, hpi, hi, hlt, rfl⟩ := htree.parent_of_nodeAlong hp
      obtain ⟨i', hqi, hi', hlt', hchild⟩ := htree.parent_of_nodeAlong hq
      obtain ⟨rfl, rfl⟩ := htree.parent_unique hi' hlt' hi hlt hchild
      rw [ih hpi hqi]

/-- Every node of the tree is at the end of a path from the root, by way of its parent (41_tree_builder R176). -/
theorem TreeOf.nodeAlong_exists {j : Nat} (hj : j < 2 * es.length - 1) :
    ∃ p, nodeAlong s s.root p = some (BitVec.ofNat 9 j) := by
  have hgood := htree.goodTable
  have harena := htree.huffmanArena
  have hlen := hgood.2.1
  induction hm : 2 * es.length - 2 - j using Nat.strong_induction_on generalizing j with
  | _ m ih =>
    rcases Nat.eq_or_lt_of_le (Nat.le_of_lt_succ (by omega : j < 2 * es.length - 2 + 1)) with rfl | hlt
    · refine ⟨[], ?_⟩
      rw [← htree.root_toNat, BitVec.ofNat_toNat, BitVec.setWidth_eq]
      rfl
    · obtain ⟨k, hk, hklt, hchild⟩ := htree.built.parent_exists hgood hlt
      obtain ⟨b, hb⟩ : ∃ b, (childOn (nodeAt s k) b).toNat = j := by
        rcases hchild with h | h
        · exact ⟨false, h⟩
        · exact ⟨true, h⟩
      have hlower := harena.childOn_lt hk hklt b
      obtain ⟨p, hp⟩ := ih (2 * es.length - 2 - k) (by omega) hklt rfl
      have hkk : (BitVec.ofNat 9 k).toNat = k := by rw [BitVec.toNat_ofNat, Nat.mod_eq_of_lt (by omega)]
      refine ⟨p ++ [b], nodeAlong_concat_eq_some.mpr
        ⟨_, _, hp, by rw [hkk]; exact htree.node_getElem? hklt, (harena.sums k hk hklt).1, ?_⟩⟩
      rw [← hb, BitVec.ofNat_toNat, BitVec.setWidth_eq]

/-- A path to a leaf ends at the leaf of a table entry (41_tree_builder R173). -/
theorem TreeOf.entry_of_leafAlong {p : BitString} {sym : Byte} (h : leafAlong s s.root p = some sym) :
    ∃ j, nodeAlong s s.root p = some j ∧ ∃ hj : j.toNat < es.length, es[j.toNat].sym = sym := by
  obtain ⟨j, n, hp, hn, hleaf, hsym⟩ := leafAlong_eq_some_iff.mp h
  obtain rfl := nodeAt_of_getElem? hn
  have hle := htree.huffmanArena.nodeAlong_add_length_le htree.root_lt hp
  have hroot := htree.root_lt
  have hj := (htree.huffmanArena.leaf_iff (by omega)).mp hleaf
  exact ⟨j, hp, hj, (htree.huffmanArena.leaves _ hj).2.1.symm.trans hsym⟩

/-- No two paths lead to leaves with the same symbol (42_code_table R192). -/
theorem TreeOf.leafAlong_unique {p q : BitString} {sym : Byte} (hp : leafAlong s s.root p = some sym)
    (hq : leafAlong s s.root q = some sym) : p = q := by
  obtain ⟨j, hpj, hj, hsym⟩ := htree.entry_of_leafAlong hp
  obtain ⟨j', hqj, hj', hsym'⟩ := htree.entry_of_leafAlong hq
  have hnodup := htree.goodTable.2.2.2
  have hindex : j.toNat = j'.toNat :=
    (hnodup.getElem_inj_iff (hi := by simpa using hj) (hj := by simpa using hj')).mp (by simp [hsym, hsym'])
  obtain rfl := BitVec.eq_of_toNat_eq hindex
  exact htree.nodeAlong_unique hpj hqj

/-- The symbols at the ends of paths are those of the table (42_code_table R196 (a)). -/
theorem TreeOf.exists_leafAlong_iff {sym : Byte} :
    (∃ p, leafAlong s s.root p = some sym) ↔ sym ∈ es.map FtabEntry.sym := by
  constructor
  · rintro ⟨p, hp⟩
    obtain ⟨j, -, hj, rfl⟩ := htree.entry_of_leafAlong hp
    exact List.mem_map_of_mem (List.getElem_mem hj)
  · intro hmem
    obtain ⟨e, he, rfl⟩ := List.mem_map.mp hmem
    obtain ⟨i, hi, rfl⟩ := List.getElem_of_mem he
    obtain ⟨p, hp⟩ := htree.nodeAlong_exists (j := i) (by omega)
    have hlen := htree.goodTable.2.1
    have hii : (BitVec.ofNat 9 i).toNat = i := by rw [BitVec.toNat_ofNat, Nat.mod_eq_of_lt (by omega)]
    obtain ⟨hleaf, hsym, -⟩ := htree.huffmanArena.leaves i hi
    exact ⟨p, leafAlong_eq_some_iff.mpr
      ⟨_, _, hp, by rw [hii]; exact htree.node_getElem? (by omega), hleaf, hsym⟩⟩

/-- A path to a leaf of a tree over n leaves has at most n - 1 bits (42_code_table R197). -/
theorem TreeOf.leafAlong_length_le {p : BitString} {sym : Byte} (h : leafAlong s s.root p = some sym) :
    p.length ≤ es.length - 1 := by
  have := htree.huffmanArena.path_length_le htree.root_lt h
  have := htree.root_toNat
  have := htree.goodTable.1
  omega

/-- A root that is a leaf is its own leaf, and any other is none (42_code_table R194). -/
theorem TreeOf.leafAlong_root_eq_some {sym : Byte} :
    leafAlong s s.root [] = some sym ↔ s.singleLeaf = true ∧ (nodeAt s s.root.toNat).sym = sym := by
  rw [leafAlong_nil_eq_some, htree.node_getElem? htree.root_lt, ← htree.root_leaf]
  constructor
  · rintro ⟨n, hn, h⟩
    exact Option.some.inj hn ▸ h
  · exact fun h => ⟨_, rfl, h⟩

end

/-! ### The traversal -/

/-- What `visit` makes of the subtree of node `k`, whose path is `p`: the assignments of its leaves, from left to right
(42_code_table R192); `d` bounds its depth. -/
inductive Visited (s : State) : Nat → BitVec 9 → BitString → List (Byte × BitString) → Prop where
  /-- A leaf gets its path. -/
  | leaf {d : Nat} {k : BitVec 9} {p : BitString} {n : Node} (hn : s.node[k.toNat]? = some n) (hleaf : n.leaf = true) :
      Visited s d k p [(n.sym, p)]
  /-- Below an internal node, the left subtree comes first. -/
  | branch {d : Nat} {k : BitVec 9} {p : BitString} {n : Node} {l r : List (Byte × BitString)}
      (hn : s.node[k.toNat]? = some n) (hleaf : n.leaf = false) (hl : Visited s d (childOn n false) (p ++ [false]) l)
      (hr : Visited s d (childOn n true) (p ++ [true]) r) : Visited s (d + 1) k p (l ++ r)

section
variable {s : State}

theorem visit_of_leaf {d : Nat} {k : BitVec 9} {p : BitString} {n : Node} (hn : s.node[k.toNat]? = some n)
    (hleaf : n.leaf = true) : visit s d k p = .ok [(n.sym, p)] := by
  rw [visit, readNode_eq_ok.mpr hn, orFault_ok, ok_bind, if_pos hleaf]

theorem visit_eq_ok_of_internal {d : Nat} {k : BitVec 9} {p : BitString} {n : Node} {a : List (Byte × BitString)}
    (hn : s.node[k.toNat]? = some n) (hleaf : n.leaf = false) :
    visit s d k p = .ok a ↔ ∃ d' l r, d = d' + 1 ∧ visit s d' (childOn n false) (p ++ [false]) = .ok l ∧
      visit s d' (childOn n true) (p ++ [true]) = .ok r ∧ a = l ++ r := by
  rw [visit, readNode_eq_ok.mpr hn, orFault_ok, ok_bind, if_neg (by simp [hleaf])]
  cases d with
  | zero => simp
  | succ d =>
    simp only [bind_eq_ok, Except.ok.injEq]
    constructor
    · rintro ⟨l, hl, r, hr, rfl⟩
      exact ⟨d, l, r, rfl, hl, hr, rfl⟩
    · rintro ⟨_, l, r, ⟨⟩, hl, hr, rfl⟩
      exact ⟨l, hl, r, hr, rfl⟩

/-- The traversal succeeds exactly with the assignments of the subtree's leaves (42_code_table R192). -/
theorem visit_eq_ok {d : Nat} {k : BitVec 9} {p : BitString} {a : List (Byte × BitString)} :
    visit s d k p = .ok a ↔ Visited s d k p a := by
  constructor
  · intro h
    induction d using Nat.strong_induction_on generalizing k p a with
    | _ d ih =>
      have hread := h
      rw [visit, bind_eq_ok] at hread
      obtain ⟨n, hn, -⟩ := hread
      rw [orFault_eq_ok, readNode_eq_ok] at hn
      cases hleaf : n.leaf with
      | true =>
        rw [visit_of_leaf hn hleaf] at h
        cases h
        exact .leaf hn hleaf
      | false =>
        obtain ⟨d', l, r, rfl, hl, hr, rfl⟩ := (visit_eq_ok_of_internal hn hleaf).mp h
        exact .branch hn hleaf (ih d' (Nat.lt_succ_self d') hl) (ih d' (Nat.lt_succ_self d') hr)
  · intro h
    induction h with
    | leaf hn hleaf => exact visit_of_leaf hn hleaf
    | branch hn hleaf _ _ ihl ihr => exact (visit_eq_ok_of_internal hn hleaf).mpr ⟨_, _, _, rfl, ihl, ihr, rfl⟩

/-- The assignments are the paths to the leaves of the subtree, each after the path to its root (42_code_table R192). -/
theorem Visited.mem_iff {d : Nat} {k : BitVec 9} {p : BitString} {a : List (Byte × BitString)} (h : Visited s d k p a)
    {x : Byte × BitString} : x ∈ a ↔ ∃ q, x.2 = p ++ q ∧ leafAlong s k q = some x.1 := by
  induction h with
  | leaf hn hleaf =>
    simp only [List.mem_singleton, leafAlong_of_leaf hn hleaf]
    constructor
    · rintro rfl
      exact ⟨[], by simp, rfl, rfl⟩
    · rintro ⟨_, hx, rfl, hsym⟩
      exact Prod.ext hsym.symm (by simpa using hx)
  | branch hn hleaf _ _ ihl ihr =>
    simp only [List.mem_append, ihl, ihr, leafAlong_of_internal hn hleaf]
    constructor
    · rintro (⟨q, hx, hq⟩ | ⟨q, hx, hq⟩)
      · exact ⟨false :: q, by simp [hx], false, q, rfl, hq⟩
      · exact ⟨true :: q, by simp [hx], true, q, rfl, hq⟩
    · rintro ⟨_, hx, b, q, rfl, hq⟩
      cases b
      · exact .inl ⟨q, by simp [hx], hq⟩
      · exact .inr ⟨q, by simp [hx], hq⟩

/-- No assignment is made twice: the paths of the two subtrees differ in the bit between them. -/
theorem Visited.nodup {d : Nat} {k : BitVec 9} {p : BitString} {a : List (Byte × BitString)} (h : Visited s d k p a) :
    a.Nodup := by
  induction h with
  | leaf => exact List.nodup_singleton _
  | branch _ _ hl hr ihl ihr =>
    refine List.nodup_append.mpr ⟨ihl, ihr, fun x hx y hy => ?_⟩
    rintro rfl
    obtain ⟨q, hq, -⟩ := hl.mem_iff.mp hx
    obtain ⟨q', hq', -⟩ := hr.mem_iff.mp hy
    simp [hq] at hq'

/-- Each internal node halves the share of its subtrees, so the leaves of a subtree share what its root has
(42_code_table R198). -/
theorem Visited.kraft {d : Nat} {k : BitVec 9} {p : BitString} {a : List (Byte × BitString)} (h : Visited s d k p a)
    {m : Nat} (hm : p.length + d ≤ m) : (a.map fun x => 2 ^ (m - x.2.length)).sum = 2 ^ (m - p.length) := by
  induction h with
  | leaf => simp
  | @branch d _ p _ _ _ _ _ _ _ ihl ihr =>
    have hbit : ∀ b, (p ++ [b]).length = p.length + 1 := fun b => List.length_append
    have hhalf : m - p.length = m - (p.length + 1) + 1 := by omega
    rw [List.map_append, List.sum_append, ihl (by rw [hbit]; omega), ihr (by rw [hbit]; omega), hbit, hbit, hhalf, pow_succ]
    omega

end

/-- The traversal of a current tree succeeds when its depth bound covers the internal nodes from its start down
(42_code_table R192, 41_tree_builder R176). -/
theorem TreeOf.visited_exists {s : State} {es : List FtabEntry} (htree : TreeOf s es) {d : Nat} {k : BitVec 9} {p : BitString}
    (hk : k.toNat < 2 * es.length - 1) (hd : k.toNat + 1 ≤ es.length + d) : ∃ a, Visited s d k p a := by
  have harena := htree.huffmanArena
  induction d generalizing k p with
  | zero => exact ⟨_, .leaf (htree.node_getElem? hk) ((harena.leaf_iff hk).mpr hd)⟩
  | succ d ih =>
    cases hleaf : (nodeAt s k.toNat).leaf with
    | true => exact ⟨_, .leaf (htree.node_getElem? hk) hleaf⟩
    | false =>
      have hge : ¬ k.toNat < es.length := fun hlt => by simp [(harena.leaf_iff hk).mpr hlt] at hleaf
      have hchild := harena.childOn_lt (by omega) hk
      obtain ⟨l, hl⟩ := ih (k := childOn (nodeAt s k.toNat) false) (p := p ++ [false])
        (by have := hchild false; omega) (by have := hchild false; omega)
      obtain ⟨r, hr⟩ := ih (k := childOn (nodeAt s k.toNat) true) (p := p ++ [true])
        (by have := hchild true; omega) (by have := hchild true; omega)
      exact ⟨_, .branch (htree.node_getElem? hk) hleaf hl hr⟩

/-! ### The assignments of the current tree -/

section
variable {s : State} {es : List FtabEntry} (htree : TreeOf s es)
include htree

/-- A single leaf gets the code "0" (42_code_table R194). -/
theorem TreeOf.codeAssignments_single (hsingle : s.singleLeaf = true) :
    codeAssignments s = .ok [((nodeAt s s.root.toNat).sym, [false])] := by
  rw [codeAssignments, readNode_eq_ok.mpr (htree.node_getElem? htree.root_lt), orFault_ok, ok_bind,
    if_pos (htree.root_leaf.trans hsingle)]

theorem TreeOf.codeAssignments_eq_visit (hmulti : s.singleLeaf = false) :
    codeAssignments s = visit s Config.maxCodeLen s.root [] := by
  rw [codeAssignments, readNode_eq_ok.mpr (htree.node_getElem? htree.root_lt), orFault_ok, ok_bind,
    if_neg (by rw [htree.root_leaf, hmulti]; exact Bool.false_ne_true)]

/-- Every current tree has its assignments: the depth is within MAX_CODE_LEN (42_code_table R197). -/
theorem TreeOf.codeAssignments_exists : ∃ a, codeAssignments s = .ok a := by
  cases hsingle : s.singleLeaf with
  | true => exact ⟨_, htree.codeAssignments_single hsingle⟩
  | false =>
    have hlen := htree.goodTable.2.1
    have hroot := htree.root_toNat
    have hdepth : s.root.toNat + 1 ≤ es.length + Config.maxCodeLen := by rw [Config.maxCodeLen]; omega
    obtain ⟨a, ha⟩ := htree.visited_exists (p := []) htree.root_lt hdepth
    exact ⟨a, (htree.codeAssignments_eq_visit hsingle).trans (visit_eq_ok.mpr ha)⟩

variable {a : List (Byte × BitString)} (ha : codeAssignments s = .ok a)
include ha

theorem TreeOf.visited_of_codeAssignments (hmulti : s.singleLeaf = false) : Visited s Config.maxCodeLen s.root [] a :=
  visit_eq_ok.mp ((htree.codeAssignments_eq_visit hmulti).symm.trans ha)

/-- With more than one leaf, the assignments are the paths to the leaves (42_code_table R192). -/
theorem TreeOf.mem_codeAssignments_multi (hmulti : s.singleLeaf = false) {sym : Byte} {p : BitString} :
    (sym, p) ∈ a ↔ leafAlong s s.root p = some sym := by
  simp [(htree.visited_of_codeAssignments ha hmulti).mem_iff]

theorem TreeOf.mem_codeAssignments_single (hsingle : s.singleLeaf = true) {sym : Byte} {p : BitString} :
    (sym, p) ∈ a ↔ sym = (nodeAt s s.root.toNat).sym ∧ p = [false] := by
  rw [← Except.ok.inj ((htree.codeAssignments_single hsingle).symm.trans ha), List.mem_singleton, Prod.mk.injEq]

/-- A code has at least one bit (42_code_table R197). -/
theorem TreeOf.code_ne_nil {sym : Byte} {p : BitString} (h : (sym, p) ∈ a) : p ≠ [] := by
  rintro rfl
  cases hsingle : s.singleLeaf with
  | true => simpa using ((htree.mem_codeAssignments_single ha hsingle).mp h).2
  | false =>
    have hroot := htree.leafAlong_root_eq_some.mp ((htree.mem_codeAssignments_multi ha hsingle).mp h)
    simp [hsingle] at hroot

/-- A code has at most n - 1 bits for n entries, or the one of a single leaf (42_code_table R197). -/
theorem TreeOf.code_length_le {sym : Byte} {p : BitString} (h : (sym, p) ∈ a) : p.length ≤ max 1 (es.length - 1) := by
  cases hsingle : s.singleLeaf with
  | true =>
    obtain ⟨-, rfl⟩ := (htree.mem_codeAssignments_single ha hsingle).mp h
    exact Nat.le_max_left _ _
  | false =>
    exact (htree.leafAlong_length_le ((htree.mem_codeAssignments_multi ha hsingle).mp h)).trans (Nat.le_max_right _ _)

/-- A code fits its CTAB entry (00_scope R8, 10_state R46). -/
theorem TreeOf.code_length_le_255 {sym : Byte} {p : BitString} (h : (sym, p) ∈ a) : p.length ≤ 255 := by
  have := htree.code_length_le ha h
  have := htree.goodTable.2.1
  omega

/-- A symbol is assigned one code at most (42_code_table R192). -/
theorem TreeOf.code_unique {sym : Byte} {p q : BitString} (hp : (sym, p) ∈ a) (hq : (sym, q) ∈ a) : p = q := by
  cases hsingle : s.singleLeaf with
  | true =>
    rw [htree.mem_codeAssignments_single ha hsingle] at hp hq
    rw [hp.2, hq.2]
  | false =>
    rw [htree.mem_codeAssignments_multi ha hsingle] at hp hq
    exact htree.leafAlong_unique hp hq

/-- The symbols that are assigned codes are those of the table (42_code_table R196 (a)). -/
theorem TreeOf.exists_code_iff {sym : Byte} : (∃ p, (sym, p) ∈ a) ↔ sym ∈ es.map FtabEntry.sym := by
  cases hsingle : s.singleLeaf with
  | false => simp only [htree.mem_codeAssignments_multi ha hsingle, htree.exists_leafAlong_iff]
  | true =>
    have hlen : es.length = 1 := by simpa [htree.singleLeaf] using hsingle
    have honly : ∀ p, leafAlong s s.root p = some sym → p = [] := fun p hp =>
      List.length_eq_zero_iff.mp (by have := htree.leafAlong_length_le hp; omega)
    rw [← htree.exists_leafAlong_iff]
    constructor
    · rintro ⟨p, hp⟩
      obtain ⟨hsym, -⟩ := (htree.mem_codeAssignments_single ha hsingle).mp hp
      exact ⟨[], htree.leafAlong_root_eq_some.mpr ⟨hsingle, hsym.symm⟩⟩
    · rintro ⟨p, hp⟩
      obtain rfl := honly p hp
      exact ⟨[false], (htree.mem_codeAssignments_single ha hsingle).mpr ⟨(htree.leafAlong_root_eq_some.mp hp).2.symm, rfl⟩⟩

end

/-! ### CTAB -/

/-- A CTAB entry is that of a code assigned to its symbol, or of none (42_code_table R192). -/
theorem ctabAt_codeTable (a : List (Byte × BitString)) (sym : Byte) :
    (∃ p, (sym, p) ∈ a ∧ ctabAt (codeTable a) sym = CodeEntry.ofBits p) ∨
      ((∀ p, (sym, p) ∉ a) ∧ ctabAt (codeTable a) sym = CodeEntry.empty) := by
  induction a using List.reverseRecOn with
  | nil => exact .inr ⟨by simp, by simp [codeTable]⟩
  | append_singleton a x ih =>
    have hlast : ctabAt (codeTable (a ++ [x])) sym = if sym = x.1 then CodeEntry.ofBits x.2 else ctabAt (codeTable a) sym := by
      rw [codeTable, List.foldl_append, List.foldl_cons, List.foldl_nil, ctabAt_ctabSet, codeTable]
    by_cases hsym : sym = x.1
    · exact .inl ⟨x.2, by simp [hsym], by rw [hlast, if_pos hsym]⟩
    · rw [hlast, if_neg hsym]
      have hne : ∀ p, (sym, p) ∈ a ++ [x] ↔ (sym, p) ∈ a := fun p => by
        rw [List.mem_append, List.mem_singleton, or_iff_left fun h => hsym (congrArg Prod.fst h)]
      simpa only [hne] using ih

theorem CodeEntry.len_ne_zero_iff {e : CodeEntry} : e.len ≠ 0 ↔ e.bits ≠ [] := by
  rw [Ne, Ne, ← List.length_eq_zero_iff, CodeEntry.bits_length, ← BitVec.toNat_inj]
  rfl

section
variable {s t : State} {es : List FtabEntry} {a : List (Byte × BitString)} (htree : TreeOf s es)
  (ha : codeAssignments s = .ok a) (hctab : t.ctab = codeTable a)
include htree ha hctab

/-- CTAB holds for a symbol the code it is assigned (42_code_table R192). -/
theorem TreeOf.codeOf_eq_iff {sym : Byte} {p : BitString} (hp : p ≠ []) : codeOf t sym = p ↔ (sym, p) ∈ a := by
  rw [codeOf, hctab]
  rcases ctabAt_codeTable a sym with ⟨q, hq, hentry⟩ | ⟨hnone, hentry⟩
  · rw [hentry, CodeEntry.bits_ofBits q (htree.code_length_le_255 ha hq)]
    exact ⟨fun h => h ▸ hq, fun h => htree.code_unique ha hq h⟩
  · rw [hentry]
    exact iff_of_false (fun h => hp (h ▸ rfl)) (hnone p)

/-- A symbol whose length in CTAB is not 0 has the code it is assigned (42_code_table R192). -/
theorem TreeOf.codeOf_mem {sym : Byte} (h : (ctabAt t.ctab sym).len ≠ 0) : (sym, codeOf t sym) ∈ a :=
  (htree.codeOf_eq_iff ha hctab (CodeEntry.len_ne_zero_iff.mp h)).mp rfl

theorem TreeOf.len_ne_zero_iff {sym : Byte} : (ctabAt t.ctab sym).len ≠ 0 ↔ ∃ p, (sym, p) ∈ a := by
  refine ⟨fun h => ⟨_, htree.codeOf_mem ha hctab h⟩, fun ⟨p, hp⟩ => CodeEntry.len_ne_zero_iff.mpr ?_⟩
  have hne := htree.code_ne_nil ha hp
  exact ((htree.codeOf_eq_iff ha hctab hne).mpr hp).trans_ne hne

/-- With more than one leaf, the codes are the paths (42_code_table R192). -/
theorem TreeOf.leafAlong_iff_codeOf (hmulti : s.singleLeaf = false) {sym : Byte} {p : BitString} :
    leafAlong s s.root p = some sym ↔ p ≠ [] ∧ codeOf t sym = p := by
  rw [← htree.mem_codeAssignments_multi ha hmulti]
  constructor
  · intro h
    have hne := htree.code_ne_nil ha h
    exact ⟨hne, (htree.codeOf_eq_iff ha hctab hne).mpr h⟩
  · rintro ⟨hne, h⟩
    exact (htree.codeOf_eq_iff ha hctab hne).mp h

/-- A single leaf has the code "0", and every other symbol has none (42_code_table R194). -/
theorem TreeOf.codeOf_single (hsingle : s.singleLeaf = true) (sym : Byte) :
    codeOf t sym = if sym = (nodeAt s s.root.toNat).sym then [false] else [] := by
  split
  · next hsym =>
    exact (htree.codeOf_eq_iff ha hctab (by simp)).mpr ((htree.mem_codeAssignments_single ha hsingle).mpr ⟨hsym, rfl⟩)
  · next hsym =>
    by_contra hne
    have hmem := (htree.codeOf_eq_iff ha hctab hne).mp rfl
    exact hsym ((htree.mem_codeAssignments_single ha hsingle).mp hmem).1

/-- Code bits from the length on are 0 (42_code_table R192). -/
theorem TreeOf.code_unused_bits (sym : Byte) {i : Nat} (hi : (ctabAt t.ctab sym).len.toNat ≤ i) :
    (ctabAt t.ctab sym).code.getLsbD i = false := by
  rw [hctab] at hi ⊢
  rcases ctabAt_codeTable a sym with ⟨q, hq, hentry⟩ | ⟨-, hentry⟩
  · rw [hentry] at hi ⊢
    rw [← CodeEntry.bits_length, CodeEntry.bits_ofBits q (htree.code_length_le_255 ha hq)] at hi
    exact CodeEntry.ofBits_beyond q i hi
  · rw [hentry]
    exact BitVec.getLsbD_zero

end

/-- Settles O42: the traversal succeeds, and CTAB holds its assignments. -/
theorem genCodesCompletes : Obligations.GenCodesCompletes := by
  intro s hinv hvalid
  obtain ⟨es, htree⟩ := hinv.tree hvalid
  obtain ⟨a, ha⟩ := htree.codeAssignments_exists
  refine ⟨complete { s with ctab := codeTable a, ctabValid := true }, ?_, rfl,
    fun hmulti sym p => htree.leafAlong_iff_codeOf ha rfl hmulti, fun hsingle => htree.codeOf_single ha rfl hsingle,
    fun sym i hi => htree.code_unused_bits ha rfl sym hi, fun _ => ⟨rfl, rfl⟩⟩
  rw [exec, execGenCodes, genCodesBody_eq_ok.mpr ⟨hvalid, a, ha, rfl⟩, finishCommand_ok]

/-- Settles O43: the check of R191. -/
theorem genCodesNeedsATree : Obligations.GenCodesNeedsATree := by
  intro s hnone
  refine ⟨?_, fun hinv => (hinv.noTree hnone).1⟩
  rw [exec, execGenCodes, genCodesBody_eq_cmdError.mpr ⟨hnone, rfl⟩, finishCommand_cmdError]
  rfl

/-- Valid codes are those of a valid tree (10_state R47). -/
theorem Inv.treeValid_of_ctabValid {s : State} (hinv : Inv s) (hcodes : s.ctabValid = true) : s.treeValid = true := by
  by_contra hnone
  simp [(hinv.noTree (by simpa using hnone)).1] at hcodes

/-- Settles O44: codes are paths, and no path to a leaf goes on beyond another. -/
theorem codesAreUniquelyDecodable : Obligations.CodesAreUniquelyDecodable := by
  intro s es hinv hvalid htable
  have htree := hinv.treeOf (hinv.treeValid_of_ctabValid hvalid) htable
  obtain ⟨a, ha, hctab⟩ := hinv.codes hvalid
  have hpath : s.singleLeaf = false → ∀ sym, (ctabAt s.ctab sym).len ≠ 0 → leafAlong s s.root (codeOf s sym) = some sym :=
    fun hmulti sym hsym => (htree.mem_codeAssignments_multi ha hmulti).mp (htree.codeOf_mem ha hctab hsym)
  have hsole : s.singleLeaf = true → ∀ sym, (ctabAt s.ctab sym).len ≠ 0 →
      sym = (nodeAt s s.root.toNat).sym ∧ codeOf s sym = [false] :=
    fun hsingle sym hsym => (htree.mem_codeAssignments_single ha hsingle).mp (htree.codeOf_mem ha hctab hsym)
  refine ⟨fun sym => (htree.len_ne_zero_iff ha hctab).trans (htree.exists_code_iff ha), fun x y hx hy hprefix => ?_,
    fun sym hsym => ⟨fun hmulti => hpath hmulti sym hsym, fun hsingle => ?_⟩⟩
  · cases hsingle : s.singleLeaf with
    | false => exact eq_of_leafAlong_prefix (hpath hsingle x hx) (hpath hsingle y hy) hprefix
    | true => exact (hsole hsingle x hx).1.trans (hsole hsingle y hy).1.symm
  · obtain ⟨hroot, hcode⟩ := hsole hsingle sym hsym
    exact ⟨htree.leafAlong_root_eq_some.mpr ⟨hsingle, hroot.symm⟩, hcode⟩

/-- Settles O45: a code is a path of the tree, or the one bit of a single leaf. -/
theorem codeLengthBound : Obligations.CodeLengthBound := by
  intro s es sym hinv hvalid htable hsym
  have htree := hinv.treeOf (hinv.treeValid_of_ctabValid hvalid) htable
  obtain ⟨a, ha, hctab⟩ := hinv.codes hvalid
  have hmax := htree.code_length_le ha (htree.codeOf_mem ha hctab hsym)
  have hpos := List.length_pos_iff.mpr (CodeEntry.len_ne_zero_iff.mp hsym)
  rw [codeOf, CodeEntry.bits_length] at hmax
  rw [CodeEntry.bits_length] at hpos
  omega

/-! ### The Kraft equality -/

/-- The share of a symbol in the Kraft sum, scaled by 2^255 (42_code_table R198). -/
def kraftShare (s : State) (sym : Byte) : Nat :=
  if (ctabAt s.ctab sym).len = 0 then 0 else 2 ^ (255 - (ctabAt s.ctab sym).len.toNat)

/-- A sum over the numbers of all bytes is the sum over those in a list of bytes, each once, when no other byte has a share. -/
theorem sum_range_bytes {l : List Byte} (hnodup : l.Nodup) {f : Byte → Nat} (hzero : ∀ b, b ∉ l → f b = 0) :
    ((List.range 256).map fun k => f (BitVec.ofNat 8 k)).sum = (l.map f).sum := by
  have hall : ((List.range 256).map (BitVec.ofNat 8)).Nodup := by
    refine List.Nodup.of_map BitVec.toNat ?_
    rw [List.map_map, List.map_congr_left (g := id) fun k hk => ?_, List.map_id]
    · exact List.nodup_range
    · exact Nat.mod_eq_of_lt (List.mem_range.mp hk)
  have hmem : ∀ b : Byte, b ∈ (List.range 256).map (BitVec.ofNat 8) := fun b =>
    List.mem_map.mpr ⟨b.toNat, List.mem_range.mpr b.isLt, by simp⟩
  calc ((List.range 256).map fun k => f (BitVec.ofNat 8 k)).sum
      = (((List.range 256).map (BitVec.ofNat 8)).map f).sum := by rw [List.map_map]; rfl
    _ = ((List.range 256).map (BitVec.ofNat 8)).toFinset.sum f := (List.sum_toFinset f hall).symm
    _ = l.toFinset.sum f := (Finset.sum_subset (fun b _ => List.mem_toFinset.mpr (hmem b))
        fun b _ hb => hzero b fun h => hb (List.mem_toFinset.mpr h)).symm
    _ = (l.map f).sum := List.sum_toFinset f hnodup

/-- Settles O46: the shares of the leaves of the tree, symbol by symbol. -/
theorem kraftEquality : Obligations.KraftEquality := by
  intro s hinv hvalid hmulti
  obtain ⟨es, htree⟩ := hinv.tree (hinv.treeValid_of_ctabValid hvalid)
  obtain ⟨a, ha, hctab⟩ := hinv.codes hvalid
  have hvisited := htree.visited_of_codeAssignments ha hmulti
  have hsyms : (a.map Prod.fst).Nodup := hvisited.nodup.map_on fun x hx y hy hxy =>
    Prod.ext hxy (htree.code_unique ha hx (by rw [hxy]; exact hy))
  have hnone : ∀ sym, sym ∉ a.map Prod.fst → kraftShare s sym = 0 := fun sym hsym =>
    if_pos (not_not.mp fun hlen => hsym (List.mem_map.mpr ⟨_, htree.codeOf_mem ha hctab hlen, rfl⟩))
  have hshare : ∀ x ∈ a, kraftShare s x.1 = 2 ^ (255 - x.2.length) := fun x hx => by
    have hcode : (ctabAt s.ctab x.1).bits = x.2 := (htree.codeOf_eq_iff ha hctab (htree.code_ne_nil ha hx)).mpr hx
    rw [kraftShare, if_neg ((htree.len_ne_zero_iff ha hctab).mpr ⟨x.2, hx⟩), ← CodeEntry.bits_length, hcode]
  calc ((List.range 256).map fun k => kraftShare s (BitVec.ofNat 8 k)).sum
      = ((a.map Prod.fst).map (kraftShare s)).sum := sum_range_bytes hsyms hnone
    _ = (a.map fun x => 2 ^ (255 - x.2.length)).sum := 
        congrArg List.sum (List.map_map.trans (List.map_congr_left hshare))
    _ = 2 ^ 255 := hvisited.kraft (m := 255) (Nat.le_refl _)

end Sys2Proof.Machine
end

section
/-! PROOFS. DECODE of a whole stream: its walk over the bytes of the input as a walk over their data bits (44_decoder R234), and
the state it ends in when that walk ends at the root (R238). -/

namespace Sys2Proof.Machine

/-! ### The output in OBUF -/

/-- Bytes written from address 0 on read back (43_packer R217, 44_decoder R238). -/
theorem Memory.read_writeBytes_of_lt (m : Memory) {vs : List Byte} {a : Nat} (ha : a < vs.length) :
    (m.writeBytes 0 vs).read a = some vs[a] :=
  (read_writeBytes m 0 vs a).trans (dif_pos ⟨Nat.zero_le a, ha⟩)

/-- Bytes written from address 0 on leave the addresses beyond them alone (43_packer R217, 44_decoder R239). -/
theorem Memory.read_writeBytes_of_le (m : Memory) {vs : List Byte} {a : Nat} (ha : vs.length ≤ a) :
    (m.writeBytes 0 vs).read a = m.read a :=
  (read_writeBytes m 0 vs a).trans (dif_neg fun h => by omega)

/-! ### The walk over a stream -/

/-- A step of the walk depends on the tree and OBUF_SIZE alone (30_encoding R122). -/
theorem stepBit_congr {s u : State} (hparams : u.params = s.params) (hnode : u.node = s.node) (hroot : u.root = s.root)
    (hsingle : u.singleLeaf = s.singleLeaf) : stepBit u = stepBit s := by
  funext w bit
  simp only [stepBit, stepSingle, stepMulti, emit, readNode, hparams, hnode, hroot, hsingle]

/-- The data bits of the first byte come before those of the others (44_decoder R234). -/
theorem streamBits_cons {p : Nat} (hp : p ≤ 8) (b : Byte) (bytes : List Byte) :
    streamBits p (b :: bytes) = dataBits (bytes.length == 0) p b ++ streamBits p bytes := by
  rw [streamBits, List.flatMap_cons, List.take_append, dataBits, byteBits_length, streamBits, List.length_cons]
  congr 1
  · cases bytes with
    | nil => rfl
    | cons c bytes =>
      rw [List.length_cons, List.take_of_length_le (by rw [byteBits_length]; omega)]
      exact (List.take_of_length_le (by simp)).symm
  · congr 1
    omega

/-- The walk over the bytes of the input is the walk over their data bits, one after the other (44_decoder R234). -/
theorem walkBytes_eq_foldlM {s : State} {p i : Nat} (hp : p ≤ 8) {bytes : List Byte}
    (hbytes : ∀ j (h : j < bytes.length), s.ibuf.read (i + j) = some bytes[j]) (w : Walk) :
    walkBytes s p i bytes.length w = (streamBits p bytes).foldlM (stepBit s) w := by
  induction bytes generalizing i w with
  | nil => rw [streamBits, List.flatMap_nil, List.take_nil]; rfl
  | cons b bytes ih =>
    have hread : s.ibuf.read i = some b := hbytes 0 (by simp)
    rw [List.length_cons, walkBytes, readIbuf_eq_ok.mpr hread, orFault_ok, ok_bind, streamBits_cons hp, List.foldlM_append]
    refine bind_congr fun w' => ih (fun j hj => ?_) w'
    have := hbytes (j + 1) (by simpa using hj)
    rwa [Nat.add_right_comm, Nat.add_assoc]

/-- `s` after a DECODE that gives `syms` (44_decoder R238). -/
def afterDecode (syms : List Byte) (s : State) : State :=
  complete { s with obuf := s.obuf.writeBytes 0 syms, outLen := BitVec.ofNat 32 syms.length }

/-- DECODE of a written stream whose data bits walk to `syms` and back to the root completes (44_decoder R233 to R238). -/
theorem exec_decode_of_emitAll {s : State} {bytes syms : List Byte} (hchecks : decodeChecks s = .ok ())
    (hin : HoldsInput s bytes)
    (hfold : (streamBits s.padIn.toNat bytes).foldlM (stepBit s) (startWalk s) = .ok ((startWalk s).emitAll s.root syms)) :
    exec .decode s = .next (afterDecode syms s) := by
  obtain ⟨-, hpad, -⟩ := decodeChecks_eq_ok.mp hchecks
  have hwalk : walkBytes s s.padIn.toNat 0 s.inLen.toNat (startWalk s) = .ok ((startWalk s).emitAll s.root syms) := by
    rw [hin.1, walkBytes_eq_foldlM (by omega) (by simpa using hin.2), hfold]
  rw [exec, execDecode, decodeBody_eq_ok.mpr ⟨hchecks, _, hwalk, .inr rfl, rfl⟩, finishCommand_ok]
  simp [afterDecode, Walk.emitAll, startWalk]

end Sys2Proof.Machine
end

section
/-! PROOFS. The packer: the bytes PACK writes and the state it ends in (43_packer R213 to R217), its checks in order (R211,
R212, R216), and that DECODE of its output gives back the input (R218 (b)). -/

namespace Sys2Proof.Machine

/-! ### The packed bytes -/

theorem packedBytes_length (bits : BitString) : (packedBytes bits).length = (bits.length + 7) / 8 := by
  have h := eight_mul_packedBytes bits
  rw [padCount] at h
  omega

/-- The packed bytes hold the bits in stream order, MSB-first, and zero bits after them (43_packer R214, R215). -/
theorem packedBytes_getLsbD (bits : BitString) {k j : Nat} (hk : k < (packedBytes bits).length) (hj : j < 8) :
    (packedBytes bits)[k].getLsbD (7 - j) = bits[8 * k + j]?.getD false := by
  have hlen : (packedBytes bits).length = (padded bits).length / 8 := packBytes_length _ _
  have hbyte : (packedBytes bits)[k] = packByte (((padded bits).drop (8 * k)).take 8) := packBytes_getElem _ _ k hk
  rw [hbyte, packByte_getLsbD _ (by rw [List.length_take, List.length_drop]; omega) j hj, List.getElem?_take_of_lt hj,
    List.getElem?_drop, padded]
  rcases Nat.lt_or_ge (8 * k + j) bits.length with h | h
  · rw [List.getElem?_append_left h]
  · rw [List.getElem?_append_right h, List.getElem?_replicate, List.getElem?_eq_none h]
    split <;> rfl

/-- The data bits of the packed bytes with their padding are the bits packed (43_packer R214, 44_decoder R234). -/
theorem streamBits_packedBytes (bits : BitString) : streamBits (padCount bits.length) (packedBytes bits) = bits := by
  have hlen : 8 * (packedBytes bits).length - padCount bits.length = bits.length := by
    rw [eight_mul_packedBytes, Nat.add_sub_cancel]
  rw [streamBits, flatMap_byteBits_packedBytes, hlen, List.take_left]

/-! ### PACK completes -/

/-- `s` after PACK of an input whose codes are `bits` in sequence (43_packer R217). -/
def afterPack (bits : BitString) (s : State) : State :=
  complete { s with
    obuf := s.obuf.writeBytes 0 (packedBytes bits)
    outLen := BitVec.ofNat 32 (packedBytes bits).length
    padOut := BitVec.ofNat 3 (padCount bits.length) }

theorem afterPack_padOut_toNat (bits : BitString) (s : State) : (afterPack bits s).padOut.toNat = padCount bits.length :=
  Nat.mod_eq_of_lt (padCount_lt _)

/-- OUT_LEN holds the number of packed bytes, since OBUF_SIZE is a 32-bit number (00_scope R7). -/
theorem afterPack_outLen_toNat {bits : BitString} {s : State} (hlegal : s.params.Legal)
    (hfits : (packedBytes bits).length ≤ s.params.obufSize) :
    (afterPack bits s).outLen.toNat = (packedBytes bits).length :=
  Nat.mod_eq_of_lt (hfits.trans_lt hlegal.2.2)

section
variable {s : State} {bytes : List Byte} (hcodes : s.ctabValid = true) (hlen : s.inLen.toNat ≤ s.params.ibufSize)
  (hin : HoldsInput s bytes) (hcoded : ∀ b ∈ bytes, (ctabAt s.ctab b).len ≠ 0)
include hcodes hlen hin hcoded

/-- PACK of a coded input whose packed codes fit OBUF completes (43_packer R217). -/
theorem exec_pack_of_coded (hfits : (packedBytes (bytes.flatMap (codeOf s))).length ≤ s.params.obufSize) :
    exec .pack s = .next (afterPack (bytes.flatMap (codeOf s)) s) := by
  rw [exec, execPack, packBody_eq_ok.mpr ⟨hcodes, hlen, bytes, hin, hcoded, hfits, rfl⟩, finishCommand_ok, afterPack]

/-- A coded input whose packed codes do not fit OBUF stops PACK at its last check (43_packer R216). -/
theorem packBody_overflow (hlong : s.params.obufSize < (packedBytes (bytes.flatMap (codeOf s))).length) :
    packBody s = .error (.cmdError .outOverflow) := by
  have hinput : inputCodes s 0 s.inLen.toNat = .ok (bytes.map (codeOf s)) :=
    inputCodes_eq_ok.mpr ⟨bytes, hin.1.symm, by simpa using hin.2, hcoded, rfl⟩
  rw [List.flatMap_def] at hlong
  rw [packBody, raiseIf_false (by simp [hcodes]), ok_bind, checkInLen_eq_ok (u := ()).mpr hlen, ok_bind, hinput, ok_bind]
  exact bind_eq_error.mpr (.inl (raiseIf_eq_error.mpr ⟨hlong, rfl⟩))

end

/-- When PACK ends with no error recorded, its input was coded and fits, and it ends in the state of R217. -/
theorem exec_pack_without_error {s t : State} (hexec : exec .pack s = .next t) (hok : t.errCode = none) :
    ∃ bytes, HoldsInput s bytes ∧ (∀ b ∈ bytes, (ctabAt s.ctab b).len ≠ 0) ∧
      (packedBytes (bytes.flatMap (codeOf s))).length ≤ s.params.obufSize ∧
      t = afterPack (bytes.flatMap (codeOf s)) s := by
  rcases finishCommand_eq_next.mp hexec with ⟨u, hu, rfl⟩ | ⟨c, -, rfl⟩
  · obtain ⟨-, -, bytes, hin, hcoded, hfits, rfl⟩ := packBody_eq_ok.mp hu
    exact ⟨bytes, hin, hcoded, hfits, rfl⟩
  · cases hok

/-- Settles O47: OBUF holds the packed bytes of the codes, and nothing else but OUT_LEN and PAD_OUT changes. -/
theorem packCompletes : Obligations.PackCompletes := by
  rintro s bytes bits hlegal hcodes hlen hin hcoded rfl hroom
  rw [← packedBytes_length] at hroom
  have houtLen := afterPack_outLen_toNat hlegal hroom
  refine ⟨_, exec_pack_of_coded hcodes hlen hin hcoded hroom, rfl, houtLen.trans (packedBytes_length _),
    afterPack_padOut_toNat _ s, ?_, ?_, ?_, fun a => rfl⟩
  · rw [houtLen, eight_mul_packedBytes, afterPack_padOut_toNat]
  · rw [houtLen]
    exact fun k hk => ⟨_, Memory.read_writeBytes_of_lt s.obuf hk, fun j hj => packedBytes_getLsbD _ hk hj⟩
  · rw [houtLen]
    exact fun a ha => Memory.read_writeBytes_of_le s.obuf ha

/-! ### PACK's checks -/

/-- The state a failed PACK leaves (43_packer R211, 60_exceptions R285). -/
theorem exec_pack_of_cmdError {s : State} {c : CmdError} (h : packBody s = .error (.cmdError c)) :
    exec .pack s = .next { failedWith c s with outLen := 0, padOut := 0 } := by
  rw [exec, execPack, h]
  rfl

/-- The codes of the input are cut short by a byte without one, when those before it were written (43_packer R212). -/
theorem inputCodes_uncoded {s : State} {i : Nat} {b : Byte} (hi : s.ibuf.read i = some b) (hb : (ctabAt s.ctab b).len = 0)
    {a n : Nat} (ha : a ≤ i) (hn : i < a + n) (hbefore : ∀ j, a ≤ j → j < i → s.ibuf.read j ≠ none) :
    inputCodes s a n = .error (.cmdError .uncodedSymbol) := by
  induction n generalizing a with
  | zero => omega
  | succ n ih =>
    rw [inputCodes]
    rcases Nat.eq_or_lt_of_le ha with rfl | hlt
    · rw [readIbuf_eq_ok.mpr hi, orFault_ok, ok_bind, raiseIf_true hb]
      rfl
    · obtain ⟨b', hb'⟩ := Option.ne_none_iff_exists'.mp (hbefore a (Nat.le_refl a) hlt)
      rw [readIbuf_eq_ok.mpr hb', orFault_ok, ok_bind]
      by_cases huncoded : (ctabAt s.ctab b').len = 0
      · rw [raiseIf_true huncoded]
        rfl
      · rw [raiseIf_false huncoded, ok_bind, ih hlt (by omega) fun j hj => hbefore j (by omega)]
        rfl

/-- Settles O48: each check in turn, after those before it have passed. -/
theorem packRejects : Obligations.PackRejects := by
  refine fun s => ⟨fun hnone => exec_pack_of_cmdError ?_, fun hcodes hlong => exec_pack_of_cmdError ?_,
    fun a b hcodes hlen hlt ha hb hbefore => exec_pack_of_cmdError ?_,
    fun bytes hcodes hlen hin hcoded hlong =>
      exec_pack_of_cmdError (packBody_overflow hcodes hlen hin hcoded (packedBytes_length _ ▸ hlong))⟩
  · rw [packBody, raiseIf_true hnone]
    rfl
  · rw [packBody, raiseIf_false (by simp [hcodes]), ok_bind, checkInLen_eq_error.mpr ⟨hlong, rfl⟩]
    rfl
  · rw [packBody, raiseIf_false (by simp [hcodes]), ok_bind, checkInLen_eq_ok (u := ()).mpr hlen, ok_bind,
      inputCodes_uncoded ha hb (Nat.zero_le a) (by omega) fun j _ => hbefore j]
    rfl

/-! ### DECODE inverts PACK -/

section
variable {s : State} (hinv : Inv s) (hcodes : s.ctabValid = true)
include hinv hcodes

/-- The walk over the code of a symbol emits that symbol and returns to the root, while OBUF has room (42_code_table R196 (c),
44_decoder R235, R236). -/
theorem foldlM_stepBit_codeOf {b : Byte} (hb : (ctabAt s.ctab b).len ≠ 0) {w : Walk} (hw : w.cursor = s.root)
    (hroom : w.count < s.params.obufSize) : (codeOf s b).foldlM (stepBit s) w = .ok (w.emitAll s.root [b]) := by
  obtain ⟨es, htree⟩ := hinv.tree (hinv.treeValid_of_ctabValid hcodes)
  obtain ⟨htable, -⟩ := checkedTable_eq_ok.mp htree.table
  obtain ⟨-, -, hleads⟩ := codesAreUniquelyDecodable s es hinv hcodes htable
  obtain ⟨hpath, hsole⟩ := hleads b hb
  cases hsingle : s.singleLeaf with
  | false =>
    exact foldlM_stepBit_leafAlong hsingle (CodeEntry.len_ne_zero_iff.mp hb) (hw ▸ hpath hsingle) hroom
  | true =>
    obtain ⟨hleaf, hcode⟩ := hsole hsingle
    obtain ⟨n, hn, -, rfl⟩ := leafAlong_nil_eq_some.mp hleaf
    rw [hcode, foldlM_stepBit_single hsingle hn [false] w hroom, hw]
    rfl

/-- The walk over the codes of bytes emits those bytes in order, while OBUF has room (43_packer R218 (b)). -/
theorem foldlM_stepBit_codes {bytes : List Byte} (hcoded : ∀ b ∈ bytes, (ctabAt s.ctab b).len ≠ 0) {w : Walk}
    (hw : w.cursor = s.root) (hroom : w.count + bytes.length ≤ s.params.obufSize) :
    (bytes.flatMap (codeOf s)).foldlM (stepBit s) w = .ok (w.emitAll s.root bytes) := by
  induction bytes generalizing w with
  | nil => rw [← hw]; rfl
  | cons b bytes ih =>
    rw [List.length_cons] at hroom
    rw [List.flatMap_cons, List.foldlM_append, foldlM_stepBit_codeOf hinv hcodes (hcoded b List.mem_cons_self) hw (by omega),
      ok_bind, ih (fun c hc => hcoded c (List.mem_cons_of_mem b hc)) rfl (by show w.count + 1 + bytes.length ≤ _; omega),
      Walk.emitAll_append]
    rfl

end

/-- A coded input of at least one byte has at least one packed byte (42_code_table R197). -/
theorem packedBytes_codes_length_pos {s : State} {bytes : List Byte} (hcoded : ∀ b ∈ bytes, (ctabAt s.ctab b).len ≠ 0)
    (hne : bytes ≠ []) : 0 < (packedBytes (bytes.flatMap (codeOf s))).length := by
  obtain ⟨b, hb⟩ := List.exists_mem_of_ne_nil bytes hne
  obtain ⟨bit, hbit⟩ : ∃ bit, bit ∈ codeOf s b :=
    List.exists_mem_of_ne_nil _ (CodeEntry.len_ne_zero_iff.mp (hcoded b hb))
  have := List.length_pos_of_mem (List.mem_flatMap.mpr ⟨b, hb, hbit⟩)
  rw [packedBytes_length]
  omega

/-- Settles O55: the data bits of PACK's output are the codes of the input, and the walk over a code emits its symbol. -/
theorem decodeInvertsPack : Obligations.DecodeInvertsPack := by
  intro s t u hinv hcodes _ hexec hok hsize hnonempty hparams hnode hroot htree hsingle hinLen hfit hpadIn hibuf
  obtain ⟨bytes, hin, hcoded, hroom, rfl⟩ := exec_pack_without_error hexec hok
  have houtLen := afterPack_outLen_toNat hinv.params hroom
  rw [houtLen] at hfit hibuf
  have huLen : u.inLen.toNat = (packedBytes (bytes.flatMap (codeOf s))).length := hinLen ▸ houtLen
  have huPad : u.padIn.toNat = padCount (bytes.flatMap (codeOf s)).length := by
    rw [hpadIn, BitVec.toNat_setWidth_of_le (by omega), afterPack_padOut_toNat]
  have huIn : HoldsInput u (packedBytes (bytes.flatMap (codeOf s))) :=
    ⟨huLen, fun a ha => (hibuf a ha).trans (Memory.read_writeBytes_of_lt s.obuf ha)⟩
  have hchecks : decodeChecks u = .ok () := by
    refine decodeChecks_eq_ok.mpr ⟨htree, ?_, huLen ▸ hfit, hnonempty.imp (fun hlen => ?_) hsingle.trans⟩
    · have := padCount_lt (bytes.flatMap (codeOf s)).length
      omega
    · have hne : bytes ≠ [] := by
        rintro rfl
        exact hlen (BitVec.eq_of_toNat_eq hin.1)
      have := packedBytes_codes_length_pos hcoded hne
      omega
  have hfold : (streamBits u.padIn.toNat (packedBytes (bytes.flatMap (codeOf s)))).foldlM (stepBit u) (startWalk u) =
      .ok ((startWalk u).emitAll u.root bytes) := by
    rw [huPad, streamBits_packedBytes, stepBit_congr hparams hnode hroot hsingle, hroot]
    exact foldlM_stepBit_codes hinv hcodes hcoded hroot (by have := hin.1; show 0 + bytes.length ≤ _; omega)
  refine ⟨afterDecode bytes u, exec_decode_of_emitAll hchecks huIn hfold, rfl, ?_, fun a ha => ?_⟩
  · show BitVec.ofNat 32 bytes.length = s.inLen
    rw [← hin.1, BitVec.ofNat_toNat, BitVec.setWidth_eq]
  · rw [hin.1] at ha
    exact (Memory.read_writeBytes_of_lt u.obuf ha).trans (hin.2 a ha).symm

end Sys2Proof.Machine
end

section
/-! PROOFS. The decoder: what stops its pseudocode (44_decoder R231, R232, R238), streams of whole codes and of a single leaf
(R235, R236), streams that fail in the walk (R237, R238), and that a walk over the current tree stays at its internal nodes
(R240 to R242). -/

namespace Sys2Proof.Machine

/-! ### What stops DECODE -/

/-- The first check that fails gives the error (44_decoder R231, R232). -/
theorem decodeChecks_eq_error {s : State} {e : Stop} :
    decodeChecks s = .error e ↔
      s.treeValid = false ∧ e = .cmdError .noTree ∨
      s.treeValid = true ∧ (7 < s.padIn.toNat ∧ e = .cmdError .badPadding ∨
        s.padIn.toNat ≤ 7 ∧ (s.params.ibufSize < s.inLen.toNat ∧ e = .cmdError .badLength ∨
          s.inLen.toNat ≤ s.params.ibufSize ∧
            (s.inLen.toNat = 0 ∧ s.singleLeaf = false) ∧ e = .cmdError .emptyStream)) := by
  simp only [decodeChecks, bind_eq_error, raiseIf_eq_error, raiseIf_eq_ok, checkInLen_eq_error, checkInLen_eq_ok,
    Bool.not_eq_false, gt_iff_lt, Nat.not_lt, exists_const]

/-- DECODE's pseudocode stops at a check, in its walk, or at the end of a walk that is not at the root (44_decoder R231 to
R238). -/
theorem decodeBody_eq_error {s : State} {e : Stop} :
    decodeBody s = .error e ↔ decodeChecks s = .error e ∨ decodeChecks s = .ok () ∧
      (walkBytes s s.padIn.toNat 0 s.inLen.toNat (startWalk s) = .error e ∨
        ∃ w, walkBytes s s.padIn.toNat 0 s.inLen.toNat (startWalk s) = .ok w ∧
          (s.singleLeaf = false ∧ w.cursor ≠ s.root) ∧ e = .cmdError .truncatedCode) := by
  simp only [decodeBody, bind_eq_error, raiseIf_eq_error, reduceCtorEq, and_false, exists_const, or_false]
  exact or_congr_right ⟨fun ⟨_, h⟩ => h, fun h => ⟨(), h⟩⟩

/-- The state a failed DECODE leaves (60_exceptions R285). -/
theorem exec_decode_of_cmdError {s : State} {c : CmdError} (h : decodeBody s = .error (.cmdError c)) :
    exec .decode s = .next (decodeFailed c (failedWith c s)) := by
  rw [exec, execDecode, h]
  rfl

theorem decodeFailed_errCode (c : CmdError) (s : State) : (decodeFailed c s).errCode = s.errCode := by
  unfold decodeFailed
  split <;> rfl

/-- After an error in the walk every byte of OBUF counts as written (60_exceptions R285, 93_implementation_defined U4). -/
theorem exec_decode_of_walkError {s : State} {c : CmdError} (hwalk : c.duringWalk = true)
    (h : decodeBody s = .error (.cmdError c)) :
    ∃ m, exec .decode s = .next { failedWith c s with outLen := 0, obuf := m, draws := s.draws + 1 } ∧
      ∀ a, a < s.params.obufSize → m.read a ≠ none := by
  refine ⟨Memory.drawn s.draws 0 s.params.obufSize, ?_, fun a ha => ?_⟩
  · rw [exec_decode_of_cmdError h, decodeFailed, if_pos hwalk]
    rfl
  · rw [Memory.read_drawn, if_pos ⟨Nat.zero_le a, by omega⟩]
    exact Option.some_ne_none _

theorem exec_decode_of_decodeChecks {s : State} {c : CmdError} (hchecks : c.duringWalk = false)
    (h : decodeChecks s = .error (.cmdError c)) : exec .decode s = .next { failedWith c s with outLen := 0 } := by
  rw [exec_decode_of_cmdError (decodeBody_eq_error.mpr (.inl h)), decodeFailed, hchecks]
  rfl

/-- Settles O52: each check in turn, after those before it have passed. -/
theorem decodeRejects : Obligations.DecodeRejects := by
  refine fun s => ⟨fun hnone => ?_, fun htree hpad => ?_, fun htree hpad hlong => ?_, fun htree hpad hzero hmulti => ?_⟩ <;>
    refine exec_decode_of_decodeChecks rfl (decodeChecks_eq_error.mpr ?_)
  · exact .inl ⟨hnone, rfl⟩
  · exact .inr ⟨htree, .inl ⟨hpad, rfl⟩⟩
  · exact .inr ⟨htree, .inr ⟨hpad, .inl ⟨hlong, rfl⟩⟩⟩
  · exact .inr ⟨htree, .inr ⟨hpad, .inr ⟨by omega, ⟨hzero, hmulti⟩, rfl⟩⟩⟩

/-! ### The stream -/

theorem streamBits_length (p : Nat) (bytes : List Byte) : (streamBits p bytes).length = 8 * bytes.length - p := by
  have hbits : (bytes.flatMap byteBits).length = 8 * bytes.length := by
    simp [List.length_flatMap, Nat.mul_comm]
  rw [streamBits, List.length_take, hbits]
  exact Nat.min_eq_left (Nat.sub_le _ _)

section
variable {s : State} {bytes : List Byte} (htree : s.treeValid = true) (hin : HoldsInput s bytes)
  (hlen : bytes.length ≤ s.params.ibufSize) (hpad : s.padIn.toNat ≤ 7)

include htree hin hlen hpad in
/-- A stream that fits IBUF, with at least one byte or for a single leaf, passes DECODE's checks (44_decoder R231, R232). -/
theorem decodeChecks_of_holdsInput (hne : bytes ≠ [] ∨ s.singleLeaf = true) : decodeChecks s = .ok () := by
  refine decodeChecks_eq_ok.mpr ⟨htree, hpad, hin.1 ▸ hlen, hne.imp_left fun hne => ?_⟩
  rw [hin.1]
  exact (List.length_pos_of_ne_nil hne).ne'

include hin hpad in
/-- DECODE's walk over a written stream is the walk over its data bits (44_decoder R234). -/
theorem walkBytes_of_holdsInput (w : Walk) :
    walkBytes s s.padIn.toNat 0 s.inLen.toNat w = (streamBits s.padIn.toNat bytes).foldlM (stepBit s) w := by
  rw [hin.1]
  exact walkBytes_eq_foldlM (by omega) (by simpa using hin.2) w

end

/-! ### Streams that decode -/

/-- OUT_LEN holds the number of symbols, since OBUF_SIZE is a 32-bit number (00_scope R7). -/
theorem afterDecode_outLen_toNat {s : State} {syms : List Byte} (hlegal : s.params.Legal)
    (hroom : syms.length ≤ s.params.obufSize) : (afterDecode syms s).outLen.toNat = syms.length :=
  Nat.mod_eq_of_lt (hroom.trans_lt hlegal.2.2)

/-- When a path that is not empty leads from a node to a leaf, no path to a leaf from that node is empty. -/
theorem leafAlong_ne_nil {s : State} {k : BitVec 9} {p q : BitString} {x y : Byte} (hp : leafAlong s k p = some x)
    (hne : p ≠ []) (hq : leafAlong s k q = some y) : q ≠ [] := by
  rintro rfl
  obtain ⟨n, hn, hleaf, -⟩ := leafAlong_nil_eq_some.mp hq
  exact hne ((leafAlong_of_leaf hn hleaf).mp hp).1

/-- Settles O49: the walk over the paths emits their symbols, and none of the paths is empty, since the stream is not. -/
theorem decodeCompletesOnWholeCodes : Obligations.DecodeCompletesOnWholeCodes := by
  intro s bytes words hlegal htree hmulti hin hne hlen hpad hwords hbits hroom
  have hpos := List.length_pos_of_ne_nil hne
  have hstream : words.flatMap Prod.fst ≠ [] := by
    refine List.ne_nil_of_length_pos ?_
    rw [hbits, streamBits_length]
    omega
  have hpaths : ∀ x ∈ words, x.1 ≠ [] ∧ leafAlong s s.root x.1 = some x.2 := by
    obtain ⟨bit, hbit⟩ := List.exists_mem_of_ne_nil _ hstream
    obtain ⟨y, hy, hmem⟩ := List.mem_flatMap.mp hbit
    exact fun x hx => ⟨leafAlong_ne_nil (hwords y hy) (List.ne_nil_of_mem hmem) (hwords x hx), hwords x hx⟩
  have hfold := foldlM_stepBit_words hmulti (w := startWalk s) rfl hpaths (by simpa [startWalk] using hroom)
  have hroom' : (words.map Prod.snd).length ≤ s.params.obufSize := by rwa [List.length_map]
  refine ⟨_, exec_decode_of_emitAll (decodeChecks_of_holdsInput htree hin hlen hpad (.inl hne)) hin (hbits ▸ hfold), rfl,
    (afterDecode_outLen_toNat hlegal hroom').trans (List.length_map _), fun k hk => ?_, fun a ha => ?_, fun _ => rfl⟩
  · exact (Memory.read_writeBytes_of_lt s.obuf (by rwa [List.length_map])).trans (by rw [List.getElem_map])
  · exact Memory.read_writeBytes_of_le s.obuf (by rwa [List.length_map])

/-- Settles O50: each data bit emits the one symbol. -/
theorem decodeCompletesOnASingleLeaf : Obligations.DecodeCompletesOnASingleLeaf := by
  intro s bytes n hlegal htree hsingle hin hlen hpad hn hroom
  rw [← streamBits_length] at hroom ⊢
  have hfold := foldlM_stepBit_single hsingle hn (streamBits s.padIn.toNat bytes) (startWalk s)
    (by simpa [startWalk] using hroom)
  have hcount : (List.replicate (streamBits s.padIn.toNat bytes).length n.sym).length =
    (streamBits s.padIn.toNat bytes).length := List.length_replicate
  have houtLen := afterDecode_outLen_toNat hlegal (hcount.trans_le hroom)
  refine ⟨_, exec_decode_of_emitAll (decodeChecks_of_holdsInput htree hin hlen hpad (.inr hsingle)) hin hfold, rfl,
    houtLen.trans hcount, fun k hk => ?_, fun a ha => ?_, fun _ => rfl⟩
  · rw [houtLen] at hk
    exact (Memory.read_writeBytes_of_lt s.obuf hk).trans (by rw [List.getElem_replicate])
  · exact Memory.read_writeBytes_of_le s.obuf (houtLen ▸ ha)

/-! ### Streams that fail in the walk -/

/-- No symbol is emitted when OBUF is full (44_decoder R237). -/
theorem emit_of_full {s : State} {w : Walk} (sym : Byte) (h : w.count = s.params.obufSize) :
    emit s sym w = .error (.cmdError .outOverflow) := by
  rw [emit, raiseIf_true h]
  rfl

theorem stepBit_single {s : State} {n : Node} (hs : s.singleLeaf = true) (hn : s.node[s.root.toNat]? = some n) (w : Walk)
    (b : Bool) : stepBit s w b = emit s n.sym w := by
  rw [stepBit, if_pos hs, stepSingle, readNode_eq_ok.mpr hn, orFault_ok, ok_bind]

/-- On a single leaf more bits than OBUF has room for overflow it (44_decoder R236, R237). -/
theorem foldlM_stepBit_single_overflow {s : State} {n : Node} (hs : s.singleLeaf = true)
    (hn : s.node[s.root.toNat]? = some n) {bits : BitString} {w : Walk} (hle : w.count ≤ s.params.obufSize)
    (hlong : s.params.obufSize < w.count + bits.length) :
    bits.foldlM (stepBit s) w = .error (.cmdError .outOverflow) := by
  induction bits generalizing w with
  | nil => exact absurd hlong (by simpa using hle)
  | cons b bits ih =>
    rw [List.length_cons] at hlong
    rw [List.foldlM_cons, stepBit_single hs hn]
    rcases hle.eq_or_lt with hfull | hlt
    · rw [emit_of_full _ hfull, error_bind]
    · rw [emit_of_lt _ hlt, ok_bind]
      exact ih hlt (by show _ < w.count + 1 + bits.length; omega)

theorem internalAlong_nil_eq_some {s : State} {k j : BitVec 9} :
    internalAlong s k [] = some j ↔ (∃ n, s.node[k.toNat]? = some n ∧ n.leaf = false) ∧ k = j := by
  simp [internalAlong, Option.bind_eq_some_iff, ← and_assoc]

theorem internalAlong_cons_eq_some {s : State} {k j : BitVec 9} {b : Bool} {p : BitString} :
    internalAlong s k (b :: p) = some j ↔
      ∃ n, s.node[k.toNat]? = some n ∧ n.leaf = false ∧ internalAlong s (childOn n b) p = some j := by
  simp [internalAlong, Option.bind_eq_some_iff]

/-- A path of internal nodes is a path whose last node is internal too. -/
theorem internalAlong_eq_some_iff {s : State} {k j : BitVec 9} {p : BitString} :
    internalAlong s k p = some j ↔ nodeAlong s k p = some j ∧ ∃ n, s.node[j.toNat]? = some n ∧ n.leaf = false := by
  induction p generalizing k with
  | nil =>
    rw [internalAlong_nil_eq_some, nodeAlong, Option.some.injEq, and_comm]
    exact and_congr_right fun h => by rw [h]
  | cons b p ih =>
    simp only [internalAlong_cons_eq_some, nodeAlong_cons_eq_some, ih, ← and_assoc, exists_and_right]

section Multi

variable {s : State} (hs : s.singleLeaf = false)
include hs

/-- A whole path to a leaf comes to emitting that leaf's symbol with the cursor back at the root, whether or not OBUF has room
(44_decoder R235, R237). -/
theorem foldlM_stepBit_leafAlong_eq_emit {p : BitString} {sym : Byte} {w : Walk} (hp : p ≠ [])
    (h : leafAlong s w.cursor p = some sym) : p.foldlM (stepBit s) w = emit s sym { w with cursor := s.root } := by
  obtain ⟨q, b, rfl⟩ : ∃ q b, p = q ++ [b] := ⟨_, _, (List.dropLast_append_getLast hp).symm⟩
  obtain ⟨j, m, hj, hm, hmleaf, rfl⟩ := leafAlong_eq_some_iff.mp h
  obtain ⟨i, n, hi, hn, hleaf, rfl⟩ := nodeAlong_concat_eq_some.mp hj
  rw [List.foldlM_append, foldlM_stepBit_internalAlong hs (internalAlong_eq_some_iff.mpr ⟨hi, n, hn, hleaf⟩), ok_bind,
    List.foldlM_cons, stepBit_multi hs hn hleaf hm, if_pos hmleaf]
  exact bind_pure _

/-- More whole paths to leaves than OBUF has room for overflow it (44_decoder R237). -/
theorem foldlM_stepBit_words_overflow {words : List (BitString × Byte)} {w : Walk} (hw : w.cursor = s.root)
    (h : ∀ x ∈ words, x.1 ≠ [] ∧ leafAlong s s.root x.1 = some x.2) (hle : w.count ≤ s.params.obufSize)
    (hlong : s.params.obufSize < w.count + words.length) :
    (words.flatMap Prod.fst).foldlM (stepBit s) w = .error (.cmdError .outOverflow) := by
  induction words generalizing w with
  | nil => exact absurd hlong (by simpa using hle)
  | cons x words ih =>
    rw [List.length_cons] at hlong
    obtain ⟨hne, hx⟩ := h x List.mem_cons_self
    rw [List.flatMap_cons, List.foldlM_append, foldlM_stepBit_leafAlong_eq_emit hs hne (hw ▸ hx)]
    rcases hle.eq_or_lt with hfull | hlt
    · rw [emit_of_full (w := { w with cursor := s.root }) _ hfull, error_bind]
    · rw [emit_of_lt (w := { w with cursor := s.root }) _ hlt, ok_bind]
      exact ih rfl (fun y hy => h y (List.mem_cons_of_mem x hy)) hlt (by show _ < w.count + 1 + words.length; omega)

end Multi

/-- Settles O51: the walk moves on below the last whole code and does not return to the root, or it meets a symbol for which
OBUF has no room. -/
theorem decodeStopsInTheWalk : Obligations.DecodeStopsInTheWalk := by
  constructor
  · intro s bytes words rest htree hmulti hin hne hlen hpad hwords hbits
    have hchecks := decodeChecks_of_holdsInput htree hin hlen hpad (.inl hne)
    have hwalk := walkBytes_of_holdsInput hin hpad (startWalk s)
    rw [← hbits, List.foldlM_append] at hwalk
    constructor
    · intro hroom k hrest hk
      rw [foldlM_stepBit_words hmulti rfl hwords (by simpa [startWalk] using hroom), ok_bind,
        foldlM_stepBit_internalAlong hmulti hrest] at hwalk
      exact exec_decode_of_walkError rfl
        (decodeBody_eq_error.mpr (.inr ⟨hchecks, .inr ⟨_, hwalk, ⟨hmulti, hk⟩, rfl⟩⟩))
    · intro hlong
      rw [foldlM_stepBit_words_overflow hmulti rfl hwords (Nat.zero_le _) (by simpa [startWalk] using hlong),
        error_bind] at hwalk
      exact exec_decode_of_walkError rfl (decodeBody_eq_error.mpr (.inr ⟨hchecks, .inl hwalk⟩))
  · intro s bytes n htree hsingle hin hlen hpad hn hlong
    have hchecks := decodeChecks_of_holdsInput htree hin hlen hpad (.inr hsingle)
    have hwalk := walkBytes_of_holdsInput hin hpad (startWalk s)
    rw [← streamBits_length] at hlong
    rw [foldlM_stepBit_single_overflow hsingle hn (Nat.zero_le _) (by simpa [startWalk] using hlong)] at hwalk
    exact exec_decode_of_walkError rfl (decodeBody_eq_error.mpr (.inr ⟨hchecks, .inl hwalk⟩))

/-! ### Walks over the current tree -/

/-- The cursor is at an internal node of the arena over the table `es`, unless the tree is a single leaf (41_tree_builder
R176). -/
def Walk.OnTree (es : List FtabEntry) (w : Walk) : Prop :=
  es.length ≠ 1 → es.length ≤ w.cursor.toNat ∧ w.cursor.toNat < 2 * es.length - 1

/-- What a part of the walk over the current tree can give: the cursor still on the tree, or no room in OBUF. -/
inductive OnTreeOrFull (es : List FtabEntry) : Except Stop Walk → Prop where
  | onTree {w : Walk} (h : w.OnTree es) : OnTreeOrFull es (.ok w)
  | full : OnTreeOrFull es (.error (.cmdError .outOverflow))

theorem OnTreeOrFull.bind {es : List FtabEntry} {x : Except Stop Walk} {f : Walk → Except Stop Walk} (hx : OnTreeOrFull es x)
    (hf : ∀ w, w.OnTree es → OnTreeOrFull es (f w)) : OnTreeOrFull es (x >>= f) := by
  cases hx with
  | onTree h => exact hf _ h
  | full => exact .full

theorem onTreeOrFull_emit {es : List FtabEntry} {s : State} {w : Walk} (sym : Byte) (hw : w.OnTree es) :
    OnTreeOrFull es (emit s sym w) := by
  by_cases h : w.count = s.params.obufSize
  · rw [emit_of_full _ h]
    exact .full
  · rw [emit_eq_ok.mpr ⟨h, rfl⟩]
    exact .onTree hw

section
variable {s : State} {es : List FtabEntry} (htree : TreeOf s es)
include htree

theorem TreeOf.root_onTree {w : Walk} (hw : w.cursor = s.root) : w.OnTree es := by
  have := htree.root_toNat
  have := htree.goodTable.1
  intro hmulti
  rw [hw]
  omega

/-- A bit moves from an internal node to an internal child, or emits at a leaf and returns to the root (44_decoder R235,
R240). -/
theorem TreeOf.onTreeOrFull_stepBit {w : Walk} (hw : w.OnTree es) (b : Bool) : OnTreeOrFull es (stepBit s w b) := by
  cases hsingle : s.singleLeaf with
  | true =>
    rw [stepBit_single hsingle (htree.node_getElem? htree.root_lt)]
    exact onTreeOrFull_emit _ hw
  | false =>
    have hmulti : es.length ≠ 1 := by simpa [hsingle] using htree.singleLeaf
    obtain ⟨hge, hlt⟩ := hw hmulti
    have hchild := htree.huffmanArena.childOn_lt hge hlt b
    rw [stepBit_multi hsingle (htree.node_getElem? hlt) (htree.huffmanArena.sums _ hge hlt).1
      (htree.node_getElem? (hchild.trans hlt))]
    split
    · exact onTreeOrFull_emit _ (htree.root_onTree rfl)
    · next hleaf =>
      rw [htree.huffmanArena.leaf_iff (hchild.trans hlt), Nat.not_lt] at hleaf
      exact .onTree fun _ => ⟨hleaf, hchild.trans hlt⟩

theorem TreeOf.onTreeOrFull_foldlM {w : Walk} (hw : w.OnTree es) (bits : BitString) :
    OnTreeOrFull es (bits.foldlM (stepBit s) w) := by
  induction bits generalizing w with
  | nil => exact .onTree hw
  | cons b bits ih =>
    rw [List.foldlM_cons]
    exact (htree.onTreeOrFull_stepBit hw b).bind fun _ => ih

/-- A walk over the current tree stops only where OBUF has no room, or at a byte that nothing has written (44_decoder R240). -/
theorem TreeOf.walkBytes_error {p i n : Nat} {w : Walk} {e : Stop} (hw : w.OnTree es)
    (h : walkBytes s p i n w = .error e) : e = .cmdError .outOverflow ∨ ∃ a, e = .fault (.unwrittenIbuf a) := by
  induction n generalizing i w with
  | zero => cases h
  | succ n ih =>
    rcases bind_eq_error.mp h with h | ⟨b, -, h⟩
    · obtain ⟨f, hf, rfl⟩ := orFault_eq_error.mp h
      exact .inr ⟨i, by rw [(readIbuf_eq_error.mp hf).2]⟩
    · have hbits := htree.onTreeOrFull_foldlM hw (dataBits (n == 0) p b)
      generalize (dataBits (n == 0) p b).foldlM (stepBit s) w = x at h hbits
      cases hbits with
      | onTree hw' => exact ih hw' h
      | full =>
        cases h
        exact .inl rfl

end

/-- What stops DECODE under the invariant is neither a descent past a leaf nor an arena no BUILD makes (44_decoder R240). -/
theorem Inv.decodeBody_error {s : State} (hinv : Inv s) {e : Stop} (h : decodeBody s = .error e) :
    e ≠ .cmdError .descendPastLeaf ∧ e ≠ .fault .arenaCorrupt := by
  rcases decodeBody_eq_error.mp h with hchecks | ⟨hchecks, hwalk | ⟨w, -, -, rfl⟩⟩
  · rcases decodeChecks_eq_error.mp hchecks with ⟨-, rfl⟩ | ⟨-, ⟨-, rfl⟩ | ⟨-, ⟨-, rfl⟩ | ⟨-, -, rfl⟩⟩⟩ <;> simp
  · obtain ⟨es, htree⟩ := hinv.tree (decodeChecks_eq_ok.mp hchecks).1
    rcases htree.walkBytes_error (htree.root_onTree rfl) hwalk with rfl | ⟨a, rfl⟩ <;> simp
  · simp

/-- GENCODES ends with a next state under the invariant (42_code_table R191, R195). -/
theorem Inv.exec_genCodes {s : State} (hinv : Inv s) : ∃ t, exec .genCodes s = .next t := by
  cases hvalid : s.treeValid with
  | true =>
    obtain ⟨t, ht, -⟩ := genCodesCompletes s hinv hvalid
    exact ⟨t, ht⟩
  | false => exact ⟨_, (genCodesNeedsATree s hvalid).1⟩

/-- Settles O53: DECODE reads internal nodes of the current tree alone, and GENCODES ends. -/
theorem decodeNeverDescendsPastALeaf : Obligations.DecodeNeverDescendsPastALeaf := by
  intro s hinv hok
  refine ⟨fun t hexec => ?_, fun hfault => ?_, fun hfault => ?_⟩
  · rcases finishCommand_eq_next.mp hexec with ⟨u, hu, rfl⟩ | ⟨c, hc, rfl⟩
    · obtain ⟨-, w, -, -, rfl⟩ := decodeBody_eq_ok.mp hu
      show s.errCode ≠ _
      simp [hok]
    · rw [decodeFailed_errCode]
      intro heq
      exact (hinv.decodeBody_error hc).1 (congrArg Stop.cmdError (Option.some.inj heq))
  · exact (hinv.decodeBody_error (finishCommand_eq_fault.mp hfault)).2 rfl
  · obtain ⟨t, ht⟩ := hinv.exec_genCodes
    rw [ht] at hfault
    cases hfault

/-- Each bit emits at most one byte (44_decoder R242). -/
theorem foldlM_stepBit_count_le {s : State} {bits : BitString} {w w' : Walk} (h : bits.foldlM (stepBit s) w = .ok w') :
    w'.count ≤ w.count + bits.length := by
  induction bits generalizing w with
  | nil => obtain rfl := Except.ok.inj h; exact Nat.le_refl _
  | cons b bits ih =>
    rw [List.foldlM_cons, bind_eq_ok] at h
    obtain ⟨w1, h1, h2⟩ := h
    have hrest := ih h2
    have hstep : w1.count ≤ w.count + 1 := by
      rcases stepBit_eq_ok h1 with ⟨c, rfl⟩ | ⟨c, sym, -, rfl⟩
      · exact Nat.le_succ _
      · exact Nat.le_refl _
    rw [List.length_cons]
    omega

/-- Settles O54: the walk over the data bits overflows OBUF or ends on the tree, at the root or not. -/
theorem decodeOfAnyStreamEnds : Obligations.DecodeOfAnyStreamEnds := by
  intro s bytes hinv hok hvalid hin hlen hpad hne
  obtain ⟨es, htree⟩ := hinv.tree hvalid
  have hchecks := decodeChecks_of_holdsInput hvalid hin hlen hpad hne
  have hwalk := walkBytes_of_holdsInput hin hpad (startWalk s)
  have hstay := htree.onTreeOrFull_foldlM (htree.root_onTree (w := startWalk s) rfl) (streamBits s.padIn.toNat bytes)
  generalize hfold : (streamBits s.padIn.toNat bytes).foldlM (stepBit s) (startWalk s) = x at hwalk hstay
  cases hstay with
  | full =>
    exact ⟨_, exec_decode_of_cmdError (decodeBody_eq_error.mpr (.inr ⟨hchecks, .inl hwalk⟩)),
      .inr (.inr (decodeFailed_errCode _ _))⟩
  | @onTree w _ =>
    by_cases htrunc : s.singleLeaf = false ∧ w.cursor ≠ s.root
    · exact ⟨_, exec_decode_of_cmdError (decodeBody_eq_error.mpr (.inr ⟨hchecks, .inr ⟨w, hwalk, htrunc, rfl⟩⟩)),
        .inr (.inl (decodeFailed_errCode _ _))⟩
    · have hend : s.singleLeaf = true ∨ w.cursor = s.root := by
        rwa [not_and_or, Bool.not_eq_false, not_not] at htrunc
      refine ⟨_, finishCommand_eq_next.mpr (.inl ⟨_, decodeBody_eq_ok.mpr ⟨hchecks, w, hwalk, hend, rfl⟩, rfl⟩),
        .inl ⟨hok, ?_⟩⟩
      have hcount := foldlM_stepBit_count_le hfold
      rw [streamBits_length] at hcount
      exact (Nat.mod_le _ _).trans (hcount.trans_eq (Nat.zero_add _))

end Sys2Proof.Machine
end

section
/-! PROOFS. The control commands NOP and SOFT_RESET, and ILLEGAL, the outcome of a word that names no command (45_control). -/

namespace Sys2Proof.Machine

/-! ### ILLEGAL -/

/-- The words that name no command, their fields overlapping freely (30_encoding R126 to R128). -/
theorem exists_decode_eq_error {p : Params} {w : Word} :
    (∃ e, decode p w = .error e) ↔
      reservedOf w ≠ 0 ∨ opcodeMap (opcodeOf w) = none ∨ ((opcodeOf w).toNat = 0x01 ∧ p.hasCounter = false) := by
  constructor
  · rintro ⟨e, he⟩
    rcases decode_eq_error.mp he with ⟨-, hr⟩ | ⟨-, -, ho⟩ | ⟨-, rfl, hc⟩
    · exact .inl hr
    · exact .inr (.inl ho)
    · exact .inr (.inr ⟨by rw [opcodeOf_encode]; rfl, hc⟩)
  · intro h
    by_cases hr : reservedOf w = 0
    · rcases h with hne | ho | ⟨ho, hc⟩
      · exact absurd hr hne
      · exact ⟨_, decode_eq_error.mpr (.inr (.inl ⟨rfl, hr, ho⟩))⟩
      · have hcount : opcodeOf w = opcodeByte .count := BitVec.eq_of_toNat_eq ho
        have hw : w = encode .count := eq_encode_iff.mpr ⟨hr, opcodeMap_eq_some.mpr hcount⟩
        exact ⟨_, decode_eq_error.mpr (.inr (.inr ⟨rfl, hw, hc⟩))⟩
    · exact ⟨_, decode_eq_error.mpr (.inl ⟨rfl, hr⟩)⟩

/-- The engine executes a word that names no command as ILLEGAL (30_encoding R125, 45_control R263). -/
theorem engineStep_of_decode_error {s : State} {e : IllegalWord} (h : decode s.params s.pending = .error e) :
    engineStep s = .next (failedWith .illegalCmd s) := by
  rw [engineStep, fetchCommand, h]
  rfl

/-- Settles O5: PENDING decodes to no command, so the engine step is ILLEGAL's. -/
theorem illegalWordsRaiseIllegalCmd : Obligations.IllegalWordsRaiseIllegalCmd := by
  intro s hmoves hillegal
  obtain ⟨e, he⟩ : ∃ e, decode s.params s.pending = .error e :=
    exists_decode_eq_error.mpr (by rwa [opcodeMap_eq_none, or_assoc])
  rw [step_eq_engineStep hmoves, engineStep_of_decode_error he]

/-! ### NOP and SOFT_RESET -/

/-- NOP is `complete()` alone (45_control R260). -/
theorem exec_nop (s : State) : exec .nop s = .next (complete s) := rfl

/-- SOFT_RESET completes with the registers of its rule reset (45_control R262). -/
theorem exec_softReset (s : State) : exec .softReset s = .next (complete (softReset s)) := rfl

/-- Settles O33: neither command can fail, and the two states are those its statement writes out. -/
theorem nopAndSoftResetComplete : Obligations.NopAndSoftResetComplete := fun s => ⟨exec_nop s, exec_softReset s⟩

end Sys2Proof.Machine
end

section
/-! PROOFS. The end of a command (60_exceptions): what every command leaves, the interrupt, and a command that fails: the state
it leaves and why it fails again. -/

namespace Sys2Proof.Machine

/-! ### Every command -/

/-- Settles O6: by cases on how a command's pseudocode can end. -/
theorem everyCommandEndsItsStep : Obligations.EveryCommandEndsItsStep := by
  intro i s t h
  cases execResult_of_exec h with
  | softReset => exact ⟨rfl, rfl, .inl ⟨rfl, rfl⟩, rfl, rfl, rfl, rfl, rfl, rfl, absurd rfl⟩
  | nop | count | build | genCodes | output =>
    exact ⟨rfl, rfl, .inl ⟨rfl, rfl⟩, rfl, rfl, rfl, rfl, rfl, rfl, fun _ => rfl⟩
  | buildFailed c | failed c | outputFailed _ c | walkFailed c =>
    exact ⟨rfl, rfl, .inr ⟨c, rfl, rfl⟩, rfl, rfl, rfl, rfl, rfl, rfl, fun _ => rfl⟩

/-! ### The interrupt -/

theorem ExecResult.done_eq {s t : State} {i : Instr} (he : ExecResult s i t) : t.done = true := by
  cases he <;> rfl

/-- Every engine step ends with DONE = 1, also that of a word that names no command (60_exceptions R284, R285). -/
theorem engineStep_done {s t : State} (h : engineStep s = .next t) : t.done = true := by
  cases hdec : decode s.params s.pending with
  | ok i =>
    rw [engineStep, fetchCommand, hdec] at h
    exact (execResult_of_exec h).done_eq
  | error e =>
    rw [engineStep_of_decode_error hdec] at h
    cases h
    rfl

/-- The operations after which irq may be low: the host clears DONE, writes CMD or writes IRQ_EN = 0, or the platform resets the
block (10_state R26, R27, R30, 70_reset_and_hazards R320). -/
def HostOp.MayLowerIrq (op : HostOp) : Prop :=
  (∃ w, op = .access (.write Reg.clear.offset w) ∧ w.getLsbD 0 = true) ∨
    (∃ w, op = .access (.write Reg.cmd.offset w)) ∨
    (∃ w, op = .access (.write Reg.ctrl.offset w) ∧ w.getLsbD 0 = false) ∨ op = .hardwareReset

theorem irq_eq_true {s : State} : irq s = true ↔ s.irqEn = true ∧ s.done = true := Bool.and_eq_true_iff

/-- No other operation of the host lowers irq (60_exceptions R290). -/
theorem HostEffect.irq_or_mayLowerIrq {s t : State} {op : HostOp} (he : HostEffect s op t) (hirq : irq s = true) :
    irq t = true ∨ op.MayLowerIrq := by
  obtain ⟨hen, hdone⟩ := irq_eq_true.mp hirq
  cases he with
  | registers ht | table ht => rw [ht]; exact .inl hirq
  | ibufData => exact .inl hirq
  | ctrl w =>
    cases hw : w.getLsbD 0 with
    | true => exact .inl (irq_eq_true.mpr ⟨rfl, hdone⟩)
    | false => exact .inr (.inr (.inr (.inl ⟨w, rfl, hw⟩)))
  | accept w => exact .inr (.inr (.inl ⟨w, rfl⟩))
  | clear w =>
    cases hw : w.getLsbD 0 with
    | true => exact .inr (.inl ⟨w, rfl, hw⟩)
    | false => exact .inl (irq_eq_true.mpr ⟨hen, by rw [clearStatus, hdone, hw]; rfl⟩)
  | reset => exact .inr (.inr (.inr (.inr rfl)))

/-- Under the invariant a block with DONE = 1 has no command pending (10_state R26). -/
theorem Inv.idle_of_done {s : State} (hinv : Inv s) (hdone : s.done = true) : s.busy = false := by
  rw [← Bool.not_eq_true]
  intro busy
  exact Bool.false_ne_true ((hinv.accepted busy).1.symm.trans hdone)

/-- Settles O29: the engine step sets DONE, and while irq is high no command is pending, so a step is the host's. -/
theorem irqFollowsCompletion : Obligations.IrqFollowsCompletion := by
  refine ⟨fun s => rfl, fun s t hmoves h => ?_, fun s t hinv hirq h => ?_⟩
  · rw [step_eq_engineStep hmoves] at h
    rw [irq, engineStep_done h, Bool.and_true]
  · have idle := hinv.idle_of_done (irq_eq_true.mp hirq).2
    have hturn : engineTurn s ≠ true := fun hE => Bool.false_ne_true (idle.symm.trans (engineTurn_busy hE))
    rcases step_effect h with ⟨hE, -⟩ | ⟨hE, -⟩ | rfl | ⟨-, op, rest, hq, he⟩
    · exact absurd hE hturn
    · exact absurd hE hturn
    · exact .inl hirq
    · exact (he.irq_or_mayLowerIrq hirq).imp_right fun hlow => ⟨op, rest, hq, hlow⟩

/-! ### A command that fails -/

/-- The pseudocode of each command, before the end of its step. -/
def commandBody : Instr → State → Except Stop State
  | .nop, s => .ok s
  | .count, s => if s.params.hasCounter then countBody s else .error (.cmdError .illegalCmd)
  | .build, s => buildBody s
  | .genCodes, s => genCodesBody s
  | .pack, s => packBody s
  | .decode, s => decodeBody s
  | .softReset, s => .ok (softReset s)

/-- What 60_exceptions R285 adds to the error record, for each command. -/
def errorEffect : Instr → CmdError → State → State
  | .build => buildFailed
  | .pack => packFailed
  | .decode => decodeFailed
  | .nop | .count | .genCodes | .softReset => addNothing

/-- Every command is its pseudocode with the end of the step (60_exceptions R284, R285). -/
theorem exec_eq_finishCommand (i : Instr) (s : State) : exec i s = finishCommand (errorEffect i) s (commandBody i s) := by
  cases i with
  | count =>
    rw [exec, execCount, commandBody]
    split <;> rfl
  | nop | build | genCodes | pack | decode | softReset => rfl

/-- Pseudocode that runs to its end records no error. -/
theorem commandBody_errCode {i : Instr} {s u : State} (h : commandBody i s = .ok u) : u.errCode = s.errCode := by
  cases i with
  | nop | softReset => cases h; rfl
  | count =>
    rw [commandBody] at h
    split at h
    · obtain ⟨-, bytes, -, rfl⟩ := countBody_eq_ok.mp h
      rfl
    · cases h
  | build => obtain ⟨es, -, rfl⟩ := buildBody_eq_ok.mp h; rfl
  | genCodes => obtain ⟨-, a, -, rfl⟩ := genCodesBody_eq_ok.mp h; rfl
  | pack => obtain ⟨-, -, bytes, -, -, -, rfl⟩ := packBody_eq_ok.mp h; rfl
  | decode => obtain ⟨-, w, -, -, rfl⟩ := decodeBody_eq_ok.mp h; rfl

/-- After a failed DECODE OUT_LEN is 0, and OBUF and the count of draws are what R285 and U4 make of them. -/
theorem decodeFailed_eq (c : CmdError) (s : State) :
    decodeFailed c s = { s with outLen := 0, obuf := (decodeFailed c s).obuf, draws := (decodeFailed c s).draws } := by
  unfold decodeFailed
  split <;> rfl

@[simp] theorem errorEffect_errCode (i : Instr) (c : CmdError) (s : State) : (errorEffect i c s).errCode = s.errCode := by
  cases i with
  | decode => exact decodeFailed_errCode c s
  | nop | count | build | genCodes | pack | softReset => rfl

@[simp] theorem errorEffect_params (i : Instr) (c : CmdError) (s : State) : (errorEffect i c s).params = s.params := by
  cases i with
  | decode => rw [errorEffect, decodeFailed_eq]
  | nop | count | build | genCodes | pack | softReset => rfl

/-- A command that fails has stopped in its pseudocode, and leaves the error record and what R285 adds (60_exceptions R285). -/
theorem exec_failed {i : Instr} {s t : State} {c : CmdError} (hs : s.errCode = none) (h : exec i s = .next t)
    (ht : t.errCode = some c) :
    commandBody i s = .error (.cmdError c) ∧ t = errorEffect i c (failedWith c s) := by
  rw [exec_eq_finishCommand] at h
  rcases finishCommand_eq_next.mp h with ⟨u, hu, rfl⟩ | ⟨c', hc, rfl⟩
  · rw [complete_errCode, commandBody_errCode hu, hs] at ht
    cases ht
  · rw [errorEffect_errCode] at ht
    cases ht
    exact ⟨hc, rfl⟩

/-- An engine step that ends with an error is ILLEGAL's, or that of a command that fails. -/
theorem engineStep_failed {s t : State} {c : CmdError} (hs : s.errCode = none) (h : engineStep s = .next t)
    (ht : t.errCode = some c) :
    (∃ e, decode s.params s.pending = .error e ∧ c = .illegalCmd ∧ t = failedWith .illegalCmd s) ∨
      ∃ i, decode s.params s.pending = .ok i ∧ commandBody i s = .error (.cmdError c) ∧
        t = errorEffect i c (failedWith c s) := by
  cases hdec : decode s.params s.pending with
  | error e =>
    rw [engineStep_of_decode_error hdec] at h
    cases h
    cases ht
    exact .inl ⟨e, rfl, rfl, rfl⟩
  | ok i =>
    rw [engineStep, fetchCommand, hdec] at h
    exact .inr ⟨i, rfl, exec_failed hs h ht⟩

/-! ### What it changes -/

/-- A word that names no command is not the word of a command that every block has (30_encoding R124). -/
theorem ne_encode_of_decode_error {p : Params} {w : Word} {e : IllegalWord} (h : decode p w = .error e) {i : Instr}
    (hwf : i.wf p = true) : w ≠ encode i := by
  rintro rfl
  rw [decode_encode hwf] at h
  cases h

theorem CmdError.duringWalk_iff {c : CmdError} :
    c.duringWalk = true ↔ c = .outOverflow ∨ c = .truncatedCode ∨ c = .descendPastLeaf := by
  cases c <;> decide

/-- A DECODE that fails in its walk leaves every byte of OBUF written, and one that fails before leaves OBUF as it was
(60_exceptions R285, 93_implementation_defined U4). -/
theorem decodeFailed_obuf (c : CmdError) (s : State) :
    if c = .outOverflow ∨ c = .truncatedCode ∨ c = .descendPastLeaf
    then ∀ a, a < s.params.obufSize → (decodeFailed c s).obuf.read a ≠ none
    else (decodeFailed c s).obuf = s.obuf ∧ (decodeFailed c s).draws = s.draws := by
  simp only [← CmdError.duringWalk_iff]
  unfold decodeFailed
  split
  · intro a ha
    rw [Memory.read_drawn, if_pos ⟨Nat.zero_le a, by omega⟩]
    exact Option.some_ne_none _
  · exact ⟨rfl, rfl⟩

/-- Settles O56: by cases on the command, of which R285 names BUILD, PACK and DECODE. -/
theorem failedCommandsChangeNothingElse : Obligations.FailedCommandsChangeNothingElse := by
  intro s t c hs h ht
  rcases engineStep_failed hs h ht with ⟨e, he, rfl, rfl⟩ | ⟨i, hi, -, rfl⟩
  · have hbuild : s.pending ≠ 2#32 := ne_encode_of_decode_error he (i := .build) rfl
    have hpack : s.pending ≠ 4#32 := ne_encode_of_decode_error he (i := .pack) rfl
    have hdecode : s.pending ≠ 5#32 := ne_encode_of_decode_error he (i := .decode) rfl
    simp [failedWith, hbuild, hpack, hdecode]
  · have hword : s.pending = (opcodeByte i).setWidth 32 := eq_encode_of_decode hi
    cases i with
    | decode =>
      refine ⟨(decodeFailed_eq c _).trans ?_, ?_⟩
      · simp [errorEffect, failedWith, hword, opcodeByte]
      · have hobuf := decodeFailed_obuf c (failedWith c s)
        rw [hword]
        simpa [failedWith, errorEffect, opcodeByte] using hobuf
    | build => simp [errorEffect, buildFailed, invalidateTree, failedWith, hword, opcodeByte]
    | pack => simp [errorEffect, packFailed, failedWith, hword, opcodeByte]
    | nop | count | genCodes | softReset => simp [errorEffect, addNothing, failedWith, hword, opcodeByte]

/-! ### Why it fails again -/

/-- `u` has the operands of `s`: all that the pseudocode of a command other than BUILD looks at until it stops with an error
(30_encoding R122). -/
structure SameOperands (s u : State) : Prop where
  params : u.params = s.params
  inLen : u.inLen = s.inLen
  padIn : u.padIn = s.padIn
  ibuf : u.ibuf = s.ibuf
  treeValid : u.treeValid = s.treeValid
  ctabValid : u.ctabValid = s.ctabValid
  singleLeaf : u.singleLeaf = s.singleLeaf
  root : u.root = s.root
  node : u.node = s.node
  ctab : u.ctab = s.ctab

section
variable {s u : State} (h : SameOperands s u)
include h

theorem SameOperands.checkInLen_eq : checkInLen u = checkInLen s := by
  rw [checkInLen, checkInLen, h.inLen, h.params]

theorem SameOperands.inputCodes_eq (a n : Nat) : inputCodes u a n = inputCodes s a n := by
  induction n generalizing a with
  | zero => rfl
  | succ n ih => simp only [inputCodes, readIbuf, h.ibuf, h.ctab, ih]

theorem SameOperands.decodeChecks_eq : decodeChecks u = decodeChecks s := by
  simp only [decodeChecks, h.treeValid, h.padIn, h.checkInLen_eq, h.inLen, h.singleLeaf]

theorem SameOperands.walkBytes_eq (p i n : Nat) (w : Walk) : walkBytes u p i n w = walkBytes s p i n w := by
  induction n generalizing i w with
  | zero => rfl
  | succ n ih => simp only [walkBytes, readIbuf, h.ibuf, stepBit_congr h.params h.node h.root h.singleLeaf, ih]

end

/-- BUILD's pseudocode stops at its checks of the table alone (41_tree_builder R171). -/
theorem buildBody_eq_error {s : State} {e : Stop} : buildBody s = .error e ↔ checkedTable s = .error e := by
  simp [buildBody, bind_eq_error]

/-- PACK's pseudocode stops for want of codes, at the length of the input, at a byte of it, or at output too long for OBUF
(43_packer R211, R212, R216). -/
theorem packBody_eq_error {s : State} {e : Stop} :
    packBody s = .error e ↔
      s.ctabValid = false ∧ e = .cmdError .noCodes ∨
      s.ctabValid = true ∧ (checkInLen s = .error e ∨
        checkInLen s = .ok () ∧ (inputCodes s 0 s.inLen.toNat = .error e ∨
          ∃ codes, inputCodes s 0 s.inLen.toNat = .ok codes ∧
            s.params.obufSize < (packedBytes codes.flatten).length ∧ e = .cmdError .outOverflow)) := by
  simp only [packBody, bind_eq_error, raiseIf_eq_error, raiseIf_eq_ok, checkInLen_eq_error, checkInLen_eq_ok,
    Bool.not_eq_false, gt_iff_lt, exists_const, reduceCtorEq, and_false, or_false]

/-- A command other than BUILD fails alike from any two states with the same operands. -/
theorem SameOperands.commandBody_error {s u : State} (h : SameOperands s u) {i : Instr} (hi : i ≠ .build) {c : CmdError}
    (hfail : commandBody i s = .error (.cmdError c)) : commandBody i u = .error (.cmdError c) := by
  cases i with
  | build => exact absurd rfl hi
  | nop | softReset => cases hfail
  | count =>
    rw [commandBody] at hfail ⊢
    rw [h.params]
    split at hfail
    · next hcounter => rwa [if_pos hcounter, countBody_eq_cmdError, h.params, h.inLen, ← countBody_eq_cmdError]
    · next hcounter => rwa [if_neg hcounter]
  | genCodes => rwa [commandBody, genCodesBody_eq_cmdError, h.treeValid, ← genCodesBody_eq_cmdError]
  | pack =>
    rwa [commandBody, packBody_eq_error, h.ctabValid, h.checkInLen_eq, h.inputCodes_eq, h.inLen, h.params,
      ← packBody_eq_error]
  | decode =>
    have hstart : startWalk u = startWalk s := by rw [startWalk, startWalk, h.root]
    rwa [commandBody, decodeBody_eq_error, h.decodeChecks_eq, h.walkBytes_eq, hstart, h.padIn, h.inLen, h.singleLeaf, h.root,
      ← decodeBody_eq_error]

/-- Nothing but BUILD loses an operand when it fails, and no acceptance changes one (10_state R26, 60_exceptions R285). -/
theorem sameOperands_latchCommand_errorEffect {i : Instr} (hi : i ≠ .build) (w : Word) (c : CmdError) (s : State) :
    SameOperands s (latchCommand w (errorEffect i c (failedWith c s))) := by
  cases i with
  | build => exact absurd rfl hi
  | decode =>
    rw [errorEffect, decodeFailed_eq]
    exact ⟨rfl, rfl, rfl, rfl, rfl, rfl, rfl, rfl, rfl, rfl⟩
  | nop | count | genCodes | pack | softReset => exact ⟨rfl, rfl, rfl, rfl, rfl, rfl, rfl, rfl, rfl, rfl⟩

/-- A command that failed fails with the same error from the state it left, once accepted again (60_exceptions R289). BUILD
looks at FT_COUNT and FTAB, which it keeps. -/
theorem commandBody_retry {i : Instr} {s : State} {c : CmdError} (w : Word) (hfail : commandBody i s = .error (.cmdError c)) :
    commandBody i (latchCommand w (errorEffect i c (failedWith c s))) = .error (.cmdError c) := by
  by_cases hi : i = .build
  · subst hi
    have htable : checkedTable (latchCommand w (errorEffect .build c (failedWith c s))) = checkedTable s :=
      checkedTable_congr rfl rfl
    rwa [commandBody, buildBody_eq_error, htable, ← buildBody_eq_error]
  · exact (sameOperands_latchCommand_errorEffect hi w c s).commandBody_error hi hfail

/-- Settles O57: the word decodes as before, and its pseudocode stops again with the same error. -/
theorem retryGivesTheSameError : Obligations.RetryGivesTheSameError := by
  intro s t c hs h ht
  rcases engineStep_failed hs h ht with ⟨e, he, rfl, rfl⟩ | ⟨i, hi, hfail, rfl⟩
  · exact ⟨_, engineStep_of_decode_error he, rfl⟩
  · have hdec : decode (latchCommand s.pending (errorEffect i c (failedWith c s))).params s.pending = .ok i := by
      rw [latchCommand_params, errorEffect_params]
      exact hi
    refine ⟨errorEffect i c (failedWith c (latchCommand s.pending (errorEffect i c (failedWith c s)))), ?_,
      errorEffect_errCode i c _⟩
    rw [engineStep, fetchCommand, latchCommand_pending, hdec]
    exact (exec_eq_finishCommand i _).trans (finishCommand_eq_next.mpr (.inr ⟨c, commandBody_retry _ hfail, rfl⟩))

end Sys2Proof.Machine
end

section
/-! PROOFS. Hardware reset (70_reset_and_hazards): what every register holds after it, what it does to a pending command, and
the invariant after it. -/

namespace Sys2Proof.Machine

/-! ### The reset values -/

/-- CAP is one of two words, by HAS_COUNTER (10_state R24). -/
theorem capWord_eq (p : Params) : capWord p = if p.hasCounter then 0x0100FF01 else 0x0100FF00 := by
  rw [capWord]
  cases p.hasCounter <;> rfl

/-- The fields of CAP (10_state R24). -/
theorem capWord_fields (p : Params) :
    (capWord p).getLsbD 0 = p.hasCounter ∧ (capWord p).extractLsb' 1 7 = 0 ∧ (capWord p).extractLsb' 8 8 = 0xFF ∧
      (capWord p).extractLsb' 16 16 = 0x0100 := by
  rw [capWord_eq]
  cases p.hasCounter <;> decide

/-- Without an error ERR is 0 (10_state R29). -/
theorem errWord_eq_zero {s : State} (hcode : s.errCode = none) (hop : s.errOp = 0) : errWord s = 0 := by
  simp [errWord, errCodeByte_eq_zero.mpr hcode, hop]

/-- CTRL, STATUS and ERR are 0 after reset: every flag is clear, LAST_OP is 0 and no error is recorded (10_state R27 to R29). -/
theorem flagWords_resetWith (p : Params) :
    ctrlWord (State.resetWith p) = 0 ∧ statusWord (State.resetWith p) = 0 ∧ errWord (State.resetWith p) = 0 := by
  refine ⟨rfl, ?_, errWord_eq_zero rfl rfl⟩
  rw [statusWord, errCodeByte_bne_zero]
  simp [State.resetWith, flagAt]

/-- Nothing in FTAB counts as written after reset (10_state R44, 93_implementation_defined U1). -/
theorem ftab_resetWith (p : Params) {i : Nat} (hi : i < 256) : (State.resetWith p).ftab[i] = none :=
  Vector.getElem_replicate hi

/-- Settles O8: the hardwired registers read what they read in every state, and the others what reset put in them. -/
theorem resetValues : Obligations.ResetValues := by
  refine ⟨?_, 0, rfl⟩
  rintro p _ rfl
  obtain ⟨hid, hcap, hibuf, hobuf⟩ := hardwiredRegistersNeverChange.1 (State.resetWith p)
  obtain ⟨hcounter, hreserved, hlen, hsyms⟩ := capWord_fields p
  obtain ⟨hctrl, hstatus, herr⟩ := flagWords_resetWith p
  refine ⟨hid, hcounter, hreserved, hlen, hsyms, hcap, hibuf, hobuf, ?_, ?_, ?_, rfl, rfl, rfl, rfl, rfl, rfl, rfl, rfl, rfl,
    rfl, rfl, rfl, rfl, rfl, fun _ => ⟨rfl, rfl⟩, fun _ => ftab_resetWith p, rfl⟩
  · rw [readReg, hctrl]
  · rw [readReg, hstatus]
  · rw [readReg, herr]

/-! ### Reset of a running block -/

/-- Settles O9: the host's next operation is the reset, and taking it off the queue changes nothing the reset keeps but the queue. -/
theorem hardwareResetAbandonsTheCommand : Obligations.HardwareResetAbandonsTheCommand := by
  intro s rest hmoves hqueue
  rw [step_eq_hostOp hmoves hqueue]
  rfl

/-! ### The invariant -/

/-- The reset state is a fixed point of hardware reset (70_reset_and_hazards R320). -/
theorem hardwareReset_resetWith (p : Params) : hardwareReset (State.resetWith p) = State.resetWith p := rfl

/-- The invariant holds of every legal block right after reset. -/
theorem inv_resetWith {p : Params} (h : p.Legal) : Inv (State.resetWith p) :=
  hardwareReset_resetWith p ▸ inv_hardwareReset (s := State.resetWith p) h

/-- Settles O10: State.reset is the reset state of the default parameters, which are legal. -/
theorem resetStateIsCoherent : Obligations.ResetStateIsCoherent := ⟨fun _ => inv_resetWith, inv_resetWith (by decide)⟩

end Sys2Proof.Machine
end
